-- ==== Sys2Proof/Word.lean ====
section
/-!
DEFINITION. The words of the BeePCM voice core: bytes of the ROM and of the command stream, and the
32-bit operands of the host commands (30_encoding.md R110).
-/
namespace Sys2Proof

/-- A ROM byte, a register data byte, or a byte of the host command stream (R80, R110). -/
abbrev Byte := BitVec 8

/-- A u32 operand of a host command (R111). -/
abbrev U32 := BitVec 32

end Sys2Proof
end

