-- ==== Sys2Proof/Config.lean ====
section
/-!
DEFINITION. The variant descriptor `VD` (00_scope.md R8-R24): every per-chip value of the core.
The spec leaves every value OPEN (R7), so a descriptor is plain data and the model is stated for
all of them (log 1). `Config.testVoices` (VT) and `Config.testBlock` (BT) are the two invented
descriptors of the spec's own test instantiation (95_test_vectors.md section 1): no chip's values.
-/
namespace Sys2Proof

/-- The codec-mode selector of a voice (10_state.md R36, 30_encoding.md R126). -/
inductive Codec where
  | pcm8 | pcm16 | pcm12 | adpcmA | adpcmB | adpcmC
deriving DecidableEq, Repr

/-- A member of `VD.CODECS` (R10): one of the six voice codecs, or BLOCK. -/
inductive Capability where
  | voice (c : Codec)
  | block
deriving DecidableEq, Repr

/-- `VD.ENV` (R11). -/
inductive EnvKind where
  | ramp | adsrRamp | none
deriving DecidableEq, Repr

/-- `VD.PAN_LAW` (R13): it only constrains the values of `VD.PANVOL`. -/
inductive PanLaw where
  | linear | logNotch
deriving DecidableEq, Repr

/-- `VD.SEL_MAP` (R14). -/
inductive SelMap where
  | direct | skip8
deriving DecidableEq, Repr

/-- `MAG_MODE` of a dialect (R23). -/
inductive MagMode where
  | table | direct
deriving DecidableEq, Repr

/-- `NIB_ORDER` of a dialect (R23, R129). -/
inductive NibOrder where
  | highFirst | lowFirst
deriving DecidableEq, Repr

/-- The names of the ADPCM dialects (R23). -/
inductive DialectId where
  | a | b | c
deriving DecidableEq, Repr

/-- A non-negative rational `num / den`, for the rational constants of R19 and R20. -/
structure Ratio where
  num : Nat
  den : Nat
deriving DecidableEq, Repr

/-- The dialect descriptor `VD.DIALECT[d]` (R23). `dampShift = none` is `DAMP_SHIFT = NONE`. -/
structure Dialect where
  codeBits    : Nat
  magMode     : MagMode
  idxMax      : Nat
  diff        : List (List Nat)
  direct      : List Nat
  adj         : List Int
  accMin      : Int
  accMax      : Int
  dampShift   : Option Nat
  norm        : Nat
  nibOrder    : NibOrder
  loopRestore : Bool
deriving DecidableEq, Repr

/-- The variant descriptor `VD` (R8-R24), one field per field of the spec.
Fields the spec gives only to some variants (R20, R21, R23, R24) are there on every descriptor and
read by no rule where the spec does not give them. In `base`, `none` is the marker INSTANT (R20). -/
structure Variant where
  nVoices         : Nat
  divisor         : Nat
  codecs          : List Capability
  env             : EnvKind
  stereo          : Bool
  panLaw          : PanLaw
  selMap          : SelMap
  outMaskBits     : Nat
  banked          : Bool
  bankThreshold   : Nat
  fill            : Byte
  metaBase        : Nat
  pitchRef        : Ratio
  base            : List (Option Ratio)
  ratio           : Ratio
  exp             : List Nat
  rampRise        : Nat
  rampFall        : Nat
  panVol          : List (List (Nat × Nat))
  dialectA        : Dialect
  dialectB        : Dialect
  dialectC        : Dialect
  seqDialect      : DialectId
  seqTableBase    : Nat
  seqPtrScale     : Nat
  seqFixedNibbles : Nat
  seqRateUnit     : Nat
  seqSilenceUnit  : Nat
  latStart        : Nat
  latAddr         : Nat
  latDummy        : Nat
  latHdr          : Nat
  latDrop         : Nat
deriving DecidableEq, Repr

/-- The invented test dialect A_T (95_test_vectors.md section 1.2). -/
def Config.testDialect : Dialect where
  codeBits    := 4
  magMode     := .table
  idxMax      := 3
  diff        := [[2, 6, 10, 14, 18, 22, 26, 30], [4, 12, 20, 28, 36, 44, 52, 60],
                  [8, 24, 40, 56, 72, 88, 104, 120], [16, 48, 80, 112, 144, 176, 208, 240]]
  direct      := []
  adj         := [-1, -1, -1, -1, 1, 1, 2, 2]
  accMin      := -2048
  accMax      := 2047
  dampShift   := none
  norm        := 4
  nibOrder    := .highFirst
  loopRestore := true

/-- The invented descriptor VT (95_test_vectors.md section 1.1): register-triggered playback,
stereo, ADSR. The dialects B and C and the sequencer constants are not given for it and no rule
reads them on it. -/
def Config.testVoices : Variant where
  nVoices         := 4
  divisor         := 384
  codecs          := [.voice .pcm8, .voice .pcm16, .voice .pcm12, .voice .adpcmA]
  env             := .adsrRamp
  stereo          := true
  panLaw          := .linear
  selMap          := .direct
  outMaskBits     := 0
  banked          := true
  bankThreshold   := 0x1000
  fill            := 0x00
  metaBase        := 0
  pitchRef        := ⟨1000, 1⟩
  base            := List.replicate 4 none ++ List.replicate 59 (some ⟨4, 1⟩) ++ [none]
  ratio           := ⟨2, 1⟩
  exp             := (List.range 1024).map fun i => 4 * (i + 1)
  rampRise        := 65536
  rampFall        := 65536
  panVol          := (List.range 128).map fun tl =>
                       List.replicate 16 (4096 - 32 * tl, 4096 - 32 * tl)
  dialectA        := Config.testDialect
  dialectB        := Config.testDialect
  dialectC        := Config.testDialect
  seqDialect      := .a
  seqTableBase    := 0
  seqPtrScale     := 1
  seqFixedNibbles := 4
  seqRateUnit     := 1
  seqSilenceUnit  := 1
  latStart        := 0
  latAddr         := 0
  latDummy        := 0
  latHdr          := 0
  latDrop         := 0

/-- The invented descriptor BT (95_test_vectors.md section 1.3): the block-structured variant. -/
def Config.testBlock : Variant :=
  { Config.testVoices with
    nVoices := 1, codecs := [.block], env := .none, stereo := false, banked := false }

end Sys2Proof
end

