-- ==== Sys2Proof/Syntax.lean ====
section
/-!
DEFINITION. The instructions of the core, one constructor per row of spec/opcode_table.json.
The spec encodes three levels (30_encoding.md): host commands (R111), register writes (R115, R117,
R119) and block headers (R140). A constructor carries exactly the fields its row names; the reserved
bits of a register byte are no field, since the write acts as if they were 0 (R120).
-/
namespace Sys2Proof

/-- One instruction: a host command, a register write, or a block header. -/
inductive Instr where
  -- host commands (R111)
  | write (sel sub data : Byte)
  | writeGlobal (reg data : Byte)
  | configure (clock : U32)
  | loadRom (total offset length : U32) (data : List Byte)
  | tick
  | readFrame
  | reset
  | readStatus (sel : Byte)
  -- register writes of a non-BLOCK voice (R115)
  | pan (sel : Byte) (pan : BitVec 4)
  | smpl (sel : Byte) (low : Byte)
  | pitchL (sel : Byte) (fnLow : BitVec 6) (sampleHigh : BitVec 1)
  | pitchH (sel : Byte) (oct : BitVec 4) (fnHigh : BitVec 4)
  | keyOn (sel : Byte)
  | keyOff (sel : Byte)
  | tl (sel : Byte) (level : BitVec 7) (ld : BitVec 1)
  | lfo (sel : Byte) (data : Byte)
  | am (sel : Byte) (data : Byte)
  -- global register writes (R117)
  | enable (en : BitVec 1)
  | bank (bank : Byte)
  -- register writes of a BLOCK voice (R119)
  | seqIndex (index : Byte)
  | seqStart
  | seqStop
  -- block headers (R140)
  | hdrEnd
  | hdrSilence (a : BitVec 6)
  | hdrFixed (a : BitVec 6)
  | hdrCounted (a : BitVec 6)
  | hdrRepeat (a : BitVec 6)
deriving DecidableEq, Repr

/-- A block header as the BlockHeader state dispatches it (R140, R346): END or one of the four types
with its argument `a = h[5:0]`. -/
inductive Header where
  | stop
  | silence (a : BitVec 6)
  | fixed (a : BitVec 6)
  | counted (a : BitVec 6)
  | loopBack (a : BitVec 6)
deriving DecidableEq, Repr

/-- The instruction a header is. -/
def Instr.ofHeader : Header → Instr
  | .stop       => .hdrEnd
  | .silence a  => .hdrSilence a
  | .fixed a    => .hdrFixed a
  | .counted a  => .hdrCounted a
  | .loopBack a => .hdrRepeat a

end Sys2Proof
end

