-- ==== Sys2Proof/WellFormed.lean ====
section
/-!
DEFINITION. What a well-formed instruction and a well-formed variant descriptor are.
`Instr.wf` says which instructions the encoding can spell on a BLOCK or a non-BLOCK variant;
`Variant.wf` collects the constraints 00_scope.md R8-R24 puts on a descriptor.
-/
namespace Sys2Proof

/-- `i` is spelled by the encoding of a variant (`block`: whether BLOCK is in `VD.CODECS`).
A WRITE whose bytes name a register row is that row (R115, R119), so `write` and `writeGlobal` are
well formed only for the reserved addresses; a LOAD_ROM carries `length` data bytes (R111); a
SILENCE header has a non-zero argument (R140); headers exist only on a BLOCK variant (R330). -/
def Instr.wf (block : Bool) : Instr → Bool
  | .write sel sub _ =>
      if block then !(sel == 0 && (sub == 0 || sub == 1)) else decide (8 ≤ sub.toNat)
  | .writeGlobal reg _ => decide (2 ≤ reg.toNat)
  | .configure _ => true
  | .loadRom _ _ length data => data.length == length.toNat
  | .tick => true
  | .readFrame => true
  | .reset => true
  | .readStatus _ => true
  | .pan _ _ => !block
  | .smpl _ _ => !block
  | .pitchL _ _ _ => !block
  | .pitchH _ _ _ => !block
  | .keyOn _ => !block
  | .keyOff _ => !block
  | .tl _ _ _ => !block
  | .lfo _ _ => !block
  | .am _ _ => !block
  | .enable _ => true
  | .bank _ => true
  | .seqIndex _ => block
  | .seqStart => block
  | .seqStop => block
  | .hdrEnd => block
  | .hdrSilence a => block && a != 0
  | .hdrFixed _ => block
  | .hdrCounted _ => block
  | .hdrRepeat _ => block

/-- Whether the instruction is a block header, read from the ROM by the sequencer and not from the
host command stream (30_encoding.md, the table of levels). -/
def Instr.isHeader : Instr → Bool
  | .hdrEnd => true
  | .hdrSilence _ => true
  | .hdrFixed _ => true
  | .hdrCounted _ => true
  | .hdrRepeat _ => true
  | .write _ _ _ => false
  | .writeGlobal _ _ => false
  | .configure _ => false
  | .loadRom _ _ _ _ => false
  | .tick => false
  | .readFrame => false
  | .reset => false
  | .readStatus _ => false
  | .pan _ _ => false
  | .smpl _ _ => false
  | .pitchL _ _ _ => false
  | .pitchH _ _ _ => false
  | .keyOn _ => false
  | .keyOff _ => false
  | .tl _ _ _ => false
  | .lfo _ _ => false
  | .am _ _ => false
  | .enable _ => false
  | .bank _ => false
  | .seqIndex _ => false
  | .seqStart => false
  | .seqStop => false

/-- A positive rational (R19, R20). -/
def Ratio.positive (q : Ratio) : Bool := decide (0 < q.num) && decide (0 < q.den)

/-- A list never steps down (the shape of `VD.EXP`, R20). -/
def nonDecreasing : List Nat → Bool
  | x :: y :: t => decide (x ≤ y) && nonDecreasing (y :: t)
  | _ => true

/-- Each row of `VD.PANVOL` is, at every pan code, no larger than the row before (R22). -/
def rowsNonIncreasing : List (List (Nat × Nat)) → Bool
  | r :: r' :: t =>
      (r.zip r').all (fun p => decide (p.2.1 ≤ p.1.1) && decide (p.2.2 ≤ p.1.2))
        && rowsNonIncreasing (r' :: t)
  | _ => true

/-- The constraints on a dialect descriptor (R23; R279: every `DIFF` row has `2^(CODE_BITS-1)`
entries, `ACC_MIN < 0 < ACC_MAX`, and on the 16-bit scale the range needs no clamp). -/
def Dialect.wf (d : Dialect) : Bool :=
  (d.codeBits == 3 || d.codeBits == 4)
    && (d.magMode != .table
        || (d.diff.length == d.idxMax + 1
            && d.diff.all (fun r => r.length == 2 ^ (d.codeBits - 1))))
    && (d.magMode != .direct || d.direct.length == 2 ^ (d.codeBits - 1))
    && d.adj.length == 2 ^ (d.codeBits - 1)
    && decide (d.accMin < 0) && decide (0 < d.accMax)
    && (match d.dampShift with
        | none => true
        | some k => decide (1 ≤ k) && decide (k ≤ 15))
    && decide (d.norm ≤ 15)
    && decide (d.accMax * 2 ^ d.norm ≤ 32767) && decide (-32768 ≤ d.accMin * 2 ^ d.norm)

/-- The dialect descriptor of a dialect name. -/
def Variant.dialect (vd : Variant) : DialectId → Dialect
  | .a => vd.dialectA
  | .b => vd.dialectB
  | .c => vd.dialectC

/-- `VD.BASE` as R20 gives it: 64 entries, INSTANT exactly at 0..3 and 63, positive elsewhere. -/
def baseWf (base : List (Option Ratio)) : Bool :=
  base.length == 64
    && (List.range 64).all fun i =>
        match base.getD i none with
        | none => decide (i < 4) || i == 63
        | some q => decide (4 ≤ i) && decide (i < 63) && q.positive

/-- `VD.PANVOL` as R22 gives it: 128 rows of 16 pairs of Q12 values, non-increasing in the level,
with the notch at pan code 8 under the LOG_NOTCH law. -/
def panVolWf (law : PanLaw) (t : List (List (Nat × Nat))) : Bool :=
  t.length == 128
    && t.all (fun r => r.length == 16
        && r.all (fun g => decide (g.1 ≤ 4096) && decide (g.2 ≤ 4096)))
    && rowsNonIncreasing t
    && (law != .logNotch || t.all (fun r => r.getD 8 (0, 0) == (0, 0)))

/-- The constraints on a descriptor with voices (R11, R16, R20, R21, R22, R23). R16 states the bound on
`BANK_THRESHOLD` with no condition; that only a banked descriptor must meet it is the model's choice
(log 20, DESIGN CHOICE). -/
def Variant.voicesWf (vd : Variant) : Bool :=
  vd.env != .none
    && panVolWf vd.panLaw vd.panVol
    && decide (0 < vd.rampRise) && decide (0 < vd.rampFall)
    && (vd.env != .adsrRamp
        || (baseWf vd.base && vd.ratio.positive && vd.exp.length == 1024
            && vd.exp.all (fun g => decide (g ≤ 4096)) && nonDecreasing vd.exp))
    && (!vd.banked || (vd.bankThreshold == 2 ^ Nat.log2 vd.bankThreshold
            && decide (vd.bankThreshold ≤ 2 ^ 23)))
    && (!vd.codecs.contains (.voice .adpcmA) || vd.dialectA.wf)
    && (!vd.codecs.contains (.voice .adpcmB) || vd.dialectB.wf)
    && (!vd.codecs.contains (.voice .adpcmC) || vd.dialectC.wf)

/-- The constraints on a BLOCK descriptor (R10, R11, R12, R24). R16 and R22 state theirs with no condition and
95_test_vectors.md section 1.3 gives BT neither a `BANK_THRESHOLD` nor a `PANVOL` of its own; that a BLOCK
descriptor, which reads neither, need not meet them is the model's choice (log 20, DESIGN CHOICE). -/
def Variant.blockWf (vd : Variant) : Bool :=
  vd.codecs == [.block] && vd.nVoices == 1 && vd.env == .none && !vd.stereo
    && (vd.dialect vd.seqDialect).wf
    && decide (0 < vd.seqPtrScale) && decide (0 < vd.seqFixedNibbles)
    && decide (0 < vd.seqRateUnit) && decide (0 < vd.seqSilenceUnit)

/-- A valid variant descriptor (R8, R9, R15, R19, and the constraints of its kind). -/
def Variant.wf (vd : Variant) : Bool :=
  [1, 4, 8, 16, 28].contains vd.nVoices
    && decide (0 < vd.divisor)
    && decide vd.codecs.Nodup
    && decide (vd.outMaskBits ≤ 15)
    && vd.pitchRef.positive
    && (if vd.codecs.contains .block then vd.blockWf else vd.voicesWf)

end Sys2Proof
end

