-- ==== Sys2Proof/Machine/State.lean ====
section
/-!
DEFINITION. The state of one core instance (10_state.md R30): global registers, ROM image,
rate-dependent tables, voices, sequencer; the model's own fields `vd`, `input` and `result`
(logs 1, 2, 4); the faults and refusals; the power-on state (70_reset_and_hazards.md R530).
Quantities the spec calls integers are `Nat` or `Int` with their ranges as invariants (log 11);
register fields, which a write assembles bit by bit, are bit vectors.
-/
namespace Sys2Proof.Machine

/-- ADSR stages (R36, R302). -/
inductive Stage where
  | attack | decay1 | decay2 | release | idle
deriving DecidableEq, Repr

/-- States of the sequencing FSM (R41, R330). -/
inductive SeqState where
  | idle | start | addr1 | addr2 | dummy1 | dummy2 | blockHeader
  | nibbleCount | nibbleMSN | nibbleLSN | dropDRQ
deriving DecidableEq, Repr

/-- Why the machine stops with a fault: a broken host obligation (60_exceptions.md R500). Both are
safe: no state is written and nothing is claimed about what follows. -/
inductive Fault where
  /-- R504: raised by every host operation once `G.fatal = 1`. Safe. -/
  | fatal
  /-- R505: raised by TICK, a PITCHL or PITCHH write and a key-on while `G.configured = 0`. Safe. -/
  | unconfigured
deriving DecidableEq, Repr

/-- Why a step has no meaning (R500, R506). -/
inductive Refusal where
  /-- An instruction without a meaning in `exec`; raised by no arm of this model. Safe. -/
  | notModelled (mnemonic : String)
  /-- R113: the command decoder met opcode byte 0x00 or 0x09..0xFF. Safe: no state change. -/
  | illegalCommand (opcode : Byte)
  /-- R112: the command stream ends inside a command, which is not executed. Safe. -/
  | truncated
  /-- A block header executed on a descriptor without BLOCK, where no sequencer exists (R30, R330);
  no step reaches it (log 7). Safe. -/
  | noSequencer
deriving DecidableEq, Repr

/-- What an operation returns to its caller (R500, R501). -/
inductive Result where
  /-- Nothing (a `void` operation). -/
  | void
  /-- CONFIGURE's sample rate (R200). -/
  | rate (hz : Nat)
  /-- CONFIGURE's error result, with the clock argument (R201, R501). -/
  | configurationError (clock : U32)
  /-- READ_FRAME on a stereo descriptor (R386). -/
  | frameStereo (left right : Int)
  /-- READ_FRAME on a mono descriptor (R386). -/
  | frameMono (left : Int)
  /-- READ_STATUS's status byte (R410, R118). -/
  | status (byte : Byte)
deriving DecidableEq, Repr

/-- Global registers and instance status G (R32). -/
structure Globals where
  configured : Bool
  sampleRate : Nat
  fatal      : Bool
  enable     : Bool
  bank       : Byte
  frameL     : Int
  frameR     : Int
deriving DecidableEq, Repr

/-- The ROM image (R80): its length, and the bytes that differ from `VD.FILL` as (address, byte) pairs in
canonical form; an unlisted address reads `VD.FILL` (R81, R400, log 9). -/
structure Memory where
  len   : Nat
  cells : List Host.Cell
deriving DecidableEq, Repr

/-- The canonical form of the image for a fill value: addresses strictly rising, each below the length,
no entry equal to the fill value (log 9). -/
abbrev Memory.wf (fill : Byte) (m : Memory) : Prop :=
  m.cells.Pairwise (fun x y => x.1 < y.1) ∧ ∀ c ∈ m.cells, c.1 < m.len ∧ c.2 ≠ fill

/-- The rate-dependent tables T (R42). `none` is the marker INSTANT. An absent table is the empty
list (log 10). -/
structure Tables where
  freq : List Nat
  atk  : List (Option Nat)
  dec  : List (Option Nat)
deriving DecidableEq, Repr

/-- One voice: its register fields (R34) and its playback state (R36). -/
structure Voice where
  -- register fields (R34)
  pan       : BitVec 4
  sample    : BitVec 9
  fn        : BitVec 10
  oct       : BitVec 4
  tlTgt     : BitVec 7
  lfo       : Byte
  am        : Byte
  -- playback state (R36)
  active    : Bool
  keyed     : Bool
  codec     : Codec
  loopEn    : Bool
  start     : Nat
  loopStart : Nat
  endPos    : Nat
  pos       : Nat
  phase     : Nat
  step      : Nat
  prev      : Int
  cur       : Int
  acc       : Int
  sidx      : Nat
  snapValid : Bool
  snapAcc   : Int
  snapIdx   : Nat
  stage     : Stage
  level     : Nat
  eAR       : Nat
  eD1       : Nat
  eD2       : Nat
  eRR       : Nat
  dlt       : Nat
  tlCur     : Nat
  outL      : Int
  outR      : Int
  err       : BitVec 4
deriving DecidableEq, Repr

/-- The sequencer state `seq` (R35, R41). -/
structure Seq where
  st        : SeqState
  cd        : Nat
  ret       : SeqState
  retCd     : Nat
  idxReg    : Byte
  cursor    : Nat
  ptrHi     : Byte
  lbValid   : Bool
  lbAddr    : Nat
  repActive : Bool
  repAddr   : Nat
  repCount  : Nat
  nibLeft   : Nat
  period    : Nat
  latch     : Byte
  silent    : Bool
  drq       : Bool
deriving DecidableEq, Repr

/-- The state of one core instance (R30), with the model's own fields `vd` (the configuration, R44, log 1),
`input` (the host's command bytes not yet executed, R110, log 2) and `result` (what the last operation
returned, log 4). -/
structure State where
  vd     : Variant
  g      : Globals
  rom    : Memory
  tables : Tables
  voices : List Voice
  seq    : Seq
  input  : List Byte
  result : Result
deriving DecidableEq, Repr

/-- Power-on values of G (R32). -/
def Globals.powerOn : Globals where
  configured := false
  sampleRate := 0
  fatal      := false
  enable     := true
  bank       := 0
  frameL     := 0
  frameR     := 0

/-- Power-on: the image is empty (R80). -/
def Memory.powerOn : Memory where
  len   := 0
  cells := []

/-- Power-on: T is absent (R42). -/
def Tables.absent : Tables where
  freq := []
  atk  := []
  dec  := []

/-- Power-on and RESET values of a voice (R34, R36). -/
def Voice.powerOn : Voice where
  pan       := 0
  sample    := 0
  fn        := 0
  oct       := 0
  tlTgt     := 0
  lfo       := 0
  am        := 0
  active    := false
  keyed     := false
  codec     := .pcm8
  loopEn    := false
  start     := 0
  loopStart := 0
  endPos    := 0
  pos       := 0
  phase     := 0
  step      := 0
  prev      := 0
  cur       := 0
  acc       := 0
  sidx      := 0
  snapValid := false
  snapAcc   := 0
  snapIdx   := 0
  stage     := .idle
  level     := 0
  eAR       := 0
  eD1       := 0
  eD2       := 0
  eRR       := 0
  dlt       := 0
  tlCur     := 0
  outL      := 0
  outR      := 0
  err       := 0

/-- Power-on and RESET values of the sequencer (R41). -/
def Seq.powerOn : Seq where
  st        := .idle
  cd        := 0
  ret       := .idle
  retCd     := 0
  idxReg    := 0
  cursor    := 0
  ptrHi     := 0
  lbValid   := false
  lbAddr    := 0
  repActive := false
  repAddr   := 0
  repCount  := 0
  nibLeft   := 0
  period    := 1
  latch     := 0
  silent    := false
  drq       := false

/-- The power-on state of an instance of a variant (R31, R530): no field is unspecified. No command is
pending and nothing has been returned (logs 2 and 4, DESIGN CHOICE). -/
def State.powerOn (vd : Variant) : State where
  vd     := vd
  g      := Globals.powerOn
  rom    := Memory.powerOn
  tables := Tables.absent
  voices := List.replicate vd.nVoices Voice.powerOn
  seq    := Seq.powerOn
  input  := []
  result := .void

/-- The machine right after power-on (R530). The spec gives no descriptor its values, so the one here is the
spec's own test descriptor VT (log 1, DESIGN CHOICE, unsafe); for every other descriptor the state is
`State.powerOn vd`. -/
def State.reset : State := State.powerOn Config.testVoices

end Sys2Proof.Machine
end

