-- ==== Sys2Proof/Machine/Ops.lean ====
section
/-!
DEFINITION. The named operations over numbers (00_scope.md R26), the ROM image (20_memory.md R80-R86,
R400) and the voices; and what stands in the place of taking an exception: this core has no trap entry
and no return (60_exceptions.md R508, R509), it has two guards that fault, an error result and a
recorded error (R500).
-/
namespace Sys2Proof.Machine

/-- The outcome of one instruction. -/
abbrev Out := Host.Outcome State Fault Refusal

/-! ## Arithmetic (R26) -/

/-- `asr(a, k)`: floor of `a / 2^k`, rounding toward minus infinity. -/
def asr (a : Int) (k : Nat) : Int := a / 2 ^ k

/-- `clamp(v, lo, hi) = min(max(v, lo), hi)`. -/
def clamp (v lo hi : Int) : Int := min (max v lo) hi

/-- `clamp16(v)`. -/
def clamp16 (v : Int) : Int := clamp v (-32768) 32767

/-! ## The ROM image (R80, R81, R400) -/

/-- The byte listed at an address, if one is. -/
def cellAt : List Host.Cell → Nat → Option Byte
  | [], _ => none
  | (x, b) :: t, a => if x = a then some b else cellAt t a

/-- `RomRead` on an image (R81): the byte below the length, the fill value beyond it. -/
def Memory.read (fill : Byte) (m : Memory) (a : Nat) : Byte :=
  if a < m.len then (cellAt m.cells a).getD fill else fill

/-- List the byte `b` at address `a`, keeping the addresses rising and no entry equal to the fill value. -/
def putCell (fill : Byte) (a : Nat) (b : Byte) : List Host.Cell → List Host.Cell
  | [] => if b = fill then [] else [(a, b)]
  | (x, c) :: t =>
    if a < x then (if b = fill then (x, c) :: t else (a, b) :: (x, c) :: t)
    else if a = x then (if b = fill then t else (a, b) :: t)
    else (x, c) :: putCell fill a b t

/-- `ROM.byte[a] <- b`, for an address of the image; nothing beyond its length is backed (R80). -/
def Memory.write (fill : Byte) (m : Memory) (a : Nat) (b : Byte) : Memory :=
  if a < m.len then { m with cells := putCell fill a b m.cells } else m

/-- Write consecutive bytes from an address on (the copy loop of R400). -/
def Memory.writeFrom (fill : Byte) : Memory → Nat → List Byte → Memory
  | m, _, [] => m
  | m, a, b :: t => Memory.writeFrom fill (m.write fill a b) (a + 1) t

/-- Size the image to `total` (R400): new bytes read as the fill value, bytes at or above `total` are
dropped. -/
def Memory.resize (m : Memory) (total : Nat) : Memory :=
  if m.len = total then m
  else { len := total, cells := m.cells.filter fun c => decide (c.1 < total) }

/-- LOAD_ROM on the image (R400): no-op when `offset > total`, otherwise size it and copy
`min(length, total - offset)` bytes to `offset`. -/
def Memory.load (fill : Byte) (m : Memory) (total offset length : Nat) (data : List Byte) : Memory :=
  if offset > total then m
  else (m.resize total).writeFrom fill offset (data.take (min length (total - offset)))

/-- `RomRead(addr)` (R81). -/
def romRead (s : State) (a : Nat) : Byte := s.rom.read s.vd.fill a

/-- `RomRead16(addr) = {RomRead(addr+1), RomRead(addr)}` (R26, R84). -/
def romRead16 (s : State) (a : Nat) : BitVec 16 := romRead s (a + 1) ++ romRead s a

/-! ## Voices -/

/-- Whether the descriptor has BLOCK in `VD.CODECS` (R10). -/
def isBlock (vd : Variant) : Bool := vd.codecs.contains .block

/-- `voice[v]`. -/
def State.voice (s : State) (v : Nat) : Voice := s.voices.getD v Voice.powerOn

/-- `voice[v] <- V`. -/
def State.setVoice (s : State) (v : Nat) (V : Voice) : State :=
  { s with voices := s.voices.set v V }

/-- `Deactivate(v)` (R241). -/
def Voice.deactivate (V : Voice) : Voice :=
  { V with active := false, stage := .idle, outL := 0, outR := 0 }

/-! ## Errors in the place of traps (R500, R507, R508) -/

/-- The ERR code of ProtocolError (R501). -/
def protocolErrorCode : BitVec 4 := 1

/-- `record ProtocolError(v)` (R503): the code is stored in the voice and the operation goes on. -/
def Voice.recordProtocolError (V : Voice) : Voice := { V with err := protocolErrorCode }

/-- An operation completes with a result (R500). -/
def State.returns (s : State) (r : Result) : Out := .next { s with result := r }

/-- `raise ConfigurationError(clock)` (R201, R502): `G.fatal <- 1` only, the error goes to the caller. -/
def raiseConfigurationError (clock : U32) (s : State) : Out :=
  State.returns { s with g := { s.g with fatal := true } } (.configurationError clock)

/-- `if G.fatal: fault Fatal` before an operation (R504). -/
def unlessFatal (s : State) (k : Out) : Out := if s.g.fatal then .fault .fatal else k

/-- `if !G.configured: fault Unconfigured` before an operation (R505). -/
def ifConfigured (s : State) (k : Out) : Out :=
  if s.g.configured then k else .fault .unconfigured

end Sys2Proof.Machine
end

