-- ==== Sys2Proof/Machine/Flags.lean ====
section
/-!
DEFINITION. The status bits, the core's analogue of flags (10_state.md R40): the status byte of READ_STATUS
(R118, R410), the sequencer's running bit, and the degenerate-rate test (R29, R241).
-/
namespace Sys2Proof.Machine

/-- The status byte (R118): ERR in bits 7..4, bit 3 zero, DRQ, KEYED, ACTIVE. -/
def statusByte (err : BitVec 4) (drq keyed active : Bool) : Byte :=
  err ++ (0 : BitVec 1) ++ BitVec.ofBool drq ++ BitVec.ofBool keyed ++ BitVec.ofBool active

/-- `seq.st ≠ Idle`. -/
def seqRunning (q : Seq) : Bool := q.st != .idle

/-- The status byte of a voice of a non-BLOCK descriptor (R410). -/
def voiceStatus (V : Voice) : Byte := statusByte V.err false V.keyed V.active

/-- The status byte of the BLOCK voice (R410). -/
def blockStatus (V : Voice) (q : Seq) : Byte :=
  statusByte V.err q.drq (seqRunning q) (seqRunning q)

/-- `Degenerate(e) = (VD.BASE[e] == INSTANT)` (R241). -/
def degenerate (vd : Variant) (e : Nat) : Bool := (vd.base.getD e none).isNone

end Sys2Proof.Machine
end

