-- ==== Sys2Proof/Decode.lean ====
section
/-!
DEFINITION. The encodings of 30_encoding.md: the decoder of the host command stream (R110-R113) with
the register maps of the two kinds of variant (R115-R117, R119), the decoder of a block header
(R140, R346), and after them the encoder.
-/
namespace Sys2Proof

/-! ## Bytes of a stream -/

/-- Four bytes, least significant first, as a u32 (R110: "multi-byte operands are little-endian u32"). -/
def u32OfBytes (b0 b1 b2 b3 : Byte) : U32 := b3 ++ b2 ++ b1 ++ b0

/-- The bytes of a u32, least significant first (R110). -/
def bytesOfU32 (x : U32) : List Byte :=
  [x.extractLsb' 0 8, x.extractLsb' 8 8, x.extractLsb' 16 8, x.extractLsb' 24 8]

/-- What the decoder finds at the front of the host command stream. -/
inductive Decoded where
  /-- A command and the bytes after it. -/
  | command (i : Instr) (rest : List Byte)
  /-- R113: opcode byte 0x00 or 0x09..0xFF spells no command. -/
  | illegalCommand (opcode : Byte)
  /-- R112: the stream ends inside a command. -/
  | truncated
  /-- The stream holds no byte: the host has issued no further command. -/
  | endOfStream
deriving DecidableEq, Repr

/-! ## Register maps -/

/-- The register row a WRITE to a non-BLOCK voice spells (R115, R116). Reserved bits are dropped (R120);
a reserved sub_address stays a plain WRITE (R233). -/
def voiceRegister (sel sub data : Byte) : Instr :=
  if sub = 0 then .pan sel (data.extractLsb' 4 4)
  else if sub = 1 then .smpl sel data
  else if sub = 2 then .pitchL sel (data.extractLsb' 2 6) (data.extractLsb' 0 1)
  else if sub = 3 then .pitchH sel (data.extractLsb' 4 4) (data.extractLsb' 0 4)
  else if sub = 4 then (if data.getLsbD 7 then .keyOn sel else .keyOff sel)
  else if sub = 5 then .tl sel (data.extractLsb' 1 7) (data.extractLsb' 0 1)
  else if sub = 6 then .lfo sel data
  else if sub = 7 then .am sel data
  else .write sel sub data

/-- The register row a WRITE to the BLOCK voice, selector 0, spells (R119); any other selector or
sub_address stays a plain WRITE (R220, R331). -/
def blockRegister (sel sub data : Byte) : Instr :=
  if sel = 0 ∧ sub = 0 then .seqIndex data
  else if sel = 0 ∧ sub = 1 then (if data.getLsbD 0 then .seqStart else .seqStop)
  else .write sel sub data

/-- The global register row a WRITE_GLOBAL spells (R117); a reserved register stays a plain
WRITE_GLOBAL (R235). -/
def globalRegister (reg data : Byte) : Instr :=
  if reg = 0 then .enable (data.extractLsb' 0 1)
  else if reg = 1 then .bank data
  else .writeGlobal reg data

/-- The row a WRITE spells: "the meaning of a register write depends on VD (BLOCK or not) and on
nothing else" (R143). -/
def registerRow (block : Bool) (sel sub data : Byte) : Instr :=
  if block then blockRegister sel sub data else voiceRegister sel sub data

/-! ## Host commands -/

/-- Operands of LOAD_ROM (R111, R112): three u32 and then `length` data bytes. -/
def decodeLoadRom : List Byte → Decoded
  | t0 :: t1 :: t2 :: t3 :: o0 :: o1 :: o2 :: o3 :: l0 :: l1 :: l2 :: l3 :: rest =>
    let length := u32OfBytes l0 l1 l2 l3
    if rest.length < length.toNat then .truncated
    else
      .command
        (.loadRom (u32OfBytes t0 t1 t2 t3) (u32OfBytes o0 o1 o2 o3) length
          (rest.take length.toNat))
        (rest.drop length.toNat)
  | _ => .truncated

/-- Operands of WRITE (R111): selector, sub_address, data. -/
def decodeWrite (block : Bool) : List Byte → Decoded
  | sel :: sub :: data :: rest => .command (registerRow block sel sub data) rest
  | _ => .truncated

/-- Operands of WRITE_GLOBAL (R111): register, data. -/
def decodeWriteGlobal : List Byte → Decoded
  | reg :: data :: rest => .command (globalRegister reg data) rest
  | _ => .truncated

/-- Operand of CONFIGURE (R111): the clock, u32 little-endian. -/
def decodeConfigure : List Byte → Decoded
  | c0 :: c1 :: c2 :: c3 :: rest => .command (.configure (u32OfBytes c0 c1 c2 c3)) rest
  | _ => .truncated

/-- Operand of READ_STATUS (R111): the selector. -/
def decodeReadStatus : List Byte → Decoded
  | sel :: rest => .command (.readStatus sel) rest
  | _ => .truncated

/-- The command at the front of the host stream (R111, R112, R113), as the row its bytes spell on a
BLOCK (`block`) or non-BLOCK variant. -/
def decode (block : Bool) : List Byte → Decoded
  | [] => .endOfStream
  | op :: rest =>
    if op = 0x01 then decodeWrite block rest
    else if op = 0x02 then decodeWriteGlobal rest
    else if op = 0x03 then decodeConfigure rest
    else if op = 0x04 then decodeLoadRom rest
    else if op = 0x05 then .command .tick rest
    else if op = 0x06 then .command .readFrame rest
    else if op = 0x07 then .command .reset rest
    else if op = 0x08 then decodeReadStatus rest
    else .illegalCommand op

/-! ## Block headers -/

/-- The block header a control byte spells: "top 2 bits select" (R140, R346). -/
def decodeHeader (h : Byte) : Header :=
  if h = 0 then .stop
  else if h.extractLsb' 6 2 = 0 then .silence (h.extractLsb' 0 6)
  else if h.extractLsb' 6 2 = 1 then .fixed (h.extractLsb' 0 6)
  else if h.extractLsb' 6 2 = 2 then .counted (h.extractLsb' 0 6)
  else .loopBack (h.extractLsb' 0 6)

/-! ## The encoder -/

/-- The control byte of a block header (R140). -/
def encodeHeader : Header → Byte
  | .stop       => 0
  | .silence a  => (0 : BitVec 2) ++ a
  | .fixed a    => (1 : BitVec 2) ++ a
  | .counted a  => (2 : BitVec 2) ++ a
  | .loopBack a => (3 : BitVec 2) ++ a

/-- The data byte of a PAN write: bits 7..4 the code, the rest reserved (R115). -/
def panByte (pan : BitVec 4) : Byte := pan ++ (0 : BitVec 4)

/-- The data byte of a PITCHL write: FN[5:0], a reserved bit, SMP[8] (R115). -/
def pitchLByte (fnLow : BitVec 6) (sampleHigh : BitVec 1) : Byte :=
  fnLow ++ (0 : BitVec 1) ++ sampleHigh

/-- The data byte of a PITCHH write: OCT[3:0], FN[9:6] (R115). -/
def pitchHByte (oct fnHigh : BitVec 4) : Byte := oct ++ fnHigh

/-- The data byte of a TL write: TL[6:0], LD (R115). -/
def tlByte (level : BitVec 7) (ld : BitVec 1) : Byte := level ++ ld

/-- The data byte of a write to a one-bit register, bit 0 (R117, R119). -/
def bitByte (b : BitVec 1) : Byte := (0 : BitVec 7) ++ b

/-- The bytes of an instruction, in stream order: of a host command or register write the command
bytes (R111, R115, R117, R119), of a block header its control byte (R140). -/
def encode : Instr → List Byte
  | .write sel sub data     => [0x01, sel, sub, data]
  | .writeGlobal reg data   => [0x02, reg, data]
  | .configure clock        => 0x03 :: bytesOfU32 clock
  | .loadRom total offset length data =>
      0x04 :: (bytesOfU32 total ++ bytesOfU32 offset ++ bytesOfU32 length ++ data)
  | .tick                   => [0x05]
  | .readFrame              => [0x06]
  | .reset                  => [0x07]
  | .readStatus sel         => [0x08, sel]
  | .pan sel p              => [0x01, sel, 0, panByte p]
  | .smpl sel low           => [0x01, sel, 1, low]
  | .pitchL sel fnLow sHigh => [0x01, sel, 2, pitchLByte fnLow sHigh]
  | .pitchH sel oct fnHigh  => [0x01, sel, 3, pitchHByte oct fnHigh]
  | .keyOn sel              => [0x01, sel, 4, 0x80]
  | .keyOff sel             => [0x01, sel, 4, 0x00]
  | .tl sel level ld        => [0x01, sel, 5, tlByte level ld]
  | .lfo sel data           => [0x01, sel, 6, data]
  | .am sel data            => [0x01, sel, 7, data]
  | .enable en              => [0x02, 0, bitByte en]
  | .bank b                 => [0x02, 1, b]
  | .seqIndex index         => [0x01, 0, 0, index]
  | .seqStart               => [0x01, 0, 1, 0x01]
  | .seqStop                => [0x01, 0, 1, 0x00]
  | .hdrEnd                 => [encodeHeader .stop]
  | .hdrSilence a           => [encodeHeader (.silence a)]
  | .hdrFixed a             => [encodeHeader (.fixed a)]
  | .hdrCounted a           => [encodeHeader (.counted a)]
  | .hdrRepeat a            => [encodeHeader (.loopBack a)]

/-! ## Table words -/

/-- The low `n` bytes of a word, least significant byte first. -/
def bytesOfWord : Nat → Nat → List Byte
  | 0, _ => []
  | n + 1, w => BitVec.ofNat 8 w :: bytesOfWord n (w / 256)

/-- The longest fixed part of a command: LOAD_ROM's opcode and three u32 operands (R111). -/
def longestCommand : Nat := 13

/-- The bytes of a table word: `nbits / 8` bytes of `w`, then operand bytes of zeros up to the longest
command. -/
def tableBytes (nbits w : Nat) : List Byte :=
  let n := nbits / 8
  bytesOfWord n w ++ List.replicate (longestCommand - n) 0

/-- Whether a table word is a block header: one byte that is no one-byte row of the host commands
(LOAD_ROM, TICK, READ_FRAME, RESET have 8 table bits; log 5). -/
def isHeaderWord (nbits w : Nat) : Bool :=
  nbits == 8 && !(decide (4 ≤ w % 256) && decide (w % 256 ≤ 7))

/-- What the decoders read from a table word: a one-byte row that is no host command is read as a block
header, every other word as a command of a non-BLOCK variant (log 5). -/
def decodeTableWord (nbits w : Nat) : Option Instr :=
  if isHeaderWord nbits w then some (Instr.ofHeader (decodeHeader (BitVec.ofNat 8 w)))
  else
    match decode false (tableBytes nbits w) with
    | .command i _ => some i
    | .illegalCommand _ => none
    | .truncated => none
    | .endOfStream => none

/-- The bytes of the command a table word spells, without the padding its decoder does not consume. -/
def commandBytes (block : Bool) (nbits w : Nat) : List Byte :=
  match decode block (tableBytes nbits w) with
  | .command _ rest => (tableBytes nbits w).take ((tableBytes nbits w).length - rest.length)
  | .illegalCommand _ => bytesOfWord (nbits / 8) w
  | .truncated => bytesOfWord (nbits / 8) w
  | .endOfStream => []

end Sys2Proof
end

