-- ==== Sys2Proof/Machine/Operands.lean ====
section
/-!
DEFINITION. The operand forms: the selector of a voice (R220), the phase step of a pitch (R204), the metadata
record of a sample (R125, R126) with the start remap, effective rates and decay threshold key-on takes
from it (R240, R242, R243), and the code a nibble carries (R129, R275).
-/
namespace Sys2Proof.Machine

/-! ## Selectors (R220) -/

/-- A voice number, if the variant has that voice. -/
def inRange (vd : Variant) (v : Nat) : Option Nat := if v < vd.nVoices then some v else none

/-- `VoiceOf(s)` (R220). -/
def voiceOf (vd : Variant) (sel : Byte) : Option Nat :=
  match vd.selMap with
  | .skip8 =>
    if sel.toNat % 8 = 7 then none else inRange vd (7 * (sel.toNat / 8) + sel.toNat % 8)
  | .direct => inRange vd sel.toNat

/-! ## Pitch (R204) -/

/-- `T.FREQ[code]`. -/
def freqOf (t : Tables) (code : BitVec 10) : Nat := t.freq.getD code.toNat 0

/-- `StepOf(fn, oct)` (R204), `oct` read as two's complement (R116). -/
def stepOf (t : Tables) (fn : BitVec 10) (oct : BitVec 4) : Nat :=
  if 0 ≤ oct.toInt then freqOf t fn * 2 ^ oct.toInt.toNat
  else freqOf t fn / 2 ^ (-oct.toInt).toNat

/-! ## The metadata record (R125, R126) -/

/-- The fields of a metadata record (R125). -/
structure Metadata where
  codec : BitVec 3
  loop  : Bool
  start : Nat
  loopStart : Nat
  endPos : Nat
  ar  : BitVec 4
  d1r : BitVec 4
  dl  : BitVec 4
  d2r : BitVec 4
  krs : BitVec 4
  rr  : BitVec 4
deriving DecidableEq, Repr

/-- The metadata record of sample index `i`: byte `k` is `RomRead(VD.META_BASE + 12·i + k)` (R125).
Multi-byte fields are little-endian (R85); byte 0 bits 7..4 and byte 11 are ignored. -/
def metadataOf (s : State) (i : Nat) : Metadata :=
  let b (k : Nat) : Byte := romRead s (s.vd.metaBase + 12 * i + k)
  { codec := (b 0).extractLsb' 0 3
    loop := (b 0).getLsbD 3
    start := (b 3 ++ b 2 ++ b 1).toNat
    loopStart := (b 5 ++ b 4).toNat
    endPos := (b 7 ++ b 6).toNat
    ar := (b 8).extractLsb' 4 4
    d1r := (b 8).extractLsb' 0 4
    dl := (b 9).extractLsb' 4 4
    d2r := (b 9).extractLsb' 0 4
    krs := (b 10).extractLsb' 4 4
    rr := (b 10).extractLsb' 0 4 }

/-- `CodecOf` (R126); codes 6 and 7 are reserved. -/
def codecOf (code : BitVec 3) : Option Codec :=
  if code = 0 then some .pcm8
  else if code = 1 then some .pcm16
  else if code = 2 then some .pcm12
  else if code = 3 then some .adpcmA
  else if code = 4 then some .adpcmB
  else if code = 5 then some .adpcmC
  else none

/-- The codec of a record, if it is not reserved and the variant has it (R126, R239). -/
def playableCodec (vd : Variant) (code : BitVec 3) : Option Codec :=
  match codecOf code with
  | none => none
  | some c => if vd.codecs.contains (.voice c) then some c else none

/-- `BankRemap(a)` (R240). -/
def bankRemap (vd : Variant) (bank : Byte) (a : Nat) : Nat :=
  if vd.banked ∧ vd.bankThreshold ≤ a then
    bank.toNat * vd.bankThreshold + a % vd.bankThreshold
  else a

/-- The key-scaling term `ks` of R242. -/
def keyScale (krs : BitVec 4) (fn : BitVec 10) (oct : BitVec 4) : Int :=
  if krs = 15 then 0 else 2 * (oct.toInt + krs.toNat) + (fn.getLsbD 9).toNat

/-- `EffRate(R, krs, fn, oct)` (R242). -/
def effRate (r krs : BitVec 4) (fn : BitVec 10) (oct : BitVec 4) : Nat :=
  if r = 0 then 0
  else if r = 15 then 63
  else (clamp (4 * (r.toNat : Int) + keyScale krs fn oct) 4 63).toNat

/-- `DecayThreshold(DL)` (R243). -/
def decayThreshold (dl : BitVec 4) : Nat := (1023 - 64 * dl.toNat) * 2 ^ 16

/-! ## ADPCM codes (R129, R275) -/

/-- The dialect of an ADPCM codec; a linear codec has none (42_decode_engine.md, notation). -/
def dialectOf (vd : Variant) : Codec → Option Dialect
  | .adpcmA => some vd.dialectA
  | .adpcmB => some vd.dialectB
  | .adpcmC => some vd.dialectC
  | .pcm8   => none
  | .pcm16  => none
  | .pcm12  => none

/-- The dialect of the block stream, `VD.DIALECT[VD.SEQ_DIALECT]` (R338). -/
def seqDialect (vd : Variant) : Dialect := vd.dialect vd.seqDialect

/-- An ADPCM code: its sign and its magnitude code. -/
structure AdpcmCode where
  negative : Bool
  m        : Nat
deriving DecidableEq, Repr

/-- The code in a nibble (R129, R275): the low `CODE_BITS` bits, the top one the sign. -/
def adpcmCode (d : Dialect) (nib : BitVec 4) : AdpcmCode :=
  let c := nib.toNat % 2 ^ d.codeBits
  { negative := c / 2 ^ (d.codeBits - 1) == 1
    m := c % 2 ^ (d.codeBits - 1) }

/-- The nibble of a byte that unit `pos` is in, by `NIB_ORDER` and the parity of `pos` (R129). -/
def nibbleAt (d : Dialect) (byte : Byte) (pos : Nat) : BitVec 4 :=
  if (pos % 2 == 0) == (d.nibOrder == .highFirst) then byte.extractLsb' 4 4 else byte.extractLsb' 0 4

end Sys2Proof.Machine
end

