-- ==== Sys2Proof/Machine/HostOps.lean ====
section
/-!
DEFINITION. Host operations (46_host_misc.md): LOAD_ROM, RESET, READ_STATUS.
-/
namespace Sys2Proof.Machine

/-- LOAD_ROM (R400). -/
def execLoadRom (total offset length : U32) (data : List Byte) (s : State) : Out :=
  unlessFatal s <|
    State.returns
      { s with rom := s.rom.load s.vd.fill total.toNat offset.toNat length.toNat data } .void

/-- The globals RESET writes (R405). -/
def Globals.afterReset (g : Globals) : Globals :=
  { g with enable := true, bank := 0, frameL := 0, frameR := 0 }

/-- RESET (R405): every voice, the sequencer of a BLOCK descriptor, and four globals. -/
def resetCore (s : State) : State :=
  { s with
    voices := List.replicate s.vd.nVoices Voice.powerOn
    seq := if isBlock s.vd then Seq.powerOn else s.seq
    g := s.g.afterReset }

/-- RESET (R405). -/
def execReset (s : State) : Out := unlessFatal s ((resetCore s).returns .void)

/-- The status byte a selector reads (R410). -/
def statusOf (s : State) (sel : Byte) : Byte :=
  match voiceOf s.vd sel with
  | none => 0
  | some v => if isBlock s.vd then blockStatus (s.voice 0) s.seq else voiceStatus (s.voice v)

/-- READ_STATUS (R410). -/
def execReadStatus (sel : Byte) (s : State) : Out :=
  unlessFatal s (s.returns (.status (statusOf s sel)))

end Sys2Proof.Machine
end

