-- ==== Sys2Proof/Machine/Envelope.lean ====
section
/-!
DEFINITION. The Envelope / Volume Shaper (43_envelope.md): linear ramp, ADSR envelope, gain, pan/volume
lookup and voice output.
-/
namespace Sys2Proof.Machine

/-- Full scale of the ADSR level, `2^26 - 1` (R303). -/
def levelMax : Nat := 2 ^ 26 - 1

/-! ## Linear ramp (R300) -/

/-- `tl_tgt << 16` (R300). -/
def tlTarget (V : Voice) : Nat := V.tlTgt.toNat * 2 ^ 16

/-- `Ramp(v)` (R300). -/
def ramp (vd : Variant) (V : Voice) : Voice :=
  if V.tlCur < tlTarget V then { V with tlCur := min (V.tlCur + vd.rampFall) (tlTarget V) }
  else if tlTarget V < V.tlCur then { V with tlCur := max (V.tlCur - vd.rampRise) (tlTarget V) }
  else V

/-! ## ADSR (R304-R308) -/

/-- The increment of a non-degenerate rate code in an envelope table (R304). -/
def rateOf (t : List (Option Nat)) (e : Nat) : Nat := (t.getD e none).getD 0

/-- The level after one tick of attack (R305). -/
def attackLevel (s : State) (V : Voice) : Nat :=
  if degenerate s.vd V.eAR then levelMax else min (V.level + rateOf s.tables.atk V.eAR) levelMax

/-- `AttackStep(v)` (R305). -/
def attackStep (s : State) (V : Voice) : Voice :=
  { V with
    level := attackLevel s V
    stage := if attackLevel s V = levelMax then
               (if degenerate s.vd V.eD1 then .decay2 else .decay1)
             else V.stage }

/-- `Decay1Step(v)` (R306), the difference taken over the integers. R306's corner case says that with `DL = 0` the
stage lasts one tick, which its pseudocode gives only for an increment of 65535 or more; the pseudocode is
followed (log 22, DESIGN CHOICE). -/
def decay1Step (s : State) (V : Voice) : Voice :=
  let x : Int := (V.level : Int) - rateOf s.tables.dec V.eD1
  if x ≤ V.dlt then { V with level := V.dlt, stage := .decay2 } else { V with level := x.toNat }

/-- `Decay2Step(v)` (R307). -/
def decay2Step (s : State) (V : Voice) : Voice :=
  if degenerate s.vd V.eD2 then V
  else { V with level := V.level - rateOf s.tables.dec V.eD2 }

/-- `ReleaseStep(v)` (R308), the difference taken over the integers. -/
def releaseStep (s : State) (V : Voice) : Voice :=
  let x : Int := (V.level : Int) - rateOf s.tables.dec V.eRR
  if x ≤ 0 then Voice.deactivate { V with level := 0 } else { V with level := x.toNat }

/-- `Envelope(v)` (R304): at most one stage transition a tick. -/
def envelope (s : State) (V : Voice) : Voice :=
  match V.stage with
  | .attack  => attackStep s V
  | .decay1  => decay1Step s V
  | .decay2  => decay2Step s V
  | .release => releaseStep s V
  | .idle    => V

/-- The amplitude stage of a voice still active after its decode step (R381): ramp, then ADSR, as the
descriptor has them (R11). -/
def shape (s : State) (V : Voice) : Voice :=
  match s.vd.env with
  | .ramp     => ramp s.vd V
  | .adsrRamp => envelope s (ramp s.vd V)
  | .none     => V

/-! ## Voice output (R310-R312) -/

/-- `Gain(v)` (R310), a Q12 value: the exponential table on an ADSR descriptor, else unity. -/
def gain (vd : Variant) (V : Voice) : Nat :=
  match vd.env with
  | .adsrRamp => vd.exp.getD (V.level / 2 ^ 16) 0
  | .ramp     => 4096
  | .none     => 4096

/-- The pan/volume entry (R311). -/
def panVolOf (vd : Variant) (V : Voice) : Nat × Nat :=
  (vd.panVol.getD (V.tlCur / 2 ^ 16) []).getD V.pan.toNat (0, 0)

/-- `VoiceOutput(v, s)` (R312), `x` the voice sample. -/
def voiceOutput (vd : Variant) (V : Voice) (x : Int) : Voice :=
  if V.active then
    { V with
      outL := asr (asr (x * gain vd V) 12 * (panVolOf vd V).1) 12
      outR := if vd.stereo then asr (asr (x * gain vd V) 12 * (panVolOf vd V).2) 12 else 0 }
  else { V with outL := 0, outR := 0 }

end Sys2Proof.Machine
end

