-- ==== Sys2Proof/Machine/Waveform.lean ====
section
/-!
DEFINITION. The Waveform Decode Engine (42_decode_engine.md): phase accumulation, unit fetch with end, loop
and snapshot, the codecs, and interpolation. A voice is advanced against the state's ROM and descriptor,
which it only reads.
-/
namespace Sys2Proof.Machine

/-! ## Codecs (R270-R279) -/

/-- PCM8 (R270): `sext_8(RomRead(start + p)) << 8`. -/
def pcm8Unit (s : State) (start p : Nat) : Int := (romRead s (start + p)).toInt * 2 ^ 8

/-- PCM16 (R271): `sext_16(RomRead16(start + 2·p))`. -/
def pcm16Unit (s : State) (start p : Nat) : Int := (romRead16 s (start + 2 * p)).toInt

/-- The 12-bit sample of unit `p` in its super-frame (R128, R272). -/
def pcm12Bits (s : State) (start p : Nat) : BitVec 12 :=
  let f := start + 6 * (p / 4)
  if p % 4 = 0 then (romRead s (f + 1)).extractLsb' 0 4 ++ romRead s f
  else if p % 4 = 1 then romRead s (f + 2) ++ (romRead s (f + 1)).extractLsb' 4 4
  else if p % 4 = 2 then (romRead s (f + 4)).extractLsb' 0 4 ++ romRead s (f + 3)
  else romRead s (f + 5) ++ (romRead s (f + 4)).extractLsb' 4 4

/-- PCM12 (R272): `sext_12(s) << 4`. -/
def pcm12Unit (s : State) (start p : Nat) : Int := (pcm12Bits s start p).toInt * 2 ^ 4

/-- `Magnitude` (R276), with the step index before its update. -/
def adpcmMagnitude (d : Dialect) (sidx m : Nat) : Nat :=
  match d.magMode with
  | .table => (d.diff.getD sidx []).getD m 0
  | .direct => d.direct.getD m 0

/-- Feedback damping of the accumulator (R277). -/
def adpcmDamp (d : Dialect) (acc : Int) : Int :=
  match d.dampShift with
  | none => acc
  | some k => acc - asr acc k

/-- `AdpcmAccumulate` (R277). -/
def adpcmAccumulate (d : Dialect) (acc : Int) (negative : Bool) (mag : Nat) : Int :=
  clamp (if negative then adpcmDamp d acc - mag else adpcmDamp d acc + mag) d.accMin d.accMax

/-- `AdpcmIndex` (R278). -/
def adpcmIndex (d : Dialect) (sidx m : Nat) : Nat :=
  (clamp ((sidx : Int) + d.adj.getD m 0) 0 d.idxMax).toNat

/-- The differential update of a voice by one nibble (R279, R338): accumulator and step index. -/
def Voice.adpcmStep (V : Voice) (d : Dialect) (nib : BitVec 4) : Voice :=
  let c := adpcmCode d nib
  { V with
    acc := adpcmAccumulate d V.acc c.negative (adpcmMagnitude d V.sidx c.m)
    sidx := adpcmIndex d V.sidx c.m }

/-- The accumulator on the 16-bit scale: `clamp16(acc << NORM)` (R279, R339). -/
def adpcmOutput (d : Dialect) (acc : Int) : Int := clamp16 (acc * 2 ^ d.norm)

/-- The nibble of unit `pos` of an ADPCM voice (R275). -/
def adpcmNibble (s : State) (d : Dialect) (V : Voice) : BitVec 4 :=
  nibbleAt d (romRead s (V.start + V.pos / 2)) V.pos

/-- `V.prev <- V.cur; V.cur <- x; V.pos <- V.pos + 1` (R264). -/
def Voice.push (V : Voice) (x : Int) : Voice :=
  { V with prev := V.cur, cur := x, pos := V.pos + 1 }

/-- An ADPCM unit is decoded and pushed (R279, R264). -/
def adpcmUnit (s : State) (d : Dialect) (V : Voice) : Voice :=
  let V' := V.adpcmStep d (adpcmNibble s d V)
  V'.push (adpcmOutput d V'.acc)

/-- Decode the unit at `pos` and push it (the last lines of R264, R270-R279). -/
def decodeUnit (s : State) (V : Voice) : Voice :=
  match V.codec with
  | .pcm8   => V.push (pcm8Unit s V.start V.pos)
  | .pcm16  => V.push (pcm16Unit s V.start V.pos)
  | .pcm12  => V.push (pcm12Unit s V.start V.pos)
  | .adpcmA => adpcmUnit s s.vd.dialectA V
  | .adpcmB => adpcmUnit s s.vd.dialectB V
  | .adpcmC => adpcmUnit s s.vd.dialectC V

/-! ## Fetching a unit (R264, R265, R281) -/

/-- Whether a voice at its end wraps to its loop start (R264, R265). -/
def Voice.wraps (V : Voice) : Bool := V.loopEn && V.keyed && decide (V.loopStart < V.endPos)

/-- Restore the snapshot at a wrap, for an ADPCM dialect with LOOP_RESTORE (R264, R281). -/
def restoreSnapshot (vd : Variant) (V : Voice) : Voice :=
  match dialectOf vd V.codec with
  | none => V
  | some d =>
    if d.loopRestore && V.snapValid then { V with acc := V.snapAcc, sidx := V.snapIdx } else V

/-- The wrap to the loop start (R264). -/
def Voice.wrap (vd : Variant) (V : Voice) : Voice :=
  restoreSnapshot vd { V with pos := V.loopStart }

/-- Take the snapshot before the first decode of the loop-start unit (R264, R281). -/
def takeSnapshot (vd : Variant) (V : Voice) : Voice :=
  if (dialectOf vd V.codec).isSome && V.loopEn && V.pos == V.loopStart && !V.snapValid then
    { V with snapAcc := V.acc, snapIdx := V.sidx, snapValid := true }
  else V

/-- `FetchUnit(v)` (R264). -/
def fetchUnit (s : State) (V : Voice) : Voice :=
  if V.endPos ≤ V.pos then
    if V.wraps then decodeUnit s (takeSnapshot s.vd (V.wrap s.vd)) else V.deactivate
  else decodeUnit s (takeSnapshot s.vd V)

/-- `repeat n times: FetchUnit(v); if V.active == 0: return` (R261). -/
def fetchUnits (s : State) : Nat → Voice → Voice
  | 0, V => V
  | n + 1, V =>
    if (fetchUnit s V).active then fetchUnits s n (fetchUnit s V) else fetchUnit s V

/-- `AdvanceVoice(v)` (R261). -/
def advanceVoice (s : State) (V : Voice) : Voice :=
  fetchUnits s ((V.phase + V.step) / 4096) { V with phase := (V.phase + V.step) % 4096 }

/-- `VoiceSample(v)` (R285). -/
def voiceSample (V : Voice) : Int :=
  if V.step % 4096 = 0 then V.cur else V.prev + asr ((V.cur - V.prev) * V.phase) 12

end Sys2Proof.Machine
end

