-- ==== Sys2Proof/Machine/Sequencer.lean ====
section
/-!
DEFINITION. The Sequencing State Machine of the block-structured variant (44_sequencer.md): the register
writes of the BLOCK voice, the FSM's states, and the meanings of the five block headers.
-/
namespace Sys2Proof.Machine

/-- `voice[0]`, the BLOCK voice (R41). -/
def State.v0 (s : State) : Voice := s.voice 0

/-- Replace the BLOCK voice. -/
def State.setV0 (s : State) (V : Voice) : State := s.setVoice 0 V

/-! ## Start and stop (R332) -/

/-- `SeqStart()` (R332): restart from any state; the cursor, pointer and latch keep their values. -/
def seqStart (s : State) : State :=
  State.setV0
    { s with
      seq := { s.seq with
        st := .start, cd := s.vd.latStart, drq := false, silent := false, lbValid := false
        repActive := false, repCount := 0, nibLeft := 0, period := 1 } }
    { s.v0 with acc := 0, sidx := 0, err := 0, outL := 0, active := true, keyed := true }

/-- `SeqStop()` (R332). -/
def seqStop (s : State) : State :=
  State.setV0
    { s with seq := { s.seq with st := .idle, cd := 0, drq := false, silent := false } }
    { s.v0 with active := false, keyed := false, outL := 0 }

/-- `SeqWrite(a, d)` (R331). -/
def seqWrite (sub data : Byte) (s : State) : State :=
  if sub = 0 then { s with seq := { s.seq with idxReg := data } }
  else if sub = 1 then (if data.getLsbD 0 then seqStart s else seqStop s)
  else s

/-! ## The handshake (R334, R336) -/

/-- `Req(next, c)` (R334): raise DRQ and enter the request-drop state. -/
def req (next : SeqState) (c : Nat) (s : State) : State :=
  { s with
    seq := { s.seq with drq := true, ret := next, retCd := c, st := .dropDRQ, cd := s.vd.latDrop } }

/-- The byte `Rd()` reads (44_sequencer.md, notation). -/
def rdByte (s : State) : Byte := romRead s s.seq.cursor

/-- The cursor after `Rd()`. -/
def rdNext (s : State) : State := { s with seq := { s.seq with cursor := s.seq.cursor + 1 } }

/-- `SeqNibble(x)` (R338). -/
def seqNibble (x : BitVec 4) (s : State) : State :=
  s.setV0 (s.v0.adpcmStep (seqDialect s.vd) x)

/-! ## Block headers (R346, R350-R355) -/

/-- `RepeatError()` (R355): Idle at once, DRQ lowered, ProtocolError recorded. -/
def repeatError (s : State) : State :=
  State.setV0
    { s with seq := { s.seq with st := .idle, cd := 0, drq := false, silent := false } }
    s.v0.recordProtocolError

/-- `HdrEnd()` (R350). -/
def hdrEnd (s : State) : State := req .idle 0 s

/-- `HdrSilence(addr, a)` (R351). -/
def hdrSilence (addr : Nat) (a : BitVec 6) (s : State) : State :=
  req .blockHeader ((a.toNat + 1) * s.vd.seqSilenceUnit - 1)
    { s with seq := { s.seq with lbValid := true, lbAddr := addr, silent := true } }

/-- `HdrFixed(addr, a)` (R352). -/
def hdrFixed (addr : Nat) (a : BitVec 6) (s : State) : State :=
  req .nibbleMSN 0
    { s with
      seq := { s.seq with
        lbValid := true, lbAddr := addr, silent := false, nibLeft := s.vd.seqFixedNibbles
        period := (a.toNat + 1) * s.vd.seqRateUnit } }

/-- `HdrCounted(addr, a)` (R353). -/
def hdrCounted (addr : Nat) (a : BitVec 6) (s : State) : State :=
  req .nibbleCount 0
    { s with
      seq := { s.seq with
        lbValid := true, lbAddr := addr, silent := false
        period := (a.toNat + 1) * s.vd.seqRateUnit } }

/-- The first encounter of a marker sets its count (R354). -/
def enterRepeat (addr : Nat) (a : BitVec 6) (q : Seq) : Seq :=
  if q.repActive = false ∨ q.repAddr ≠ addr then
    { q with repActive := true, repAddr := addr, repCount := a.toNat + 1 }
  else q

/-- Loop back to the preceding block, or advance past the marker (R354). -/
def loopOrAdvance (q : Seq) : Seq :=
  if 0 < q.repCount then { q with repCount := q.repCount - 1, cursor := q.lbAddr }
  else { q with repActive := false, lbValid := false }

/-- `HdrRepeat(addr, a)` (R354). -/
def hdrRepeat (addr : Nat) (a : BitVec 6) (s : State) : State :=
  if s.seq.lbValid then
    req .blockHeader 0 { s with seq := loopOrAdvance (enterRepeat addr a s.seq) }
  else repeatError s

/-- The header's own action, `addr` the address it was read at (R346). -/
def headerAction (addr : Nat) (h : Header) (s : State) : State :=
  match h with
  | .stop       => hdrEnd s
  | .silence a  => hdrSilence addr a s
  | .fixed a    => hdrFixed addr a s
  | .counted a  => hdrCounted addr a s
  | .loopBack a => hdrRepeat addr a s

/-- The BlockHeader action for a header read at the cursor (R346): the cursor passes the header byte, then
the header acts. -/
def readHeader (h : Header) (s : State) : State := headerAction s.seq.cursor h (rdNext s)

/-! ## States (R336, R340-R346, R356-R358) -/

/-- DropDRQ (R336). -/
def dropDRQ (s : State) : State :=
  { s with seq := { s.seq with drq := false, st := s.seq.ret, cd := s.seq.retCd } }

/-- Enter a state with a countdown, reading nothing. -/
def goto (st : SeqState) (cd : Nat) (s : State) : State :=
  { s with seq := { s.seq with st := st, cd := cd } }

/-- Start (R340). -/
def startAct (s : State) : State :=
  goto .addr1 s.vd.latAddr
    { s with seq := { s.seq with cursor := s.vd.seqTableBase + 2 * s.seq.idxReg.toNat } }

/-- Addr1 (R342). -/
def addr1Act (s : State) : State :=
  req .addr2 s.vd.latAddr
    { rdNext s with seq := { (rdNext s).seq with ptrHi := rdByte s } }

/-- The stream address of a pointer (R130, R343). -/
def pointerAddr (s : State) : Nat := (s.seq.ptrHi ++ rdByte s).toNat * s.vd.seqPtrScale

/-- The malformed pointer's way out (R343). -/
def pointerError (s : State) : State :=
  State.setV0 { s with seq := { s.seq with st := .idle, cd := 0, drq := false } }
    s.v0.recordProtocolError

/-- Addr2 with its sanity check (R343). -/
def addr2Act (s : State) : State :=
  if s.rom.len ≤ pointerAddr s then pointerError (rdNext s)
  else req .dummy1 s.vd.latDummy { s with seq := { s.seq with cursor := pointerAddr s } }

/-- NibbleCount (R356). -/
def nibbleCountAct (s : State) : State :=
  req .nibbleMSN 0
    { rdNext s with seq := { (rdNext s).seq with nibLeft := (rdByte s).toNat + 1 } }

/-- `S.nib_left <- S.nib_left - 1` (R357, R358). -/
def countNibble (s : State) : State :=
  { s with seq := { s.seq with nibLeft := s.seq.nibLeft - 1 } }

/-- NibbleMSN (R357). -/
def nibbleMSNAct (s : State) : State :=
  let t := countNibble (seqNibble ((rdByte s).extractLsb' 4 4)
    { rdNext s with seq := { (rdNext s).seq with latch := rdByte s } })
  req (if t.seq.nibLeft = 0 then .blockHeader else .nibbleLSN) (t.seq.period - 1) t

/-- NibbleLSN (R358). -/
def nibbleLSNAct (s : State) : State :=
  let t := countNibble (seqNibble (s.seq.latch.extractLsb' 0 4) s)
  goto (if t.seq.nibLeft = 0 then .blockHeader else .nibbleMSN) (t.seq.period - 1) t

/-- `SeqAct()`: the action of the current state (R333). -/
def seqAct (s : State) : State :=
  match s.seq.st with
  | .idle        => s
  | .start       => startAct s
  | .addr1       => addr1Act s
  | .addr2       => addr2Act s
  | .dummy1      => goto .dummy2 s.vd.latDummy s
  | .dummy2      => goto .blockHeader s.vd.latHdr s
  | .blockHeader => readHeader (decodeHeader (rdByte s)) s
  | .nibbleCount => nibbleCountAct s
  | .nibbleMSN   => nibbleMSNAct s
  | .nibbleLSN   => nibbleLSNAct s
  | .dropDRQ     => dropDRQ s

/-! ## One tick (R333, R339) -/

/-- `SeqOutput()` (R339). -/
def seqOutput (s : State) : Int :=
  if seqRunning s.seq && !s.seq.silent then adpcmOutput (seqDialect s.vd) s.v0.acc else 0

/-- Count down, or act (R333). -/
def seqAdvance (s : State) : State :=
  if s.seq.st = .idle then s
  else if 0 < s.seq.cd then { s with seq := { s.seq with cd := s.seq.cd - 1 } }
  else seqAct s

/-- The status bits and the output of the BLOCK voice after its tick (R333). -/
def seqPublish (s : State) : State :=
  s.setV0 { s.v0 with
    active := seqRunning s.seq, keyed := seqRunning s.seq, outL := seqOutput s, outR := 0 }

/-- `SeqTick()` (R333). -/
def seqTick (s : State) : State := seqPublish (seqAdvance s)

/-! ## Meanings of the block headers

A header is executed by the BlockHeader state within a TICK (R346); its meaning is that state's action
for it. On a descriptor without BLOCK there is no sequencer and no header is ever read (R330, log 7). -/

/-- The BlockHeader action for a given header, on a BLOCK descriptor. -/
def runHeader (h : Header) (s : State) : Out :=
  if isBlock s.vd then .next (readHeader h s) else .refused .noSequencer

/-- END (R350). -/
def execHdrEnd (s : State) : Out := runHeader .stop s

/-- SILENCE a (R351). -/
def execHdrSilence (a : BitVec 6) (s : State) : Out := runHeader (.silence a) s

/-- FIXED a (R352). -/
def execHdrFixed (a : BitVec 6) (s : State) : Out := runHeader (.fixed a) s

/-- COUNTED a (R353); the count byte is read by the NibbleCount state (R356). -/
def execHdrCounted (a : BitVec 6) (s : State) : Out := runHeader (.counted a) s

/-- REPEAT a (R354). -/
def execHdrRepeat (a : BitVec 6) (s : State) : Out := runHeader (.loopBack a) s

end Sys2Proof.Machine
end

