-- ==== Sys2Proof/Machine/Mixer.lean ====
section
/-!
DEFINITION. The mixer and the tick (45_mixer_tick.md): TICK and READ_FRAME.
-/
namespace Sys2Proof.Machine

/-- `VoiceTick(v)` (R381), for an active voice of a non-BLOCK descriptor. -/
def voiceTick (s : State) (V : Voice) : Voice :=
  if (advanceVoice s V).active then
    voiceOutput s.vd (shape s (advanceVoice s V)) (voiceSample (advanceVoice s V))
  else voiceOutput s.vd (advanceVoice s V) 0

/-- The voice loop of TICK (R380): every active voice is ticked, an inactive one is left as it is. No voice
reads another, so the index order is no observable (R387). -/
def tickVoices (s : State) : State :=
  { s with voices := s.voices.map fun V => if V.active then voiceTick s V else V }

/-- `L - (L mod 2^k)` with `mod ≥ 0` (R383). -/
def maskLow (k : Nat) (x : Int) : Int := x - x % 2 ^ k

/-- The sum of the active voices' clamped outputs (R382), `out` the side taken. -/
def mixSum (voices : List Voice) (out : Voice → Int) : Int :=
  ((voices.filter fun V => V.active).map fun V => clamp16 (out V)).sum

/-- `Mix()` (R382-R385). -/
def mix (s : State) : State :=
  { s with
    g := { s.g with
      frameL := if s.g.enable then maskLow s.vd.outMaskBits (mixSum s.voices fun V => V.outL) else 0
      frameR := if s.g.enable ∧ s.vd.stereo then
                  maskLow s.vd.outMaskBits (mixSum s.voices fun V => V.outR)
                else 0 } }

/-- The state after TICK's work (R380). -/
def ticked (s : State) : State :=
  mix (if isBlock s.vd then seqTick s else tickVoices s)

/-- TICK (R380). -/
def execTick (s : State) : Out := unlessFatal s (ifConfigured s ((ticked s).returns .void))

/-- READ_FRAME (R386). -/
def execReadFrame (s : State) : Out :=
  unlessFatal s <|
    s.returns (if s.vd.stereo then .frameStereo s.g.frameL s.g.frameR else .frameMono s.g.frameL)

end Sys2Proof.Machine
end

