-- ==== Sys2Proof/Machine/Precompute.lean ====
section
/-!
DEFINITION. The Table Precomputer (40_table_precomputer.md): the rate-dependent tables and CONFIGURE.
-/
namespace Sys2Proof.Machine

/-- `floor(clock / VD.DIVISOR)` (R202). -/
def sampleRateOf (vd : Variant) (clock : U32) : Nat := clock.toNat / vd.divisor

/-- `BuildFreq(rate)[code]` (R203). -/
def freqEntry (vd : Variant) (rate code : Nat) : Nat :=
  (1024 + code) * rate * 4096 * vd.pitchRef.den / (1024 * vd.pitchRef.num)

/-- `BuildFreq(rate)` (R203). -/
def buildFreq (vd : Variant) (rate : Nat) : List Nat :=
  (List.range 1024).map (freqEntry vd rate)

/-- The level increment of a full swing of `ms` milliseconds, at least 1 (R205, R206). R42 gives the entries the
width u32, which the formula exceeds for a small product of base time and rate, and no rule says what is
stored then; the exact value is kept (log 21, DESIGN CHOICE). -/
def swingEntry (ms : Ratio) (rate : Nat) : Nat :=
  max 1 (1024 * 2 ^ 16 * 1000 * ms.den / (ms.num * rate))

/-- `BuildAtk(rate)` (R205). -/
def buildAtk (vd : Variant) (rate : Nat) : List (Option Nat) :=
  (List.range 64).map fun r => (vd.base.getD r none).map fun ms => swingEntry ms rate

/-- `BuildDec(rate)` (R206): the swing time is `BASE[r]·RATIO`. -/
def buildDec (vd : Variant) (rate : Nat) : List (Option Nat) :=
  (List.range 64).map fun r => (vd.base.getD r none).map fun ms =>
    swingEntry ⟨ms.num * vd.ratio.num, ms.den * vd.ratio.den⟩ rate

/-- The tables of a rate (R200): the envelope tables only on an ADSR variant, elsewhere they stay as they
are (absent). -/
def buildTables (vd : Variant) (rate : Nat) (old : Tables) : Tables :=
  { freq := buildFreq vd rate
    atk := if vd.env = .adsrRamp then buildAtk vd rate else old.atk
    dec := if vd.env = .adsrRamp then buildDec vd rate else old.dec }

/-- Whether a rate is zero or invalid (R200, R201). -/
def rateRejected (vd : Variant) (rate : Nat) : Bool :=
  rate == 0 || decide (2 ^ 24 ≤ freqEntry vd rate 1023)

/-- The state of a successful CONFIGURE (R200): no voice field is written (R208). -/
def configured (s : State) (rate : Nat) : State :=
  { s with
    g := { s.g with sampleRate := rate, configured := true }
    tables := buildTables s.vd rate s.tables }

/-- CONFIGURE (R200). -/
def execConfigure (clock : U32) (s : State) : Out :=
  unlessFatal s <|
    if rateRejected s.vd (sampleRateOf s.vd clock) then raiseConfigurationError clock s
    else (configured s (sampleRateOf s.vd clock)).returns (.rate (sampleRateOf s.vd clock))

end Sys2Proof.Machine
end

