-- ==== Sys2Proof/Machine/Register.lean ====
section
/-!
DEFINITION. The Voice Register Decoder (41_register_decoder.md): WRITE and WRITE_GLOBAL, the voice registers,
key-on and key-off, the global registers. A register row of the opcode table is a WRITE or WRITE_GLOBAL
with that sub_address and data byte (R115, R117, R119), so its meaning is that write (log 6).
-/
namespace Sys2Proof.Machine

/-! ## Voice registers (R225-R232) -/

/-- PAN (R225). -/
def panWrite (V : Voice) (d : Byte) : Voice := { V with pan := d.extractLsb' 4 4 }

/-- SMPL (R226): `sample[7:0] <- d`. -/
def smplWrite (V : Voice) (d : Byte) : Voice :=
  { V with sample := V.sample.extractLsb' 8 1 ++ d }

/-- The fields PITCHL writes (R227): `fn[5:0] <- d[7:2]`, `sample[8] <- d[0]`. -/
def pitchLFields (V : Voice) (d : Byte) : Voice :=
  { V with
    fn := V.fn.extractLsb' 6 4 ++ d.extractLsb' 2 6
    sample := d.extractLsb' 0 1 ++ V.sample.extractLsb' 0 8 }

/-- The fields PITCHH writes (R228): `oct <- sext_4(d[7:4])`, `fn[9:6] <- d[3:0]`. -/
def pitchHFields (V : Voice) (d : Byte) : Voice :=
  { V with
    oct := d.extractLsb' 4 4
    fn := d.extractLsb' 0 4 ++ V.fn.extractLsb' 0 6 }

/-- `voice[v].step <- StepOf(fn, oct)` (R204, R227, R228). -/
def Voice.retune (V : Voice) (t : Tables) : Voice := { V with step := stepOf t V.fn V.oct }

/-- TL (R231): the target, and with bit 0 set the current level too. -/
def tlWrite (V : Voice) (d : Byte) : Voice :=
  { V with
    tlTgt := d.extractLsb' 1 7
    tlCur := if d.getLsbD 0 then (d.extractLsb' 1 7).toNat * 2 ^ 16 else V.tlCur }

/-- LFO (R232): stored, read by no rule. -/
def lfoWrite (V : Voice) (d : Byte) : Voice := { V with lfo := d }

/-- AM (R232): stored, read by no rule. -/
def amWrite (V : Voice) (d : Byte) : Voice := { V with am := d }

/-! ## Key-on and key-off (R238, R239, R241) -/

/-- Key-on of a record with a reserved or unsupported codec (R239). -/
def rejectKeyOn (V : Voice) : Voice :=
  (Voice.deactivate { V with err := 0, keyed := true }).recordProtocolError

/-- The cursor, phase, decode state, step and level of a key-on (R238). -/
def startPlayback (s : State) (m : Metadata) (c : Codec) (V : Voice) : Voice :=
  { V with
    err := 0, keyed := true, codec := c, loopEn := m.loop
    start := bankRemap s.vd s.g.bank m.start
    loopStart := m.loopStart, endPos := m.endPos
    pos := 0, phase := 0, prev := 0, cur := 0, acc := 0, sidx := 0
    snapValid := false, snapAcc := 0, snapIdx := 0
    step := stepOf s.tables V.fn V.oct
    tlCur := V.tlTgt.toNat * 2 ^ 16
    active := true }

/-- The envelope of a key-on, on an ADSR descriptor (R238). -/
def startEnvelope (m : Metadata) (V : Voice) : Voice :=
  { V with
    eAR := effRate m.ar m.krs V.fn V.oct
    eD1 := effRate m.d1r m.krs V.fn V.oct
    eD2 := effRate m.d2r m.krs V.fn V.oct
    eRR := effRate m.rr m.krs V.fn V.oct
    dlt := decayThreshold m.dl
    level := 0
    stage := .attack }

/-- The voice after a key-on (R238). -/
def keyedVoice (s : State) (V : Voice) : Voice :=
  let m := metadataOf s V.sample.toNat
  match playableCodec s.vd m.codec with
  | none => rejectKeyOn V
  | some c =>
    if s.vd.env = .adsrRamp then startEnvelope m (startPlayback s m c V)
    else startPlayback s m c V

/-- The voice after a key-off (R241). -/
def keyedOffVoice (vd : Variant) (V : Voice) : Voice :=
  if V.active then
    if vd.env = .adsrRamp ∧ degenerate vd V.eRR = false then
      { V with keyed := false, stage := .release }
    else Voice.deactivate { V with keyed := false }
  else { V with keyed := false }

/-! ## WRITE (R221) -/

/-- Replace voice `v` and return. -/
def putVoice (s : State) (v : Nat) (V : Voice) : Out := (s.setVoice v V).returns .void

/-- A write to register `sub` of voice `v` of a non-BLOCK descriptor (R221, R225-R233, R238, R241). -/
def voiceWrite (v : Nat) (sub d : Byte) (s : State) : Out :=
  let V := s.voice v
  if sub = 0 then putVoice s v (panWrite V d)
  else if sub = 1 then putVoice s v (smplWrite V d)
  else if sub = 2 then ifConfigured s (putVoice s v ((pitchLFields V d).retune s.tables))
  else if sub = 3 then ifConfigured s (putVoice s v ((pitchHFields V d).retune s.tables))
  else if sub = 4 then
    (if d.getLsbD 7 then ifConfigured s (putVoice s v (keyedVoice s V))
     else putVoice s v (keyedOffVoice s.vd V))
  else if sub = 5 then putVoice s v (tlWrite V d)
  else if sub = 6 then putVoice s v (lfoWrite V d)
  else if sub = 7 then putVoice s v (amWrite V d)
  else s.returns .void

/-- `WRITE(s, a, d)` (R221): a selector that reaches no voice drops the write. -/
def writeRegister (sel sub d : Byte) (s : State) : Out :=
  unlessFatal s <|
    match voiceOf s.vd sel with
    | none => s.returns .void
    | some v =>
      if isBlock s.vd then (seqWrite sub d s).returns .void else voiceWrite v sub d s

/-! ## WRITE_GLOBAL (R235-R237) -/

/-- `WRITE_GLOBAL(r, d)` (R235). -/
def writeGlobalRegister (reg d : Byte) (s : State) : Out :=
  unlessFatal s <|
    if reg = 0 then State.returns { s with g := { s.g with enable := d.getLsbD 0 } } .void
    else if reg = 1 then State.returns { s with g := { s.g with bank := d } } .void
    else s.returns .void

/-! ## Meanings -/

/-- WRITE (R221). -/
def execWrite (sel sub data : Byte) (s : State) : Out := writeRegister sel sub data s

/-- WRITE_GLOBAL (R235). -/
def execWriteGlobal (reg data : Byte) (s : State) : Out := writeGlobalRegister reg data s

/-- PAN (R225). -/
def execPan (sel : Byte) (pan : BitVec 4) (s : State) : Out := writeRegister sel 0 (panByte pan) s

/-- SMPL (R226). -/
def execSmpl (sel low : Byte) (s : State) : Out := writeRegister sel 1 low s

/-- PITCHL (R227). -/
def execPitchL (sel : Byte) (fnLow : BitVec 6) (sampleHigh : BitVec 1) (s : State) : Out :=
  writeRegister sel 2 (pitchLByte fnLow sampleHigh) s

/-- PITCHH (R228). -/
def execPitchH (sel : Byte) (oct fnHigh : BitVec 4) (s : State) : Out :=
  writeRegister sel 3 (pitchHByte oct fnHigh) s

/-- KEYON (R230, R238). -/
def execKeyOn (sel : Byte) (s : State) : Out := writeRegister sel 4 0x80 s

/-- KEYOFF (R230, R241). -/
def execKeyOff (sel : Byte) (s : State) : Out := writeRegister sel 4 0x00 s

/-- TL (R231). -/
def execTl (sel : Byte) (level : BitVec 7) (ld : BitVec 1) (s : State) : Out :=
  writeRegister sel 5 (tlByte level ld) s

/-- LFO (R232). -/
def execLfo (sel data : Byte) (s : State) : Out := writeRegister sel 6 data s

/-- AM (R232). -/
def execAm (sel data : Byte) (s : State) : Out := writeRegister sel 7 data s

/-- ENABLE (R236). -/
def execEnable (en : BitVec 1) (s : State) : Out := writeGlobalRegister 0 (bitByte en) s

/-- BANK (R237). -/
def execBank (bank : Byte) (s : State) : Out := writeGlobalRegister 1 bank s

/-- SEQ_INDEX (R331). -/
def execSeqIndex (index : Byte) (s : State) : Out := writeRegister 0 0 index s

/-- SEQ_START (R332). -/
def execSeqStart (s : State) : Out := writeRegister 0 1 0x01 s

/-- SEQ_STOP (R332). -/
def execSeqStop (s : State) : Out := writeRegister 0 1 0x00 s

end Sys2Proof.Machine
end

