-- ==== Sys2Proof/Machine/Dispatch.lean ====
section
/-!
DEFINITION. One arm per instruction.
-/
namespace Sys2Proof.Machine

def exec (i : Instr) (s : State) : Host.Outcome State Fault Refusal :=
  match i with
  | .write sel sub data => Sys2Proof.Machine.execWrite sel sub data s
  | .writeGlobal reg data => Sys2Proof.Machine.execWriteGlobal reg data s
  | .configure clock => Sys2Proof.Machine.execConfigure clock s
  | .loadRom total offset length data => Sys2Proof.Machine.execLoadRom total offset length data s
  | .tick => Sys2Proof.Machine.execTick s
  | .readFrame => Sys2Proof.Machine.execReadFrame s
  | .reset => Sys2Proof.Machine.execReset s
  | .readStatus sel => Sys2Proof.Machine.execReadStatus sel s
  | .pan sel p => Sys2Proof.Machine.execPan sel p s
  | .smpl sel low => Sys2Proof.Machine.execSmpl sel low s
  | .pitchL sel fnLow sampleHigh => Sys2Proof.Machine.execPitchL sel fnLow sampleHigh s
  | .pitchH sel oct fnHigh => Sys2Proof.Machine.execPitchH sel oct fnHigh s
  | .keyOn sel => Sys2Proof.Machine.execKeyOn sel s
  | .keyOff sel => Sys2Proof.Machine.execKeyOff sel s
  | .tl sel level ld => Sys2Proof.Machine.execTl sel level ld s
  | .lfo sel data => Sys2Proof.Machine.execLfo sel data s
  | .am sel data => Sys2Proof.Machine.execAm sel data s
  | .enable en => Sys2Proof.Machine.execEnable en s
  | .bank b => Sys2Proof.Machine.execBank b s
  | .seqIndex index => Sys2Proof.Machine.execSeqIndex index s
  | .seqStart => Sys2Proof.Machine.execSeqStart s
  | .seqStop => Sys2Proof.Machine.execSeqStop s
  | .hdrEnd => Sys2Proof.Machine.execHdrEnd s
  | .hdrSilence a => Sys2Proof.Machine.execHdrSilence a s
  | .hdrFixed a => Sys2Proof.Machine.execHdrFixed a s
  | .hdrCounted a => Sys2Proof.Machine.execHdrCounted a s
  | .hdrRepeat a => Sys2Proof.Machine.execHdrRepeat a s

end Sys2Proof.Machine
end

