-- ==== Sys2Proof/Machine/Fetch.lean ====
section
/-!
DEFINITION. Where the next instruction stands, for the host's questions about table words (log 15): a host command
at the front of the command stream; a block header at the sequencer's cursor, with the FSM about to act in
BlockHeader and a TICK as the pending command.
-/
namespace Sys2Proof.Machine

/-- The image with byte `h` at address `a`, made longer if `a` is beyond it. -/
def placeByte (fill : Byte) (m : Memory) (a : Nat) (h : Byte) : Memory :=
  if a < m.len then m.write fill a h else (m.resize (a + 1)).write fill a h

/-- The state turned to a BLOCK descriptor, if it has none: the spec's test descriptor BT with its one
voice (log 15). -/
def onBlock (s : State) : State :=
  if isBlock s.vd then s
  else { s with vd := Config.testBlock, voices := [Voice.powerOn], rom := Memory.powerOn }

/-- The state in which the next step is a TICK whose sequencer action reads the header byte `h`. -/
def withHeader (s : State) (h : Byte) : State :=
  { onBlock s with
    g := { s.g with configured := true, fatal := false }
    rom := placeByte (onBlock s).vd.fill (onBlock s).rom s.seq.cursor h
    seq := { s.seq with st := .blockHeader, cd := 0 }
    input := [0x05] }

/-- The state whose next command is the one a table word spells. -/
def withCommand (s : State) (nbits w : Nat) : State :=
  { s with input := commandBytes (isBlock s.vd) nbits w }

/-- The state after the decoder has taken a command and left `rest`. -/
def State.consumed (s : State) (rest : List Byte) : State := { s with input := rest }

end Sys2Proof.Machine
end

