-- ==== Sys2Proof/Machine/Step.lean ====
section
/-!
DEFINITION. One step: the host's next command (R27, R92, R110-R113).
-/
namespace Sys2Proof.Machine

/-- One step executes the command at the front of the host's stream (R27, R110). A command the decoder cannot
read is a refusal (R112, R113, R506). With no command pending the core waits for the host: nothing
changes (R532, log 3). -/
def step (s : State) : Host.Outcome State Fault Refusal :=
  match decode (isBlock s.vd) s.input with
  | .command i rest => exec i (s.consumed rest)
  | .illegalCommand op => .refused (.illegalCommand op)
  | .truncated => .refused .truncated
  | .endOfStream => .next s

/-- `s` with the instruction of a table word standing where the next step takes it from (log 15). -/
def State.withFetchWord (s : State) (nbits w : Nat) : State :=
  if isHeaderWord nbits w then withHeader s (BitVec.ofNat 8 w) else withCommand s nbits w

end Sys2Proof.Machine
end

