-- ==== Sys2Proof/Safety.lean ====
section
/-!
DEFINITION. What counts as a safe state of the core: the ranges and relations the spec gives its state
(10_state.md R36, R37, R41; 42_decode_engine.md R277, R278, R280; 43_envelope.md R301, R303, R309, R313;
44_sequencer.md R337, R339; 45_mixer_tick.md R382, R388). Each is an invariant of its own, kept by every
step, and every power-on state has it.
-/
namespace Sys2Proof.Machine

/-- A value on the 16-bit signed scale. -/
abbrev inS16 (x : Int) : Prop := -32768 ≤ x ∧ x ≤ 32767

/-- A value of an s32. -/
abbrev inS32 (x : Int) : Prop := -2147483648 ≤ x ∧ x ≤ 2147483647

/-- The image is in canonical form (R80, log 9). -/
abbrev MemorySafe (s : State) : Prop := s.rom.wf s.vd.fill

/-- The instance has the voices of its descriptor (R30). -/
abbrev VoiceCount (s : State) : Prop := s.voices.length = s.vd.nVoices

/-- The cursor is in its range and the phase has 12 fraction bits (R36, R280). -/
abbrev CursorSafe (s : State) : Prop :=
  ∀ V ∈ s.voices, V.pos ≤ V.endPos ∧ V.endPos < 2 ^ 16 ∧ V.loopStart < 2 ^ 16 ∧ V.phase < 4096

/-- The ADSR level, the decay threshold and the total level are in their ranges (R36, R301, R309). -/
abbrev LevelSafe (s : State) : Prop :=
  ∀ V ∈ s.voices, V.level ≤ levelMax ∧ V.dlt ≤ levelMax ∧ V.tlCur ≤ 127 * 2 ^ 16

/-- Accumulator and step index are in the ranges of a dialect (R277, R278). -/
abbrev inDialect (d : Dialect) (acc : Int) (sidx : Nat) : Prop :=
  d.accMin ≤ acc ∧ acc ≤ d.accMax ∧ sidx ≤ d.idxMax

/-- The decode state of a voice of a non-BLOCK descriptor is in the ranges of its codec: of its dialect for
an ADPCM codec, untouched for a linear one (R37, R274). -/
abbrev Voice.decodeSafe (vd : Variant) (V : Voice) : Prop :=
  match dialectOf vd V.codec with
  | some d => inDialect d V.acc V.sidx ∧ inDialect d V.snapAcc V.snapIdx
  | none => V.acc = 0 ∧ V.sidx = 0 ∧ V.snapAcc = 0 ∧ V.snapIdx = 0 ∧ V.snapValid = false

/-- Every voice's decode state is in its declared range (R37, R41). -/
abbrev DecodeSafe (s : State) : Prop :=
  if isBlock s.vd then ∀ V ∈ s.voices, inDialect (seqDialect s.vd) V.acc V.sidx
  else ∀ V ∈ s.voices, V.decodeSafe s.vd

/-- An inactive voice is Idle and silent, and on an ADSR descriptor only an inactive voice is Idle; without
ADSR every voice stays Idle at level 0; a BLOCK voice has no envelope and no right output (R302, R304,
R313, R333). -/
abbrev QuietSafe (s : State) : Prop :=
  ∀ V ∈ s.voices,
    (V.active = false → V.outL = 0)
      ∧ (V.active = false ∨ isBlock s.vd = true → V.stage = .idle ∧ V.outR = 0)
      ∧ (V.active = true ∧ isBlock s.vd = false ∧ s.vd.env = .adsrRamp → V.stage ≠ .idle)
      ∧ (s.vd.env ≠ .adsrRamp → V.stage = .idle ∧ V.level = 0)

/-- The frequency table is below 2^24 and every phase step below 2^31 (R36, R201, R204). -/
abbrev PitchSafe (s : State) : Prop :=
  (∀ f ∈ s.tables.freq, f < 2 ^ 24) ∧ ∀ V ∈ s.voices, V.step < 2 ^ 31

/-- The rate codes are six bits (R36, R242) and the recorded error code is 0 or 1 (R501). -/
abbrev CodesSafe (s : State) : Prop :=
  ∀ V ∈ s.voices,
    V.eAR ≤ 63 ∧ V.eD1 ≤ 63 ∧ V.eD2 ≤ 63 ∧ V.eRR ≤ 63 ∧ (V.err = 0 ∨ V.err = protocolErrorCode)

/-- Samples and voice outputs lie on the 16-bit scale, and the frame fits its two s32 (R270-R279, R285, R312,
R382, R388). -/
abbrev OutputSafe (s : State) : Prop :=
  (∀ V ∈ s.voices,
      V.phase < 4096 ∧ inS16 V.prev ∧ inS16 V.cur ∧ inS16 V.outL ∧ inS16 V.outR)
    ∧ inS32 s.g.frameL ∧ inS32 s.g.frameR

/-- The sequencer's handshake and runs (R41, R337): DRQ is 1 exactly in the request-drop state, which never
returns to itself; a nibble state has nibbles left; a nibble lasts at least a tick; at most 64
loop-backs are left. -/
abbrev Seq.safe (q : Seq) : Prop :=
  (q.drq = true ↔ q.st = .dropDRQ)
    ∧ q.ret ≠ .dropDRQ
    ∧ (q.st = .nibbleMSN ∨ q.st = .nibbleLSN
        ∨ q.st = .dropDRQ ∧ (q.ret = .nibbleMSN ∨ q.ret = .nibbleLSN) → 1 ≤ q.nibLeft)
    ∧ 1 ≤ q.period
    ∧ q.repCount ≤ 64

/-- The sequencer state of the instance is safe (R41, R337). -/
abbrev SeqSafe (s : State) : Prop := s.seq.safe

/-- On a BLOCK descriptor the one voice's status bits say whether the FSM runs, and its output is the FSM's
(R41, R333, R339). -/
abbrev BlockVoiceSafe (s : State) : Prop :=
  isBlock s.vd = true →
    s.v0.active = seqRunning s.seq ∧ s.v0.keyed = seqRunning s.seq ∧ s.v0.outL = seqOutput s

/-- The descriptor is valid and every invariant above holds. -/
abbrev State.safe (s : State) : Prop :=
  s.vd.wf = true ∧ MemorySafe s ∧ VoiceCount s ∧ CursorSafe s ∧ LevelSafe s ∧ DecodeSafe s
    ∧ QuietSafe s ∧ PitchSafe s ∧ CodesSafe s ∧ OutputSafe s ∧ SeqSafe s ∧ BlockVoiceSafe s

/-- The two states agree but for what the last operation returned and the commands still pending (the
model's own fields, logs 2 and 4). -/
abbrev sameCore (s t : State) : Prop :=
  t.vd = s.vd ∧ t.g = s.g ∧ t.rom = s.rom ∧ t.tables = s.tables ∧ t.voices = s.voices
    ∧ t.seq = s.seq

/-- The operation completes: a next state `t`, and nothing returned to the caller (R500). -/
abbrev completes (i : Instr) (s t : State) : Prop := exec i s = .next { t with result := .void }

/-- A WRITE with this selector acts on voice `v` of a non-BLOCK instance that is not dead (R220, R221). -/
abbrev reaches (s : State) (sel : Byte) (v : Nat) : Prop :=
  s.g.fatal = false ∧ isBlock s.vd = false ∧ voiceOf s.vd sel = some v

/-- A WRITE with this selector reaches a voice that has pitch and key registers. -/
def reachesVoice (s : State) (sel : Byte) : Bool := !isBlock s.vd && (voiceOf s.vd sel).isSome

/-- The operations that need CONFIGURE (R505): TICK, a PITCHL or PITCHH write and a key-on, of a write that
reaches a voice. -/
def needsTables (s : State) : Instr → Bool
  | .tick => true
  | .pitchL sel _ _ => reachesVoice s sel
  | .pitchH sel _ _ => reachesVoice s sel
  | .keyOn sel => reachesVoice s sel
  | .write sel sub d =>
      reachesVoice s sel && (sub == 2 || sub == 3 || (sub == 4 && d.getLsbD 7))
  | .writeGlobal _ _ => false
  | .configure _ => false
  | .loadRom _ _ _ _ => false
  | .readFrame => false
  | .reset => false
  | .readStatus _ => false
  | .pan _ _ => false
  | .smpl _ _ => false
  | .keyOff _ => false
  | .tl _ _ _ => false
  | .lfo _ _ => false
  | .am _ _ => false
  | .enable _ => false
  | .bank _ => false
  | .seqIndex _ => false
  | .seqStart => false
  | .seqStop => false
  | .hdrEnd => false
  | .hdrSilence _ => false
  | .hdrFixed _ => false
  | .hdrCounted _ => false
  | .hdrRepeat _ => false

/-- `n` TICK operations (the pseudo-instruction TICKS of R145). -/
def ticks : Nat → State → Out
  | 0, s => .next s
  | n + 1, s =>
    match exec .tick s with
    | .next t => ticks n t
    | .fault f => .fault f
    | .refused r => .refused r

/-- The voice without its LFO and AM bytes (R232). -/
def Voice.withoutLfo (V : Voice) : Voice := { V with lfo := 0, am := 0 }

/-- The state without its LFO and AM bytes (R232). -/
def State.withoutLfo (s : State) : State := { s with voices := s.voices.map Voice.withoutLfo }

/-- The two sequencer states have the same loop-back point and the same repeat loop in progress (R41, R354). -/
abbrev sameLoop (q r : Seq) : Prop :=
  r.lbValid = q.lbValid ∧ r.lbAddr = q.lbAddr ∧ r.repActive = q.repActive
    ∧ r.repAddr = q.repAddr ∧ r.repCount = q.repCount

/-- A reading of a REPEAT marker at `addr` with argument `a`, right after its block at `block` was read
again (R354): the block sets the loop-back point, the cursor stands after the marker, the marker acts. -/
def readMarker (block addr : Nat) (a : BitVec 6) (q : Seq) : Seq :=
  loopOrAdvance (enterRepeat addr a
    { q with lbValid := true, lbAddr := block, cursor := addr + 1 })

end Sys2Proof.Machine
end

