-- ==== Sys2Proof/Certificates/Slice0/Obligations.lean ====
section
/-!
DEFINITION. The statements for the provers. Every statement is for every variant descriptor: the descriptor
is the field `vd` of the state quantified over (log 1).
-/

open Sys2Proof Sys2Proof.Machine

/-! ## Encoding and stepping -/

/-- R111, R112, R115, R117, R119: a well-formed host command, followed by any bytes, decodes to itself and
leaves exactly those bytes (that a WRITE naming a register row is that row and no plain WRITE is the
model's choice, log 5). -/
def Obligations.CommandRoundTrip : Prop :=
  ∀ (block : Bool) (i : Instr) (rest : List Byte),
    i.wf block = true → i.isHeader = false → decode block (encode i ++ rest) = .command i rest

/-- R140, R142: a well-formed header is one byte that decodes to it, and every byte is the encoding of the
header it decodes to. -/
def Obligations.HeaderRoundTrip : Prop :=
  (∀ i : Instr, i.wf true = true → i.isHeader = true →
      ∃ h : Byte, encode i = [h] ∧ Instr.ofHeader (decodeHeader h) = i)
    ∧ ∀ h : Byte, encode (Instr.ofHeader (decodeHeader h)) = [h]

/-- R112: "A stream that ends inside a command is truncated": a proper non-empty beginning of a command is
refused as truncated, and no command of it is executed. -/
def Obligations.CutCommandIsTruncated : Prop :=
  ∀ (s : State) (i : Instr) (front back : List Byte),
    i.wf (isBlock s.vd) = true → i.isHeader = false → encode i = front ++ back →
      front ≠ [] → back ≠ [] → s.input = front → step s = .refused .truncated

/-- The spec's own encodings of a few words (30_encoding.md R111, R115, R140; 95_test_vectors.md V-ENC-1,
V-ENC-3) decode to the instructions they stand for. -/
def Obligations.WrittenOutWordsDecode : Prop :=
  decode false [0x03, 0x00, 0xDC, 0x05, 0x00] = .command (.configure 384000) []
    ∧ decode false [0x01, 0x00, 0x04, 0x80] = .command (.keyOn 0) []
    ∧ decode false [0x01, 0x00, 0x02, 0x4D] = .command (.pitchL 0 0x13 1) []
    ∧ decode false [0x01, 0x02, 0x05, 0x06] = .command (.tl 2 3 0) []
    ∧ decode true [0x01, 0x00, 0x01, 0x01] = .command .seqStart []
    ∧ decodeHeader 0x3F = .silence 63
    ∧ decodeHeader 0x80 = .counted 0
    ∧ decodeHeader 0xFF = .loopBack 63

/-- R27, R112, R113, R506, R532: a step executes the command its decoder reads, with the command's bytes taken
from the stream; it refuses an opcode byte that spells no command and a cut-off command; with no byte
pending it changes nothing (the last clause is the model's choice, log 3). -/
def Obligations.StepRunsDecodedCommand : Prop :=
  (∀ (s : State) (i : Instr) (rest : List Byte),
      decode (isBlock s.vd) s.input = .command i rest → step s = exec i { s with input := rest })
    ∧ (∀ (s : State) (op : Byte) (rest : List Byte),
      s.input = op :: rest → (op = 0 ∨ 9 ≤ op.toNat) → step s = .refused (.illegalCommand op))
    ∧ (∀ s : State, decode (isBlock s.vd) s.input = .truncated → step s = .refused .truncated)
    ∧ ∀ s : State, s.input = [] → step s = .next s

/-- R333, R346: when the FSM is about to act in BlockHeader, a TICK executes the header its decoder reads at
the cursor; then it publishes the voice's bits and output and mixes (that the header's action is an
instruction's meaning of its own is the model's choice, log 7). -/
def Obligations.TickRunsDecodedHeader : Prop :=
  ∀ s : State, s.g.fatal = false → s.g.configured = true → isBlock s.vd = true →
    s.seq.st = .blockHeader → s.seq.cd = 0 →
    ∃ t : State,
      exec (Instr.ofHeader (decodeHeader (romRead s s.seq.cursor))) s = .next t
        ∧ completes .tick s (mix (seqPublish t))

/-- R115, R117, R119, R143: WRITE and WRITE_GLOBAL do what the register row their bytes spell does. -/
def Obligations.WriteIsItsRegisterRow : Prop :=
  ∀ (s : State) (sel sub d : Byte),
    exec (.write sel sub d) s = exec (registerRow (isBlock s.vd) sel sub d) s
      ∧ exec (.writeGlobal sub d) s = exec (globalRegister sub d) s

/-- R120: a reserved bit of a written byte is ignored; the write acts as if the bit were 0. -/
def Obligations.ReservedBitsIgnored : Prop :=
  ∀ (s : State) (sel d : Byte),
    (isBlock s.vd = false →
        exec (.write sel 0 d) s = exec (.write sel 0 (d &&& 0xF0)) s
          ∧ exec (.write sel 2 d) s = exec (.write sel 2 (d &&& 0xFD)) s
          ∧ exec (.write sel 4 d) s = exec (.write sel 4 (d &&& 0x80)) s)
      ∧ (isBlock s.vd = true → exec (.write sel 1 d) s = exec (.write sel 1 (d &&& 0x01)) s)
      ∧ exec (.writeGlobal 0 d) s = exec (.writeGlobal 0 (d &&& 0x01)) s

/-- R233 (and R235, R331 for the other two maps): a write to a reserved sub_address or global register changes no
state and raises nothing, configured or not. -/
def Obligations.ReservedAddressesNoEffect : Prop :=
  ∀ (s : State) (sel sub d : Byte), s.g.fatal = false →
    (isBlock s.vd = false → 8 ≤ sub.toNat → completes (.write sel sub d) s s)
      ∧ (isBlock s.vd = true → 2 ≤ sub.toNat → completes (.write sel sub d) s s)
      ∧ (2 ≤ sub.toNat → completes (.writeGlobal sub d) s s)

/-- R220, R221: a write whose selector reaches no voice is dropped: no state change, and no fault check other
than `G.fatal`. -/
def Obligations.DroppedWritesChangeNothing : Prop :=
  ∀ (s : State) (sel sub d : Byte) (b1 : BitVec 1) (b4 b4' : BitVec 4) (b6 : BitVec 6) (b7 : BitVec 7),
    s.g.fatal = false → voiceOf s.vd sel = none →
      ∀ i ∈ [Instr.write sel sub d, .pan sel b4, .smpl sel d, .pitchL sel b6 b1, .pitchH sel b4 b4',
          .keyOn sel, .keyOff sel, .tl sel b7 b1, .lfo sel d, .am sel d],
        completes i s s

/-- R220: the two selector maps, and no two selectors reach one voice. -/
def Obligations.SelectorMap : Prop :=
  (∀ (vd : Variant) (sel : Byte) (v : Nat), vd.selMap = .direct →
      (voiceOf vd sel = some v ↔ v = sel.toNat ∧ v < vd.nVoices))
    ∧ (∀ (vd : Variant) (sel : Byte) (v : Nat), vd.selMap = .skip8 →
      (voiceOf vd sel = some v ↔
        sel.toNat % 8 ≠ 7 ∧ v = 7 * (sel.toNat / 8) + sel.toNat % 8 ∧ v < vd.nVoices))
    ∧ ∀ (vd : Variant) (sel sel' : Byte) (v : Nat),
      voiceOf vd sel = some v → voiceOf vd sel' = some v → sel = sel'

/-! ## Faults -/

/-- R504, R505, R507: a host operation on a dead instance faults Fatal; on a live one without CONFIGURE, TICK, a
PITCHL or PITCHH write and a key-on fault Unconfigured; every other operation, and these with CONFIGURE,
answers a next state. -/
def Obligations.HostOperationOutcome : Prop :=
  ∀ (s : State) (i : Instr), i.isHeader = false →
    if s.g.fatal = true then exec i s = .fault .fatal
    else if s.g.configured = false ∧ needsTables s i = true then exec i s = .fault .unconfigured
    else ∃ t : State, exec i s = .next t

/-- R42, R83, 10_state.md R32 (the column "written by"): which operations may change the descriptor, the image,
the tables, each global register and the frame; every other operation leaves them as they are. -/
def Obligations.OnlyTheirOwnersWrite : Prop :=
  ∀ (s t : State) (i : Instr), exec i s = .next t →
    t.vd = s.vd ∧ t.input = s.input
      ∧ (t.rom = s.rom ∨ ∃ total offset length data, i = .loadRom total offset length data)
      ∧ ((t.tables = s.tables ∧ t.g.configured = s.g.configured
            ∧ t.g.sampleRate = s.g.sampleRate ∧ t.g.fatal = s.g.fatal) ∨ ∃ clock, i = .configure clock)
      ∧ (t.g.enable = s.g.enable ∨ i = .reset ∨ (∃ d, i = .writeGlobal 0 d) ∨ ∃ en, i = .enable en)
      ∧ (t.g.bank = s.g.bank ∨ i = .reset ∨ (∃ d, i = .writeGlobal 1 d) ∨ ∃ b, i = .bank b)
      ∧ ((t.g.frameL = s.g.frameL ∧ t.g.frameR = s.g.frameR) ∨ i = .tick ∨ i = .reset)

/-! ## CONFIGURE -/

/-- R200, R202, R203, R205, R206: a valid CONFIGURE returns the rate and builds the tables; the envelope tables
only on an ADSR descriptor; nothing else changes (that an envelope entry beyond a u32 is kept exact is the
model's choice, log 21). -/
def Obligations.ConfigureBuildsTables : Prop :=
  ∀ (s : State) (clock : U32) (rate : Nat), s.g.fatal = false → rate = clock.toNat / s.vd.divisor →
    rate ≠ 0 → (1024 + 1023) * rate * 4096 * s.vd.pitchRef.den / (1024 * s.vd.pitchRef.num) < 2 ^ 24 →
    exec (.configure clock) s = .next { s with
      g := { s.g with sampleRate := rate, configured := true }
      tables := {
        freq := (List.range 1024).map fun code =>
          (1024 + code) * rate * 4096 * s.vd.pitchRef.den / (1024 * s.vd.pitchRef.num)
        atk := if s.vd.env = .adsrRamp then (List.range 64).map fun r =>
            (s.vd.base.getD r none).map fun q =>
              max 1 (1024 * 2 ^ 16 * 1000 * q.den / (q.num * rate))
          else s.tables.atk
        dec := if s.vd.env = .adsrRamp then (List.range 64).map fun r =>
            (s.vd.base.getD r none).map fun q =>
              max 1 (1024 * 2 ^ 16 * 1000 * (q.den * s.vd.ratio.den)
                / (q.num * s.vd.ratio.num * rate))
          else s.tables.dec }
      result := .rate rate }

/-- R201, R502: a zero or invalid rate returns ConfigurationError with the clock and sets `G.fatal`, and leaves
every other state unchanged. -/
def Obligations.BadRateIsConfigurationError : Prop :=
  ∀ (s : State) (clock : U32), s.g.fatal = false →
    (clock.toNat / s.vd.divisor = 0
      ∨ 2 ^ 24 ≤ (1024 + 1023) * (clock.toNat / s.vd.divisor) * 4096 * s.vd.pitchRef.den
          / (1024 * s.vd.pitchRef.num)) →
    exec (.configure clock) s =
      .next { s with g := { s.g with fatal := true }, result := .configurationError clock }

/-- R209: the frequency table never steps down, and an octave doubles or halves the step, the halving rounding
toward zero. -/
def Obligations.FrequencyTableShape : Prop :=
  (∀ (vd : Variant) (rate code code' : Nat), code ≤ code' → code' < 1024 →
      (buildFreq vd rate).getD code 0 ≤ (buildFreq vd rate).getD code' 0)
    ∧ (∀ (t : Tables) (fn : BitVec 10) (o o' : BitVec 4), 0 ≤ o.toInt → o'.toInt = o.toInt + 1 →
      stepOf t fn o' = 2 * stepOf t fn o)
    ∧ ∀ (t : Tables) (fn : BitVec 10) (o o' : BitVec 4), o.toInt ≤ 0 → o'.toInt = o.toInt - 1 →
      stepOf t fn o' = stepOf t fn o / 2

/-- R207: after a successful CONFIGURE of an ADSR descriptor every non-degenerate rate moves the level, and the
degenerate rates are exactly those of `VD.BASE`. -/
def Obligations.NonDegenerateRatesMove : Prop :=
  ∀ (s t : State) (clock : U32) (rate : Nat), s.vd.env = .adsrRamp →
    exec (.configure clock) s = .next t → t.result = .rate rate →
    ∀ e < 64,
      (degenerate s.vd e = false → 1 ≤ rateOf t.tables.atk e ∧ 1 ≤ rateOf t.tables.dec e)
        ∧ (degenerate s.vd e = true →
            t.tables.atk.getD e none = none ∧ t.tables.dec.getD e none = none)

/-! ## Voice and global registers -/

/-- R225, R226, R232: PAN sets `pan` to the high nibble of its data byte, SMPL the low eight bits of the sample
index, LFO and AM store their byte, whether or not the instance is configured; nothing else changes. -/
def Obligations.PlainVoiceRegisterWrites : Prop :=
  ∀ (s : State) (sel d : Byte) (p : BitVec 4) (v : Nat), reaches s sel v →
    completes (.pan sel p) s (s.setVoice v { s.voice v with pan := p })
      ∧ completes (.write sel 0 d) s (s.setVoice v { s.voice v with pan := d.extractLsb' 4 4 })
      ∧ completes (.smpl sel d) s
          (s.setVoice v { s.voice v with sample := (s.voice v).sample.extractLsb' 8 1 ++ d })
      ∧ completes (.lfo sel d) s (s.setVoice v { s.voice v with lfo := d })
      ∧ completes (.am sel d) s (s.setVoice v { s.voice v with am := d })

/-- R204, R227, R228: the step of a pitch is the table entry shifted by the octave, left or right; on a configured
instance PITCHL sets FN[5:0] and SMP[8], PITCHH sets OCT and FN[9:6], and each recomputes the step from
the new pitch; nothing else changes (that an absent table entry counts as 0 is the model's choice, log 8). -/
def Obligations.PitchWritesRetune : Prop :=
  (∀ (t : Tables) (fn : BitVec 10) (oct : BitVec 4),
      (0 ≤ oct.toInt → stepOf t fn oct = t.freq.getD fn.toNat 0 * 2 ^ oct.toInt.toNat)
        ∧ (oct.toInt < 0 → stepOf t fn oct = t.freq.getD fn.toNat 0 / 2 ^ (-oct.toInt).toNat))
    ∧ ∀ (s : State) (sel : Byte) (v : Nat), reaches s sel v → s.g.configured = true →
      (∀ (f : BitVec 6) (h : BitVec 1), completes (.pitchL sel f h) s (s.setVoice v { s.voice v with
          fn := (s.voice v).fn.extractLsb' 6 4 ++ f
          sample := h ++ (s.voice v).sample.extractLsb' 0 8
          step := stepOf s.tables ((s.voice v).fn.extractLsb' 6 4 ++ f) (s.voice v).oct }))
        ∧ ∀ o f : BitVec 4, completes (.pitchH sel o f) s (s.setVoice v { s.voice v with
          oct := o
          fn := f ++ (s.voice v).fn.extractLsb' 0 6
          step := stepOf s.tables (f ++ (s.voice v).fn.extractLsb' 0 6) o })

/-- R231: TL sets the target; with LD = 1 the current level too; nothing else changes. -/
def Obligations.TlWriteSetsLevel : Prop :=
  ∀ (s : State) (sel : Byte) (v : Nat) (l : BitVec 7), reaches s sel v →
    completes (.tl sel l 0) s (s.setVoice v { s.voice v with tlTgt := l })
      ∧ completes (.tl sel l 1) s
          (s.setVoice v { s.voice v with tlTgt := l, tlCur := l.toNat * 2 ^ 16 })

/-- R232: no rule reads the LFO and AM bytes: two states that differ only in them have the same outcome for every
instruction, but for those bytes. -/
def Obligations.LfoAmHaveNoEffect : Prop :=
  ∀ (s : State) (i : Instr),
    (∀ t : State, exec i s = .next t →
        ∃ t' : State, exec i s.withoutLfo = .next t' ∧ t'.withoutLfo = t.withoutLfo)
      ∧ (∀ f : Fault, exec i s = .fault f → exec i s.withoutLfo = .fault f)
      ∧ ∀ r : Refusal, exec i s = .refused r → exec i s.withoutLfo = .refused r

/-- R235, R236, R237: ENABLE sets the master enable, BANK the bank window, by either spelling; no voice changes. -/
def Obligations.GlobalWritesSetGlobals : Prop :=
  ∀ s : State, s.g.fatal = false →
    (∀ en : BitVec 1, completes (.enable en) s { s with g := { s.g with enable := en == 1 } })
      ∧ (∀ b : Byte, completes (.bank b) s { s with g := { s.g with bank := b } })
      ∧ (∀ d : Byte, completes (.writeGlobal 0 d) s
          { s with g := { s.g with enable := d.getLsbD 0 } })
      ∧ ∀ d : Byte, completes (.writeGlobal 1 d) s { s with g := { s.g with bank := d } }

/-! ## Key-on and key-off -/

/-- R238: a key-on of a playable record re-initialises cursor, phase, codec state, step and level, on an ADSR
descriptor the envelope too; the register fields and everything else stay. -/
def Obligations.KeyOnStartsPlayback : Prop :=
  ∀ (s : State) (sel : Byte) (v : Nat) (c : Codec), reaches s sel v → s.g.configured = true →
    let V := s.voice v
    let m := metadataOf s V.sample.toNat
    playableCodec s.vd m.codec = some c →
    let started : Voice := { V with
      err := 0, keyed := true, codec := c, loopEn := m.loop
      start := bankRemap s.vd s.g.bank m.start, loopStart := m.loopStart, endPos := m.endPos
      pos := 0, phase := 0, prev := 0, cur := 0, acc := 0, sidx := 0
      snapValid := false, snapAcc := 0, snapIdx := 0
      step := stepOf s.tables V.fn V.oct, tlCur := V.tlTgt.toNat * 2 ^ 16, active := true }
    (s.vd.env ≠ .adsrRamp → completes (.keyOn sel) s (s.setVoice v started))
      ∧ (s.vd.env = .adsrRamp → completes (.keyOn sel) s (s.setVoice v { started with
          eAR := effRate m.ar m.krs V.fn V.oct, eD1 := effRate m.d1r m.krs V.fn V.oct
          eD2 := effRate m.d2r m.krs V.fn V.oct, eRR := effRate m.rr m.krs V.fn V.oct
          dlt := (1023 - 64 * m.dl.toNat) * 2 ^ 16, level := 0, stage := .attack }))

/-- R125, R126, R85: the metadata record of sample index `i` is the twelve bytes at `META_BASE + 12·i`, read with
the fields little-endian; a codec code is playable exactly when it is 0 to 5 and the variant has its codec. -/
def Obligations.MetadataRecordFields : Prop :=
  (∀ (s : State) (i : Nat),
      let b := fun k => romRead s (s.vd.metaBase + 12 * i + k)
      let m := metadataOf s i
      m.codec.toNat = (b 0).toNat % 8 ∧ (m.loop = true ↔ (b 0).toNat / 8 % 2 = 1)
        ∧ m.start = (b 3).toNat * 65536 + (b 2).toNat * 256 + (b 1).toNat
        ∧ m.loopStart = (b 5).toNat * 256 + (b 4).toNat
        ∧ m.endPos = (b 7).toNat * 256 + (b 6).toNat
        ∧ m.ar.toNat = (b 8).toNat / 16 ∧ m.d1r.toNat = (b 8).toNat % 16
        ∧ m.dl.toNat = (b 9).toNat / 16 ∧ m.d2r.toNat = (b 9).toNat % 16
        ∧ m.krs.toNat = (b 10).toNat / 16 ∧ m.rr.toNat = (b 10).toNat % 16)
    ∧ ∀ (vd : Variant) (code : BitVec 3) (c : Codec), playableCodec vd code = some c ↔
        [Codec.pcm8, .pcm16, .pcm12, .adpcmA, .adpcmB, .adpcmC][code.toNat]? = some c
          ∧ Capability.voice c ∈ vd.codecs

/-- R239: a key-on of a record with a reserved or unsupported codec leaves the voice inactive, keyed, Idle and
silent with ProtocolError recorded, and changes nothing else. -/
def Obligations.KeyOnRejectsCodec : Prop :=
  ∀ (s : State) (sel : Byte) (v : Nat), reaches s sel v → s.g.configured = true →
    playableCodec s.vd (metadataOf s (s.voice v).sample.toNat).codec = none →
    completes (.keyOn sel) s (s.setVoice v { s.voice v with
      keyed := true, active := false, stage := .idle, outL := 0, outR := 0, err := 1 })

/-- R241: key-off of an inactive voice only clears `keyed`; of an active one it enters Release if the release
rate is not degenerate on an ADSR descriptor, and halts the voice at once otherwise. -/
def Obligations.KeyOffReleasesOrHalts : Prop :=
  ∀ (s : State) (sel : Byte) (v : Nat), reaches s sel v →
    ((s.voice v).active = false →
        completes (.keyOff sel) s (s.setVoice v { s.voice v with keyed := false }))
      ∧ ((s.voice v).active = true → s.vd.env = .adsrRamp → degenerate s.vd (s.voice v).eRR = false →
        completes (.keyOff sel) s
          (s.setVoice v { s.voice v with keyed := false, stage := .release }))
      ∧ ((s.voice v).active = true →
          s.vd.env ≠ .adsrRamp ∨ degenerate s.vd (s.voice v).eRR = true →
        completes (.keyOff sel) s (s.setVoice v { s.voice v with
          keyed := false, active := false, stage := .idle, outL := 0, outR := 0 }))

/-- R242: the effective rate code, and that codes 1 to 14 stay in 4..63. -/
def Obligations.EffectiveRateCode : Prop :=
  ∀ (r krs : BitVec 4) (fn : BitVec 10) (oct : BitVec 4),
    let ks : Int := if krs = 15 then 0 else 2 * (oct.toInt + krs.toNat) + fn.toNat / 512
    (r = 0 → effRate r krs fn oct = 0) ∧ (r = 15 → effRate r krs fn oct = 63)
      ∧ (r ≠ 0 → r ≠ 15 →
          (effRate r krs fn oct : Int) = min (max (4 * r.toNat + ks) 4) 63
            ∧ 4 ≤ effRate r krs fn oct ∧ effRate r krs fn oct ≤ 63)

/-- R240, R91: the bank remap, and that a remapped 24-bit start address stays below 2^31. -/
def Obligations.BankRemapWindow : Prop :=
  ∀ (vd : Variant) (bank : Byte) (a : Nat),
    (vd.banked = true → vd.bankThreshold ≤ a →
        bankRemap vd bank a = bank.toNat * vd.bankThreshold + a % vd.bankThreshold)
      ∧ (vd.banked = false ∨ a < vd.bankThreshold → bankRemap vd bank a = a)
      ∧ (vd.wf = true → isBlock vd = false → a < 2 ^ 24 → bankRemap vd bank a < 2 ^ 31)

/-! ## Decode engine -/

/-- R261, R262, R264, R265: a tick sets the phase and then fetches `floor((phase + step) / 4096)` units, stopping
when the voice ends. A looping voice stays active and moves its cursor by one unit each, wrapping to the
loop start at the end; a voice that does not loop moves by exactly that many if so many are left, else
ends at `end`. -/
def Obligations.CursorMovesByUnits : Prop :=
  ∀ (s : State) (V : Voice), V.active = true →
    let n := (V.phase + V.step) / 4096
    let loops := V.loopEn = true ∧ V.keyed = true ∧ V.loopStart < V.endPos
    let W := advanceVoice s V
    W = (fun X => if X.active then fetchUnit s X else X)^[n]
          { V with phase := (V.phase + V.step) % 4096 }
      ∧ W.phase = (V.phase + V.step) % 4096
      ∧ (loops → W.active = true
        ∧ W.pos = (fun p => if V.endPos ≤ p then V.loopStart + 1 else p + 1)^[n] V.pos)
      ∧ (¬ loops → V.pos ≤ V.endPos →
          (W.active = true ↔ V.pos + n ≤ V.endPos) ∧ W.pos = min (V.pos + n) V.endPos)
      ∧ (¬ loops → V.endPos < V.pos → (W.active = true ↔ n = 0) ∧ W.pos = V.pos)

/-- R264, R265, R281: a fetch before the end decodes the unit at the cursor; a looping ADPCM voice takes its
snapshot before it, the first time the cursor is at the loop start. A fetch at the end of a voice that
does not loop deactivates it. A fetch that wraps decodes the loop-start unit, for an ADPCM codec with
LOOP_RESTORE from the snapshot if one is valid, else from the state as it is; the snapshot is taken if
none is valid. -/
def Obligations.FetchAtEndWrapsOrHalts : Prop :=
  ∀ (s : State) (V : Voice),
    let loops := V.loopEn = true ∧ V.keyed = true ∧ V.loopStart < V.endPos
    let snapshot := fun U : Voice =>
      { U with snapAcc := U.acc, snapIdx := U.sidx, snapValid := true }
    let first := dialectOf s.vd V.codec ≠ none ∧ V.loopEn = true ∧ V.pos = V.loopStart
      ∧ V.snapValid = false
    (V.pos < V.endPos →
        fetchUnit s V = if first then decodeUnit s (snapshot V) else decodeUnit s V)
      ∧ (V.endPos ≤ V.pos → ¬ loops → fetchUnit s V =
          { V with active := false, stage := .idle, outL := 0, outR := 0 })
      ∧ (V.endPos ≤ V.pos → loops → dialectOf s.vd V.codec = none →
          fetchUnit s V = decodeUnit s { V with pos := V.loopStart })
      ∧ ∀ d : Dialect, V.endPos ≤ V.pos → loops → dialectOf s.vd V.codec = some d →
          (V.snapValid = true → d.loopRestore = true → fetchUnit s V =
              decodeUnit s { V with pos := V.loopStart, acc := V.snapAcc, sidx := V.snapIdx })
            ∧ (V.snapValid = true → d.loopRestore = false → fetchUnit s V =
              decodeUnit s { V with pos := V.loopStart })
            ∧ (V.snapValid = false → fetchUnit s V =
              decodeUnit s (snapshot { V with pos := V.loopStart }))

/-- R264, R270, R271, R272, R128: the three linear codecs, as integers of the bytes read, and that decoding a unit
of a voice with such a codec makes that value its newest sample, moves the cursor by one and changes
nothing else. -/
def Obligations.LinearUnitValues : Prop :=
  (∀ (s : State) (start p : Nat),
    let u := fun a => ((romRead s a).toNat : Int)
    pcm8Unit s start p = 256 * (if u (start + p) < 128 then u (start + p) else u (start + p) - 256)
      ∧ (let w := u (start + 2 * p) + 256 * u (start + 2 * p + 1)
         pcm16Unit s start p = if w < 32768 then w else w - 65536)
      ∧ (let f := start + 6 * (p / 4)
         let frame := u f + 256 * u (f + 1) + 65536 * u (f + 2) + 16777216 * u (f + 3)
           + 4294967296 * u (f + 4) + 1099511627776 * u (f + 5)
         let w := frame / 2 ^ (12 * (p % 4)) % 4096
         pcm12Unit s start p = 16 * (if w < 2048 then w else w - 4096)))
    ∧ ∀ (s : State) (V : Voice),
      let pushed := fun x : Int => { V with prev := V.cur, cur := x, pos := V.pos + 1 }
      (V.codec = .pcm8 → decodeUnit s V = pushed (pcm8Unit s V.start V.pos))
        ∧ (V.codec = .pcm16 → decodeUnit s V = pushed (pcm16Unit s V.start V.pos))
        ∧ (V.codec = .pcm12 → decodeUnit s V = pushed (pcm12Unit s V.start V.pos))

/-- R129, R275-R279, R338: which dialect a codec and the block stream use; the differential update by one nibble
(sign and magnitude code, the accumulator damped, moved and clamped, the index moved and clamped, nothing
else of the voice changed); and one ADPCM unit of a voice: that update by the nibble of the unit's byte
that order and parity select, then the sample on the 16-bit scale and the cursor moved by one (that an
entry outside a malformed dialect's tables counts as 0 is the model's choice, log 8). -/
def Obligations.AdpcmUnitUpdate : Prop :=
  (∀ vd : Variant,
      dialectOf vd .adpcmA = some vd.dialectA ∧ dialectOf vd .adpcmB = some vd.dialectB
        ∧ dialectOf vd .adpcmC = some vd.dialectC
        ∧ (∀ c ∈ [Codec.pcm8, .pcm16, .pcm12], dialectOf vd c = none)
        ∧ (vd.seqDialect = .a → seqDialect vd = vd.dialectA)
        ∧ (vd.seqDialect = .b → seqDialect vd = vd.dialectB)
        ∧ (vd.seqDialect = .c → seqDialect vd = vd.dialectC))
    ∧ (∀ (d : Dialect) (V : Voice) (nib : BitVec 4), d.codeBits = 3 ∨ d.codeBits = 4 →
      let c := nib.toNat % 2 ^ d.codeBits
      let m := c % 2 ^ (d.codeBits - 1)
      let mag : Int :=
        if d.magMode = .table then (d.diff.getD V.sidx []).getD m 0 else d.direct.getD m 0
      let damped := match d.dampShift with
        | none => V.acc
        | some k => V.acc - V.acc / 2 ^ k
      let moved := if 2 ^ (d.codeBits - 1) ≤ c then damped - mag else damped + mag
      V.adpcmStep d nib = { V with
        acc := min (max moved d.accMin) d.accMax
        sidx := (min (max ((V.sidx : Int) + d.adj.getD m 0) 0) d.idxMax).toNat })
    ∧ ∀ (s : State) (V : Voice) (d : Dialect) (nib : BitVec 4), dialectOf s.vd V.codec = some d →
      let byte := (romRead s (V.start + V.pos / 2)).toNat
      nib.toNat = (if (V.pos % 2 = 0 ↔ d.nibOrder = .highFirst) then byte / 16 else byte % 16) →
      let U := V.adpcmStep d nib
      decodeUnit s V = { U with
        prev := V.cur, cur := min (max (U.acc * 2 ^ d.norm) (-32768)) 32767, pos := V.pos + 1 }

/-- R285: a whole-unit step uses the newest sample; any other step gives a value between the last two samples. -/
def Obligations.InterpolationStaysBetween : Prop :=
  ∀ V : Voice, V.phase < 4096 →
    (V.step % 4096 = 0 → voiceSample V = V.cur)
      ∧ (V.step % 4096 ≠ 0 →
          voiceSample V = V.prev + (V.cur - V.prev) * V.phase / 4096)
      ∧ min V.prev V.cur ≤ voiceSample V ∧ voiceSample V ≤ max V.prev V.cur

/-! ## TICK, envelope and output -/

/-- R380-R385: on a configured non-BLOCK instance TICK ticks every active voice, leaves the others, and puts
the masked sum of the clamped outputs in the frame, or zero with the master enable off; the right half
only on a stereo descriptor. The tick of a voice advances it; if it ended, its output is 0; else its
sample is put out after the ramp and, on an ADSR descriptor, the envelope. -/
def Obligations.TickAdvancesVoicesAndMixes : Prop :=
  (∀ s : State, s.g.fatal = false → s.g.configured = true → isBlock s.vd = false →
    let voices := s.voices.map fun V => if V.active then voiceTick s V else V
    let clamped := fun x : Int => min (max x (-32768)) 32767
    let sum := fun out : Voice → Int => ((voices.filter (·.active)).map fun V => clamped (out V)).sum
    let masked := fun x : Int => x - x % 2 ^ s.vd.outMaskBits
    completes .tick s { s with
      voices := voices
      g := { s.g with
        frameL := if s.g.enable then masked (sum (·.outL)) else 0
        frameR := if s.g.enable = true ∧ s.vd.stereo = true then masked (sum (·.outR)) else 0 } })
    ∧ ∀ (s : State) (V : Voice),
      let A := advanceVoice s V
      (A.active = false → voiceTick s V = { A with outL := 0, outR := 0 })
        ∧ (A.active = true → s.vd.env = .ramp →
            voiceTick s V = voiceOutput s.vd (ramp s.vd A) (voiceSample A))
        ∧ (A.active = true → s.vd.env = .adsrRamp →
            voiceTick s V = voiceOutput s.vd (envelope s (ramp s.vd A)) (voiceSample A))

/-- R387: what a tick does to a voice depends on that voice, the descriptor, the image and the tables, and on no
other voice or register. -/
def Obligations.VoiceTickReadsOnlyItsVoice : Prop :=
  ∀ (s t : State) (V : Voice), t.vd = s.vd → t.rom = s.rom → t.tables = s.tables →
    voiceTick t V = voiceTick s V

/-- R300, R301: `n` ramps move the current level by `n` steps of its direction, stop exactly at the target, and
change nothing else. -/
def Obligations.RampReachesTarget : Prop :=
  ∀ (vd : Variant) (V : Voice) (n : Nat),
    (V.tlCur ≤ V.tlTgt.toNat * 2 ^ 16 →
        (ramp vd)^[n] V =
          { V with tlCur := min (V.tlCur + n * vd.rampFall) (V.tlTgt.toNat * 2 ^ 16) })
      ∧ (V.tlTgt.toNat * 2 ^ 16 ≤ V.tlCur →
        (ramp vd)^[n] V =
          { V with tlCur := max (V.tlCur - n * vd.rampRise) (V.tlTgt.toNat * 2 ^ 16) })

/-- R302, R304-R308: one envelope step. Attack adds its increment up to full scale (a degenerate one is there at
once), so the level never falls, and at full scale it goes to Decay1, or to Decay2 if `eD1` is degenerate;
Decay1 subtracts down to the threshold and then goes to Decay2; Decay2 subtracts down to 0, or holds if
degenerate; Release subtracts and at 0 deactivates the voice; in Decay1 above the threshold, Decay2 and
Release the level never rises. Nothing else changes (that a missing table entry counts as 0, and that
Decay1 with `DL = 0` follows R306's pseudocode and not its corner case where they differ, are the model's
choices, logs 8 and 22). -/
def Obligations.EnvelopeTransitions : Prop :=
  ∀ (s : State) (V : Voice),
    let W := envelope s V
    let instant := fun e : Nat => s.vd.base.getD e none = none
    let atk := (s.tables.atk.getD V.eAR none).getD 0
    let dec := fun e : Nat => (s.tables.dec.getD e none).getD 0
    (V.stage = .attack →
        let level := if instant V.eAR then 2 ^ 26 - 1 else min (V.level + atk) (2 ^ 26 - 1)
        W = { V with
            level := level
            stage := if level = 2 ^ 26 - 1 then (if instant V.eD1 then .decay2 else .decay1)
              else .attack }
          ∧ (V.level ≤ 2 ^ 26 - 1 → V.level ≤ W.level ∧ W.level ≤ 2 ^ 26 - 1))
      ∧ (V.stage = .decay1 →
        (V.level ≤ V.dlt + dec V.eD1 → W = { V with level := V.dlt, stage := .decay2 })
          ∧ (V.dlt + dec V.eD1 < V.level → W = { V with level := V.level - dec V.eD1 })
          ∧ (V.dlt ≤ V.level → V.dlt ≤ W.level ∧ W.level ≤ V.level))
      ∧ (V.stage = .decay2 →
        W = { V with level := if instant V.eD2 then V.level else V.level - dec V.eD2 }
          ∧ W.level ≤ V.level)
      ∧ (V.stage = .release →
        (V.level ≤ dec V.eRR →
            W = { V with level := 0, active := false, stage := .idle, outL := 0, outR := 0 })
          ∧ (dec V.eRR < V.level → W = { V with level := V.level - dec V.eRR })
          ∧ W.level ≤ V.level)
      ∧ (V.stage = .idle → W = V)

/-- R308, R309: in Release with a positive decrement every tick strictly decreases the level or ends the voice. -/
def Obligations.ReleaseStrictlyDecreases : Prop :=
  ∀ (s t : State) (v : Nat), isBlock s.vd = false → s.vd.env = .adsrRamp → v < s.voices.length →
    (s.voice v).active = true → (s.voice v).stage = .release →
    1 ≤ rateOf s.tables.dec (s.voice v).eRR → exec .tick s = .next t →
    (t.voice v).active = false
      ∨ (t.voice v).stage = .release ∧ (t.voice v).level < (s.voice v).level

/-- R308, R309: a Release with decrement `d` reaches level 0 and deactivates the voice within `level / d + 1`
release steps. -/
def Obligations.ReleaseEndsInTime : Prop :=
  ∀ (s : State) (V : Voice), 1 ≤ rateOf s.tables.dec V.eRR →
    let W := (releaseStep s)^[V.level / rateOf s.tables.dec V.eRR + 1] V
    W.level = 0 ∧ W.active = false ∧ W.stage = .idle

/-- R310, R311, R312, R388: the output of an active voice is its sample times the gain (the exponential table at the
level on an ADSR descriptor, unity on a RAMP one) times the pan/volume entry of its side, each product
rounded toward minus infinity, the right half 0 on a mono descriptor; of an inactive voice 0; nothing else
changes. With a sample on the 16-bit scale the outputs lie on that scale, so the mixer's clamp is the
identity on them (that an entry outside a malformed table counts as 0 is the model's choice, log 8). -/
def Obligations.VoiceOutputNeedsNoClamp : Prop :=
  ∀ (vd : Variant) (V : Voice) (x : Int),
    let W := voiceOutput vd V x
    (∀ g : Nat, V.active = true →
        (vd.env = .adsrRamp ∧ g = vd.exp.getD (V.level / 2 ^ 16) 0 ∨ vd.env = .ramp ∧ g = 4096) →
        let entry := (vd.panVol.getD (V.tlCur / 2 ^ 16) []).getD V.pan.toNat (0, 0)
        W = { V with
          outL := x * g / 4096 * entry.1 / 4096
          outR := if vd.stereo then x * g / 4096 * entry.2 / 4096 else 0 })
      ∧ (V.active = false → W = { V with outL := 0, outR := 0 })
      ∧ (vd.wf = true → isBlock vd = false → inS16 x →
          inS16 W.outL ∧ inS16 W.outR ∧ clamp16 W.outL = W.outL ∧ clamp16 W.outR = W.outR)

/-! ## Sequencer -/

/-- R331, R332: SEQ_INDEX stores the index; SEQ_START restarts the stream from any state; SEQ_STOP goes to Idle
at once. -/
def Obligations.SeqRegisterWrites : Prop :=
  ∀ s : State, s.g.fatal = false → isBlock s.vd = true → 0 < s.vd.nVoices →
    (∀ d : Byte, completes (.seqIndex d) s { s with seq := { s.seq with idxReg := d } })
      ∧ completes .seqStart s (State.setVoice { s with
          seq := { s.seq with
            st := .start, cd := s.vd.latStart, drq := false, silent := false, lbValid := false
            repActive := false, repCount := 0, nibLeft := 0, period := 1 } } 0
          { s.voice 0 with acc := 0, sidx := 0, err := 0, outL := 0, active := true, keyed := true })
      ∧ completes .seqStop s (State.setVoice { s with
          seq := { s.seq with st := .idle, cd := 0, drq := false, silent := false } } 0
          { s.voice 0 with active := false, keyed := false, outL := 0 })

/-- R346, R350-R353: END, SILENCE, FIXED and COUNTED pass their header byte, set what their rule sets, raise DRQ
and enter the request-drop state; nothing else changes (that a header's action is an instruction's meaning
of its own, with no fault check and no publishing of the voice, in any state of a BLOCK instance, is the
model's choice, log 7). -/
def Obligations.HeaderEffects : Prop :=
  ∀ (s : State) (a : BitVec 6), isBlock s.vd = true →
    let drop := fun (ret : SeqState) (cd : Nat) (q : Seq) =>
      { q with cursor := s.seq.cursor + 1, drq := true, ret := ret, retCd := cd, st := .dropDRQ
               cd := s.vd.latDrop }
    exec .hdrEnd s = .next { s with seq := drop .idle 0 s.seq }
      ∧ exec (.hdrSilence a) s = .next { s with
          seq := drop .blockHeader ((a.toNat + 1) * s.vd.seqSilenceUnit - 1)
            { s.seq with lbValid := true, lbAddr := s.seq.cursor, silent := true } }
      ∧ exec (.hdrFixed a) s = .next { s with
          seq := drop .nibbleMSN 0 { s.seq with
            lbValid := true, lbAddr := s.seq.cursor, silent := false
            nibLeft := s.vd.seqFixedNibbles, period := (a.toNat + 1) * s.vd.seqRateUnit } }
      ∧ exec (.hdrCounted a) s = .next { s with
          seq := drop .nibbleCount 0 { s.seq with
            lbValid := true, lbAddr := s.seq.cursor, silent := false
            period := (a.toNat + 1) * s.vd.seqRateUnit } }

/-- R354, R355: REPEAT with a preceding block counts a loop-back and sets the cursor to the block's header, or with
none left advances past the marker; with no preceding block it goes to Idle with ProtocolError (that a
header's action is an instruction's meaning of its own, with no fault check and no publishing of the
voice, in any state of a BLOCK instance, is the model's choice, log 7). -/
def Obligations.RepeatHeaderEffect : Prop :=
  ∀ (s : State) (a : BitVec 6), isBlock s.vd = true →
    (s.seq.lbValid = false → exec (.hdrRepeat a) s = .next (State.setVoice { s with
        seq := { s.seq with
          cursor := s.seq.cursor + 1, st := .idle, cd := 0, drq := false, silent := false } } 0
        { s.voice 0 with err := 1 }))
      ∧ (s.seq.lbValid = true →
        let first := s.seq.repActive = false ∨ s.seq.repAddr ≠ s.seq.cursor
        let count := if first then a.toNat + 1 else s.seq.repCount
        let drop := fun q : Seq =>
          { q with drq := true, ret := .blockHeader, retCd := 0, st := .dropDRQ, cd := s.vd.latDrop
                   repAddr := s.seq.cursor }
        exec (.hdrRepeat a) s = .next { s with
          seq := if 0 < count then
              drop { s.seq with repActive := true, repCount := count - 1, cursor := s.seq.lbAddr }
            else
              drop { s.seq with
                repActive := false, repCount := 0, lbValid := false, cursor := s.seq.cursor + 1 } })

/-- R333, R351, R354: executing a block's header and later the marker after it is a reading of the marker, whatever the run between them changed but for the loop fields (that headers are
executed as instructions of their own is the model's choice, log 7); a marker with argument `a` after one
block loops back exactly `a + 1` times and advances past itself at the next reading; and so does, counted
in ticks, the stream of the source's property, a silence block and its marker. -/
def Obligations.MarkerLoopsCountPlusOneTimes : Prop :=
  (∀ (s : State) (block addr : Nat) (a b : BitVec 6), isBlock s.vd = true →
      ∀ header ∈ [Instr.hdrSilence b, .hdrFixed b, .hdrCounted b],
        ∃ u, exec header { s with seq := { s.seq with cursor := block } } = .next u
          ∧ ∀ r : State, r.vd = s.vd → sameLoop u.seq r.seq → r.seq.cursor = addr →
            ∃ t, exec (.hdrRepeat a) r = .next t
              ∧ sameLoop (readMarker block addr a s.seq) t.seq
              ∧ t.seq.cursor = (readMarker block addr a s.seq).cursor)
    ∧ (∀ (block addr : Nat) (a : BitVec 6) (q : Seq), q.repActive = false →
      (∀ k, k ≤ a.toNat →
          let r := (readMarker block addr a)^[k + 1] q
          r.cursor = block ∧ r.repActive = true ∧ r.repCount = a.toNat - k)
        ∧ (let r := (readMarker block addr a)^[a.toNat + 2] q
           r.cursor = addr + 1 ∧ r.repActive = false ∧ r.lbValid = false))
    ∧ ∀ (s : State) (a b : BitVec 6), s.g.fatal = false → s.g.configured = true →
      isBlock s.vd = true → 0 < s.vd.seqSilenceUnit →
      s.seq.st = .blockHeader → s.seq.cd = 0 → s.seq.repActive = false →
      decodeHeader (romRead s s.seq.cursor) = .silence b →
      decodeHeader (romRead s (s.seq.cursor + 1)) = .loopBack a →
      let round := 2 * s.vd.latDrop + (b.toNat + 1) * s.vd.seqSilenceUnit + 3
      (∀ k, k ≤ a.toNat → ∃ t, ticks ((k + 1) * round) s = .next t
          ∧ t.seq.st = .blockHeader ∧ t.seq.cd = 0 ∧ t.seq.cursor = s.seq.cursor
          ∧ t.seq.repCount = a.toNat - k)
        ∧ ∃ t, ticks ((a.toNat + 2) * round) s = .next t
          ∧ t.seq.st = .blockHeader ∧ t.seq.cd = 0 ∧ t.seq.cursor = s.seq.cursor + 2
          ∧ t.seq.repActive = false ∧ t.seq.lbValid = false

/-- R333, R339, R361, R382-R384: a tick of a BLOCK instance leaves the FSM alone in Idle, counts down, or does the action of
its state; then the one voice shows whether the FSM runs and its output, and the frame's left half is
that output, masked, or zero with the master enable off. -/
def Obligations.BlockTickAdvancesAndPublishes : Prop :=
  ∀ (s : State) (V : Voice), s.g.fatal = false → s.g.configured = true → isBlock s.vd = true →
    s.voices = [V] →
    let u := if s.seq.st = .idle then s
      else if 0 < s.seq.cd then { s with seq := { s.seq with cd := s.seq.cd - 1 } }
      else seqAct s
    let run := decide (u.seq.st ≠ .idle)
    let out := if run = true ∧ u.seq.silent = false then
        min (max ((u.voice 0).acc * 2 ^ (seqDialect s.vd).norm) (-32768)) 32767
      else 0
    completes .tick s { s with
      seq := u.seq
      voices := [{ u.voice 0 with active := run, keyed := run, outL := out, outR := 0 }]
      g := { s.g with
        frameL := if s.g.enable then out - out % 2 ^ s.vd.outMaskBits else 0, frameR := 0 } }

/-- R342, R343, R130: Addr1 reads the high pointer byte; Addr2 reads the low one and goes on to the stream if it
starts inside the image, else to Idle with ProtocolError and DRQ low. -/
def Obligations.PointerFetch : Prop :=
  ∀ s : State, s.g.fatal = false → s.g.configured = true → isBlock s.vd = true → s.seq.cd = 0 →
    (s.seq.st = .addr1 → completes .tick s (mix (seqPublish { s with
        seq := { s.seq with
          ptrHi := romRead s s.seq.cursor, cursor := s.seq.cursor + 1, drq := true
          ret := .addr2, retCd := s.vd.latAddr, st := .dropDRQ, cd := s.vd.latDrop } })))
      ∧ (s.seq.st = .addr2 →
        let a := (s.seq.ptrHi.toNat * 256 + (romRead s s.seq.cursor).toNat) * s.vd.seqPtrScale
        (a < s.rom.len → completes .tick s (mix (seqPublish { s with
            seq := { s.seq with
              cursor := a, drq := true, ret := .dummy1, retCd := s.vd.latDummy, st := .dropDRQ
              cd := s.vd.latDrop } })))
          ∧ (s.rom.len ≤ a → completes .tick s (mix (seqPublish (State.setVoice { s with
              seq := { s.seq with
                cursor := s.seq.cursor + 1, st := .idle, cd := 0, drq := false } } 0
              { s.voice 0 with err := 1 })))))

/-- R356, R357, R358, R336: the count byte of a COUNTED block sets the run, the two nibble states decode the high and the
low half of a data byte and go on to the other half, or to the next header after the run's last nibble;
the request-drop state lowers DRQ and enters the state the request named. -/
def Obligations.NibbleRunStates : Prop :=
  ∀ s : State, s.g.fatal = false → s.g.configured = true → isBlock s.vd = true → s.seq.cd = 0 →
    let byte := romRead s s.seq.cursor
    let left := s.seq.nibLeft - 1
    let V := s.voice 0
    (s.seq.st = .nibbleCount → completes .tick s (mix (seqPublish { s with
        seq := { s.seq with
          cursor := s.seq.cursor + 1, nibLeft := byte.toNat + 1, drq := true
          ret := .nibbleMSN, retCd := 0, st := .dropDRQ, cd := s.vd.latDrop } })))
      ∧ (s.seq.st = .nibbleMSN → completes .tick s (mix (seqPublish (State.setVoice { s with
          seq := { s.seq with
            cursor := s.seq.cursor + 1, latch := byte, nibLeft := left, drq := true
            ret := if left = 0 then .blockHeader else .nibbleLSN, retCd := s.seq.period - 1
            st := .dropDRQ, cd := s.vd.latDrop } } 0
          (V.adpcmStep (seqDialect s.vd) (byte.extractLsb' 4 4))))))
      ∧ (s.seq.st = .nibbleLSN → completes .tick s (mix (seqPublish (State.setVoice { s with
          seq := { s.seq with
            nibLeft := left, st := if left = 0 then .blockHeader else .nibbleMSN
            cd := s.seq.period - 1 } } 0
          (V.adpcmStep (seqDialect s.vd) (s.seq.latch.extractLsb' 0 4))))))
      ∧ (s.seq.st = .dropDRQ → completes .tick s (mix (seqPublish { s with
          seq := { s.seq with drq := false, st := s.seq.ret, cd := s.seq.retCd } })))

/-- R360: after a start the first header is about to be read after exactly `H - 1` ticks, for every value of the
latencies, with the cursor at the address the pointer table gives. -/
def Obligations.FirstHeaderTick : Prop :=
  ∀ s : State, s.g.fatal = false → s.g.configured = true → isBlock s.vd = true →
    s.seq.st = .start → s.seq.cd = s.vd.latStart →
    let e := s.vd.seqTableBase + 2 * s.seq.idxReg.toNat
    let a := ((romRead s e).toNat * 256 + (romRead s (e + 1)).toNat) * s.vd.seqPtrScale
    a < s.rom.len →
    ∃ t, ticks (s.vd.latStart + 2 * s.vd.latAddr + 2 * s.vd.latDrop + 2 * s.vd.latDummy
        + s.vd.latHdr + 7) s = .next t
      ∧ t.seq.st = .blockHeader ∧ t.seq.cd = 0 ∧ t.seq.cursor = a ∧ t.seq.drq = false

/-! ## Mixer and host operations -/

/-- R384: with the master enable off a tick makes the frame zero, and does to everything else what it does with the
enable on. -/
def Obligations.MasterEnableOnlyMutes : Prop :=
  ∀ s t : State, s.g.enable = true → exec .tick s = .next t →
    exec .tick { s with g := { s.g with enable := false } } =
      .next { t with g := { t.g with enable := false, frameL := 0, frameR := 0 } }

/-- R386, R410, R118: READ_FRAME returns the frame, READ_STATUS the status byte of the selected voice (zero where
there is none); neither changes any state. -/
def Obligations.ReadsReturnAndChangeNothing : Prop :=
  ∀ (s : State) (sel : Byte), s.g.fatal = false →
    exec .readFrame s = .next { s with
        result := if s.vd.stereo then .frameStereo s.g.frameL s.g.frameR else .frameMono s.g.frameL }
      ∧ (voiceOf s.vd sel = none → exec (.readStatus sel) s = .next { s with result := .status 0 })
      ∧ (∀ v, voiceOf s.vd sel = some v → ∃ b : Byte,
          exec (.readStatus sel) s = .next { s with result := .status b }
            ∧ (isBlock s.vd = false → b.toNat = 16 * (s.voice v).err.toNat
                + 2 * (s.voice v).keyed.toNat + (s.voice v).active.toNat)
            ∧ (isBlock s.vd = true → b.toNat = 16 * (s.voice 0).err.toNat + 4 * s.seq.drq.toNat
                + (if s.seq.st = .idle then 0 else 3)))

/-- R400, R81: LOAD_ROM with `offset > total` changes nothing; otherwise the image has `total` bytes, those from
`offset` on are the data truncated to fit, and every other byte of it reads as before (a new one as the
fill value); nothing else changes. -/
def Obligations.LoadRomWritesItsBytes : Prop :=
  ∀ (s : State) (total offset length : U32) (data : List Byte), s.g.fatal = false → MemorySafe s →
    data.length = length.toNat →
    ∃ rom : Memory, completes (.loadRom total offset length data) s { s with rom := rom }
      ∧ (total.toNat < offset.toNat → rom = s.rom)
      ∧ (offset.toNat ≤ total.toNat → rom.len = total.toNat
          ∧ ∀ a, rom.read s.vd.fill a =
              if offset.toNat ≤ a
                  ∧ a < offset.toNat + min length.toNat (total.toNat - offset.toNat) then
                data.getD (a - offset.toNat) 0
              else if a < total.toNat then s.rom.read s.vd.fill a else s.vd.fill)

/-- R405, R406, R531: RESET gives every voice, the sequencer of a BLOCK descriptor and four globals their power-on
values and keeps image, tables, rate and the other globals; a second RESET changes nothing. -/
def Obligations.ResetClearsAndIsIdempotent : Prop :=
  ∀ s : State, s.g.fatal = false →
    ∃ t : State, exec .reset s = .next t ∧ exec .reset t = .next t
      ∧ t = { s with
          voices := List.replicate s.vd.nVoices Voice.powerOn
          seq := if isBlock s.vd then Seq.powerOn else s.seq
          g := { s.g with enable := true, bank := 0, frameL := 0, frameR := 0 }
          result := .void }

/-! ## Invariants -/

/-- The power-on state of every valid descriptor is safe (R530); in particular `State.reset` is (its
descriptor is the model's choice, log 1). -/
def Obligations.PowerOnIsSafe : Prop :=
  (∀ vd : Variant, vd.wf = true → (State.powerOn vd).safe) ∧ State.reset.safe

/-- R30, R43, R44, R80, R83: every step keeps the descriptor, the number of voices and the canonical form of the
image (the descriptor as a field and the form of the image are the model's choices, logs 1 and 9). -/
def Obligations.StepKeepsDescriptorVoicesAndImage : Prop :=
  ∀ s t : State, step s = .next t →
    t.vd = s.vd ∧ (VoiceCount s → VoiceCount t) ∧ (MemorySafe s → MemorySafe t)

/-- R280, R36: every step keeps every voice's cursor between 0 and `end` and its phase below one unit. -/
def Obligations.StepKeepsCursors : Prop :=
  ∀ s t : State, CursorSafe s → step s = .next t → CursorSafe t

/-- R301, R309, R242, R501, R204: every step keeps levels, rate codes, error codes, frequency-table entries and phase
steps in their ranges. -/
def Obligations.StepKeepsRanges : Prop :=
  ∀ s t : State, step s = .next t →
    (LevelSafe s → LevelSafe t) ∧ (CodesSafe s → CodesSafe t) ∧ (PitchSafe s → PitchSafe t)

/-- R37, R277, R278: every step keeps every differential decoder's accumulator and step index, and its snapshot, in
the declared range of its dialect. -/
def Obligations.StepKeepsDecoderState : Prop :=
  ∀ s t : State, s.vd.wf = true → DecodeSafe s → step s = .next t → DecodeSafe t

/-- R302, R313: every step keeps every inactive voice Idle and silent, on an ADSR descriptor every active voice out of
Idle, and without ADSR every voice Idle at level 0. -/
def Obligations.StepKeepsInactiveSilent : Prop :=
  ∀ s t : State, QuietSafe s → step s = .next t → QuietSafe t

/-- R382, R388: every step keeps samples and voice outputs on the 16-bit scale and the frame in its s32. -/
def Obligations.StepKeepsOutputs : Prop :=
  ∀ s t : State, s.vd.wf = true → VoiceCount s → OutputSafe s → step s = .next t → OutputSafe t

/-- R337, R41, R339: every step keeps DRQ equal to "in the request-drop state", the nibble count of a run positive,
and the BLOCK voice's bits and output equal to the FSM's. -/
def Obligations.StepKeepsHandshake : Prop :=
  ∀ s t : State, s.vd.wf = true → VoiceCount s → SeqSafe s → BlockVoiceSafe s → step s = .next t →
    SeqSafe t ∧ BlockVoiceSafe t
end

