-- ==== Sys2Proof/Laws/Decode.lean ====
section
/-!
SUPPORT. The pieces of the encodings: a u32 is its four bytes, and each field of a register byte is read back as it
was written.
-/
namespace Sys2Proof

/-- A u32 is the u32 of its bytes (R110). -/
theorem u32OfBytes_bytes (x : U32) :
    u32OfBytes (x.extractLsb' 0 8) (x.extractLsb' 8 8) (x.extractLsb' 16 8) (x.extractLsb' 24 8)
      = x := by
  unfold u32OfBytes
  ext i hi
  grind

@[simp] theorem panByte_code : ∀ p : BitVec 4, (panByte p).extractLsb' 4 4 = p := by
  decide +kernel

@[simp] theorem pitchLByte_fn :
    ∀ (f : BitVec 6) (h : BitVec 1), (pitchLByte f h).extractLsb' 2 6 = f := by
  decide +kernel

@[simp] theorem pitchLByte_sample :
    ∀ (f : BitVec 6) (h : BitVec 1), (pitchLByte f h).extractLsb' 0 1 = h := by
  decide +kernel

@[simp] theorem pitchHByte_oct : ∀ o f : BitVec 4, (pitchHByte o f).extractLsb' 4 4 = o := by
  decide +kernel

@[simp] theorem pitchHByte_fn : ∀ o f : BitVec 4, (pitchHByte o f).extractLsb' 0 4 = f := by
  decide +kernel

@[simp] theorem tlByte_level :
    ∀ (l : BitVec 7) (d : BitVec 1), (tlByte l d).extractLsb' 1 7 = l := by
  decide +kernel

@[simp] theorem tlByte_ld : ∀ (l : BitVec 7) (d : BitVec 1), (tlByte l d).extractLsb' 0 1 = d := by
  decide +kernel

@[simp] theorem bitByte_bit : ∀ b : BitVec 1, (bitByte b).extractLsb' 0 1 = b := by
  decide +kernel

@[simp] theorem bytesOfU32_length (x : U32) : (bytesOfU32 x).length = 4 := rfl

end Sys2Proof
end

