-- ==== Sys2Proof/Laws/Descriptor.lean ====
section
/-!
SUPPORT. What a valid descriptor gives (R8-R24), in the form the invariants use it.
-/
namespace Sys2Proof.Machine

/-- A valid dialect: a range around 0 that needs no clamp on the 16-bit scale (R23, R279). -/
theorem Dialect.wf_range {d : Dialect} (h : d.wf = true) :
    d.accMin < 0 ∧ 0 < d.accMax ∧ d.accMax * 2 ^ d.norm ≤ 32767 ∧ -32768 ≤ d.accMin * 2 ^ d.norm := by
  unfold Dialect.wf at h
  simp only [Bool.and_eq_true, decide_eq_true_eq] at h
  exact ⟨h.1.1.1.1.1.2, h.1.1.1.1.2, h.1.2, h.2⟩

/-- A valid descriptor without BLOCK meets the constraints on voices. -/
theorem wf_voices {vd : Variant} (h : vd.wf = true) (hb : isBlock vd = false) :
    vd.voicesWf = true := by
  unfold Variant.wf at h
  rw [Bool.and_eq_true] at h
  have := h.2
  rwa [if_neg (by unfold isBlock at hb; rw [hb]; simp)] at this

/-- A valid BLOCK descriptor meets the constraints on block sequencing. -/
theorem wf_block {vd : Variant} (h : vd.wf = true) (hb : isBlock vd = true) :
    vd.blockWf = true := by
  unfold Variant.wf at h
  rw [Bool.and_eq_true] at h
  have := h.2
  rwa [if_pos (by unfold isBlock at hb; exact hb)] at this

/-- At most 28 voices (R8). -/
theorem wf_nVoices {vd : Variant} (h : vd.wf = true) : 0 < vd.nVoices ∧ vd.nVoices ≤ 28 := by
  unfold Variant.wf at h
  simp only [Bool.and_eq_true] at h
  have := h.1.1.1.1.1
  rw [List.contains_iff_mem] at this
  simp only [List.mem_cons, List.not_mem_nil, or_false] at this
  omega

theorem wf_outMaskBits {vd : Variant} (h : vd.wf = true) : vd.outMaskBits ≤ 15 := by
  unfold Variant.wf at h
  simp only [Bool.and_eq_true, decide_eq_true_eq] at h
  exact h.1.1.2

/-- The dialect of a playable ADPCM codec is valid (R23). -/
theorem playableCodec_dialect {vd : Variant} (h : vd.wf = true) (hb : isBlock vd = false)
    {code : BitVec 3} {c : Codec} (hc : playableCodec vd code = some c) {d : Dialect}
    (hd : dialectOf vd c = some d) : d.wf = true := by
  have hm : vd.codecs.contains (.voice c) = true := by
    unfold playableCodec at hc
    split at hc
    · cases hc
    · split at hc
      · simp only [Option.some.injEq] at hc; subst hc; assumption
      · cases hc
  have hv := wf_voices h hb
  unfold Variant.voicesWf at hv
  simp only [Bool.and_eq_true, Bool.or_eq_true, Bool.not_eq_true'] at hv
  cases c <;> simp only [dialectOf, Option.some.injEq, reduceCtorEq] at hd <;> subst hd
  · exact hv.1.1.2.resolve_left (by rw [hm]; simp)
  · exact hv.1.2.resolve_left (by rw [hm]; simp)
  · exact hv.2.resolve_left (by rw [hm]; simp)

/-- The dialect of the block stream is valid (R24). -/
theorem seqDialect_wf {vd : Variant} (h : vd.wf = true) (hb : isBlock vd = true) :
    (seqDialect vd).wf = true := by
  have := wf_block h hb
  unfold Variant.blockWf at this
  simp only [Bool.and_eq_true] at this
  exact this.1.1.1.1.2

/-- Every entry of the exponential table is a Q12 factor up to 1, so the gain is one (R20, R310). -/
theorem gain_le {vd : Variant} (h : vd.wf = true) (hb : isBlock vd = false) (V : Voice) :
    gain vd V ≤ 4096 := by
  have hv := wf_voices h hb
  unfold Variant.voicesWf at hv
  simp only [Bool.and_eq_true, Bool.or_eq_true, bne_iff_ne, ne_eq, List.all_eq_true,
    decide_eq_true_eq] at hv
  unfold gain
  split
  · rename_i he
    have hx := (hv.1.1.1.1.2.resolve_left (by simp [he])).1.2
    rw [List.getD_eq_getElem?_getD]
    cases hg : vd.exp[V.level / 2 ^ 16]? with
    | none => simp
    | some g => exact hx g (List.mem_of_getElem? hg)
  · exact le_rfl
  · exact le_rfl

/-- Both factors of a pan/volume entry are Q12 factors up to 1 (R22, R311). -/
theorem panVolOf_le {vd : Variant} (h : vd.wf = true) (hb : isBlock vd = false) (V : Voice) :
    (panVolOf vd V).1 ≤ 4096 ∧ (panVolOf vd V).2 ≤ 4096 := by
  have hv := wf_voices h hb
  unfold Variant.voicesWf panVolWf at hv
  simp only [Bool.and_eq_true, List.all_eq_true, decide_eq_true_eq] at hv
  have hp := hv.1.1.1.1.1.1.1.2.1.1.2
  unfold panVolOf
  rw [List.getD_eq_getElem?_getD]
  cases hg : (vd.panVol.getD (V.tlCur / 2 ^ 16) [])[V.pan.toNat]? with
  | none => simp
  | some g =>
    rw [List.getD_eq_getElem?_getD] at hg
    cases hr : vd.panVol[V.tlCur / 2 ^ 16]? with
    | none => rw [hr] at hg; simp at hg
    | some r =>
      rw [hr] at hg
      exact (hp r (List.mem_of_getElem? hr)).2 g (List.mem_of_getElem? hg)

/-- The accumulator of a dialect stays in its range, the step index in its own (R277, R278). -/
theorem adpcmAccumulate_range {d : Dialect} (h : d.accMin ≤ d.accMax) (acc : Int) (neg : Bool)
    (mag : Nat) :
    d.accMin ≤ adpcmAccumulate d acc neg mag ∧ adpcmAccumulate d acc neg mag ≤ d.accMax := by
  unfold adpcmAccumulate clamp
  omega

theorem adpcmIndex_le (d : Dialect) (sidx m : Nat) : adpcmIndex d sidx m ≤ d.idxMax := by
  unfold adpcmIndex clamp
  omega

end Sys2Proof.Machine
end

