-- ==== Sys2Proof/Laws/Waveform.lean ====
section
/-!
SUPPORT. The decode engine: what decoding a unit, the snapshot and the wrap leave alone, and what a fetch, a run
of fetches and a tick's advance can do to a voice.
-/
namespace Sys2Proof.Machine

/-! ## One unit -/

/-- The voice but for its decode state: cursor, two samples, accumulator, step index, snapshot. -/
def Voice.sameShell (V W : Voice) : Prop :=
  W = { V with
    pos := W.pos, prev := W.prev, cur := W.cur, acc := W.acc, sidx := W.sidx
    snapValid := W.snapValid, snapAcc := W.snapAcc, snapIdx := W.snapIdx }

theorem Voice.sameShell_refl (V : Voice) : V.sameShell V := rfl

theorem Voice.sameShell_trans {V W X : Voice} (h : V.sameShell W) (h' : W.sameShell X) :
    V.sameShell X := by
  unfold Voice.sameShell at *
  rw [h', h]

/-- Decoding a unit moves the cursor by one, shifts the two samples and changes at most accumulator and step
index besides (R264). -/
theorem decodeUnit_spec (s : State) (V : Voice) :
    decodeUnit s V =
      { V with
        pos := V.pos + 1, prev := V.cur, cur := (decodeUnit s V).cur
        acc := (decodeUnit s V).acc, sidx := (decodeUnit s V).sidx } := by
  unfold decodeUnit
  split <;> rfl

@[simp] theorem decodeUnit_pos (s : State) (V : Voice) : (decodeUnit s V).pos = V.pos + 1 := by
  rw [decodeUnit_spec]

@[simp] theorem decodeUnit_prev (s : State) (V : Voice) : (decodeUnit s V).prev = V.cur := by
  rw [decodeUnit_spec]

theorem decodeUnit_shell (s : State) (V : Voice) : V.sameShell (decodeUnit s V) := by
  unfold Voice.sameShell
  rw [decodeUnit_spec]

/-- The snapshot of a decode state, if it is taken (R264, R281). -/
theorem takeSnapshot_cases (vd : Variant) (V : Voice) :
    takeSnapshot vd V = V
      ∨ (dialectOf vd V.codec).isSome = true
        ∧ takeSnapshot vd V = { V with snapAcc := V.acc, snapIdx := V.sidx, snapValid := true } := by
  unfold takeSnapshot
  split
  · rename_i h
    simp only [Bool.and_eq_true] at h
    exact .inr ⟨h.1.1.1, rfl⟩
  · exact .inl rfl

@[simp] theorem takeSnapshot_pos (vd : Variant) (V : Voice) : (takeSnapshot vd V).pos = V.pos := by
  rcases takeSnapshot_cases vd V with h | ⟨-, h⟩ <;> rw [h]

theorem takeSnapshot_shell (vd : Variant) (V : Voice) : V.sameShell (takeSnapshot vd V) := by
  rcases takeSnapshot_cases vd V with h | ⟨-, h⟩ <;> rw [h] <;> rfl

/-- A wrap sets the cursor to the loop start and may restore the snapshot (R264, R281). -/
theorem wrap_cases (vd : Variant) (V : Voice) :
    V.wrap vd = { V with pos := V.loopStart }
      ∨ (dialectOf vd V.codec).isSome = true
        ∧ V.wrap vd = { V with pos := V.loopStart, acc := V.snapAcc, sidx := V.snapIdx } := by
  unfold Voice.wrap restoreSnapshot
  simp only
  split
  · exact .inl rfl
  · rename_i h
    split
    · exact .inr ⟨by rw [h]; rfl, rfl⟩
    · exact .inl rfl

@[simp] theorem wrap_pos (vd : Variant) (V : Voice) : (V.wrap vd).pos = V.loopStart := by
  rcases wrap_cases vd V with h | ⟨-, h⟩ <;> rw [h]

theorem wrap_shell (vd : Variant) (V : Voice) : V.sameShell (V.wrap vd) := by
  rcases wrap_cases vd V with h | ⟨-, h⟩ <;> rw [h] <;> rfl

/-! ## One fetch -/

/-- What a fetch does: a wrap and a decode at the end of a looping voice, a halt at the end of another, a
decode before the end (R264). -/
theorem fetchUnit_cases (s : State) (V : Voice) :
    (V.endPos ≤ V.pos ∧ V.wraps = true
        ∧ fetchUnit s V = decodeUnit s (takeSnapshot s.vd (V.wrap s.vd)))
      ∨ (V.endPos ≤ V.pos ∧ V.wraps = false ∧ fetchUnit s V = V.deactivate)
      ∨ (V.pos < V.endPos ∧ fetchUnit s V = decodeUnit s (takeSnapshot s.vd V)) := by
  unfold fetchUnit
  by_cases h : V.endPos ≤ V.pos
  · cases hw : V.wraps <;> simp [h]
  · simp [h]; omega

/-- A fetch changes nothing but the decode state, or halts the voice (R264, R265). -/
theorem fetchUnit_shell (s : State) (V : Voice) :
    fetchUnit s V = V.deactivate ∨ V.sameShell (fetchUnit s V) := by
  rcases fetchUnit_cases s V with ⟨-, -, h⟩ | ⟨-, -, h⟩ | ⟨-, h⟩ <;> rw [h]
  · exact .inr (Voice.sameShell_trans
      (Voice.sameShell_trans (wrap_shell ..) (takeSnapshot_shell ..)) (decodeUnit_shell ..))
  · exact .inl rfl
  · exact .inr (Voice.sameShell_trans (takeSnapshot_shell ..) (decodeUnit_shell ..))

/-! ## A tick's fetches -/

/-- A property every fetch keeps is kept by a run of fetches (R261). -/
theorem fetchUnits_induct {s : State} {P : Voice → Prop} (hP : ∀ V, P V → P (fetchUnit s V))
    (n : Nat) {V : Voice} (h : P V) : P (fetchUnits s n V) := by
  induction n generalizing V with
  | zero => exact h
  | succ n ih =>
    unfold fetchUnits
    split
    · exact ih (hP V h)
    · exact hP V h

/-- A property that does not read the phase, and that every fetch keeps, is kept by a tick's advance. -/
theorem advanceVoice_induct {s : State} {P : Voice → Prop} (hP : ∀ V, P V → P (fetchUnit s V))
    {V : Voice} (h : P { V with phase := (V.phase + V.step) % 4096 }) : P (advanceVoice s V) :=
  fetchUnits_induct hP _ h

theorem fetchUnits_shell (s : State) (n : Nat) (V : Voice) :
    (fetchUnits s n V).active = false ∧ (fetchUnits s n V).stage = .idle
        ∧ (fetchUnits s n V).outL = 0 ∧ (fetchUnits s n V).outR = 0
      ∨ V.sameShell (fetchUnits s n V) := by
  induction n generalizing V with
  | zero => exact .inr rfl
  | succ n ih =>
    unfold fetchUnits
    rcases fetchUnit_shell s V with h | h
    · rw [h]; exact .inl ⟨rfl, rfl, rfl, rfl⟩
    · split
      · rcases ih (fetchUnit s V) with h' | h'
        · exact .inl h'
        · exact .inr (Voice.sameShell_trans h h')
      · exact .inr h

/-- The advance of a voice that stays active changes its phase and its decode state and nothing else (R261). -/
theorem advanceVoice_shell {s : State} {V : Voice} (h : (advanceVoice s V).active = true) :
    Voice.sameShell { V with phase := (V.phase + V.step) % 4096 } (advanceVoice s V) := by
  rcases fetchUnits_shell s ((V.phase + V.step) / 4096)
      { V with phase := (V.phase + V.step) % 4096 } with h' | h'
  · have := h'.1
    unfold advanceVoice at h
    rw [h] at this; cases this
  · exact h'

end Sys2Proof.Machine
end

