-- ==== Sys2Proof/Laws/Envelope.lean ====
section
/-!
SUPPORT. The amplitude stages: what the ramp, an envelope step, the output and a voice's whole tick can change.
-/
namespace Sys2Proof.Machine

/-- The level the ramp moves to (R300). -/
def rampedLevel (vd : Variant) (V : Voice) : Nat :=
  if V.tlCur < tlTarget V then min (V.tlCur + vd.rampFall) (tlTarget V)
  else max (V.tlCur - vd.rampRise) (tlTarget V)

/-- The ramp changes the current total level and nothing else (R300). -/
theorem ramp_spec (vd : Variant) (V : Voice) : ramp vd V = { V with tlCur := rampedLevel vd V } := by
  unfold ramp rampedLevel
  by_cases h : V.tlCur < tlTarget V
  · rw [if_pos h, if_pos h]
  · rw [if_neg h, if_neg h]
    by_cases h' : tlTarget V < V.tlCur
    · rw [if_pos h']
    · rw [if_neg h', show max (V.tlCur - vd.rampRise) (tlTarget V) = V.tlCur by omega]

/-- A total level in 0..127 stays there (R301). -/
theorem rampedLevel_le {vd : Variant} {V : Voice} (h : V.tlCur ≤ 127 * 2 ^ 16) :
    rampedLevel vd V ≤ 127 * 2 ^ 16 := by
  have ht : tlTarget V ≤ 127 * 2 ^ 16 := by
    unfold tlTarget
    have := V.tlTgt.isLt
    omega
  unfold rampedLevel
  split <;> omega

theorem attackLevel_le (s : State) (V : Voice) : attackLevel s V ≤ levelMax := by
  unfold attackLevel
  split <;> omega

/-- An envelope step changes level and stage, or ends the voice at level 0 (R304). -/
theorem envelope_spec (s : State) (V : Voice) :
    envelope s V = { V with level := (envelope s V).level, stage := (envelope s V).stage }
      ∨ envelope s V = Voice.deactivate { V with level := 0 } := by
  unfold envelope
  split
  · exact .inl rfl
  · unfold decay1Step; simp only; split <;> exact .inl rfl
  · unfold decay2Step; split <;> exact .inl rfl
  · unfold releaseStep; simp only
    split
    · exact .inr rfl
    · exact .inl rfl
  · exact .inl rfl

/-- The level stays between 0 and full scale (R309). -/
theorem envelope_level_le {s : State} {V : Voice} (h : V.level ≤ levelMax) (hd : V.dlt ≤ levelMax) :
    (envelope s V).level ≤ levelMax := by
  unfold envelope
  split
  · exact attackLevel_le s V
  · unfold decay1Step; simp only; split
    · exact hd
    · simp only; omega
  · unfold decay2Step; split
    · exact h
    · simp only; omega
  · unfold releaseStep; simp only; split
    · simp [Voice.deactivate]
    · simp only; omega
  · exact h

/-- An active voice out of Idle is, after its envelope step, still so or inactive, Idle and silent (R304). -/
theorem envelope_stage {s : State} {V : Voice} (h : V.stage ≠ .idle) :
    (envelope s V).stage ≠ .idle
      ∨ (envelope s V).active = false ∧ (envelope s V).stage = .idle := by
  unfold envelope
  cases hs : V.stage with
  | attack =>
    left
    simp only [attackStep, hs]
    split
    · split <;> simp
    · simp
  | decay1 => left; simp only [decay1Step]; split <;> simp [hs]
  | decay2 => left; simp only [decay2Step]; split <;> simp [hs]
  | release =>
    simp only [releaseStep]
    split
    · right; exact ⟨rfl, rfl⟩
    · left; simp [hs]
  | idle => exact absurd hs h

/-- The voice output writes the two outputs only, zeros for an inactive voice (R312). -/
theorem voiceOutput_spec (vd : Variant) (V : Voice) (x : Int) :
    voiceOutput vd V x =
      { V with outL := (voiceOutput vd V x).outL, outR := (voiceOutput vd V x).outR } := by
  unfold voiceOutput
  split <;> rfl

theorem voiceOutput_inactive {vd : Variant} {V : Voice} {x : Int} (h : V.active = false) :
    (voiceOutput vd V x).outL = 0 ∧ (voiceOutput vd V x).outR = 0 := by
  simp [voiceOutput, h]

/-- Scaling by a Q12 factor up to 1 keeps a value on the 16-bit scale (R310-R312). -/
theorem scale_range {x : Int} {g : Nat} (h : -32768 ≤ x ∧ x ≤ 32767) (hg : g ≤ 4096) :
    -32768 ≤ asr (x * g) 12 ∧ asr (x * g) 12 ≤ 32767 := by
  unfold asr
  have h0 : (0 : Int) ≤ g := by omega
  have h1 : (g : Int) ≤ 4096 := by omega
  have hlo : -32768 * 4096 ≤ x * g := by nlinarith
  have hhi : x * g ≤ 32767 * 4096 := by nlinarith
  norm_num
  omega

/-- What a tick makes of an active voice: it is halted at its end, or advanced, shaped and put out (R381). -/
theorem voiceTick_cases (s : State) (V : Voice) :
    ((advanceVoice s V).active = false ∧ voiceTick s V = voiceOutput s.vd (advanceVoice s V) 0)
      ∨ (advanceVoice s V).active = true
        ∧ voiceTick s V =
            voiceOutput s.vd (shape s (advanceVoice s V)) (voiceSample (advanceVoice s V)) := by
  unfold voiceTick
  cases h : (advanceVoice s V).active <;> simp

/-- A property of voices that does not read phase and outputs, and that fetches, ramp and envelope step keep,
is kept by a voice's tick (R381). -/
theorem voiceTick_induct {s : State} {P : Voice → Prop}
    (hphase : ∀ V f, P V → P { V with phase := f }) (hfetch : ∀ V, P V → P (fetchUnit s V))
    (hramp : ∀ V, P V → P (ramp s.vd V)) (henv : ∀ V, P V → P (envelope s V))
    (hout : ∀ V l r, P V → P { V with outL := l, outR := r }) {V : Voice} (h : P V) :
    P (voiceTick s V) := by
  have ha : P (advanceVoice s V) := advanceVoice_induct hfetch (hphase V _ h)
  rcases voiceTick_cases s V with ⟨-, h'⟩ | ⟨-, h'⟩ <;> rw [h', voiceOutput_spec] <;> apply hout
  · exact ha
  · unfold shape
    split
    · exact hramp _ ha
    · exact henv _ (hramp _ ha)
    · exact ha

end Sys2Proof.Machine
end

