-- ==== Sys2Proof/Laws/State.lean ====
section
/-!
SUPPORT. The small lemmas of the record updates: one per field per update, true by `rfl`.
-/
namespace Sys2Proof.Machine

/-! ## Updates of the state -/

@[simp] theorem State.setVoice_vd (s : State) (v : Nat) (V : Voice) : (s.setVoice v V).vd = s.vd := rfl
@[simp] theorem State.setV0_vd (s : State) (V : Voice) : (s.setV0 V).vd = s.vd := rfl
@[simp] theorem State.setVoice_g (s : State) (v : Nat) (V : Voice) : (s.setVoice v V).g = s.g := rfl
@[simp] theorem State.setV0_g (s : State) (V : Voice) : (s.setV0 V).g = s.g := rfl
@[simp] theorem State.setVoice_rom (s : State) (v : Nat) (V : Voice) : (s.setVoice v V).rom = s.rom := rfl
@[simp] theorem State.setV0_rom (s : State) (V : Voice) : (s.setV0 V).rom = s.rom := rfl
@[simp] theorem State.setVoice_tables (s : State) (v : Nat) (V : Voice) : (s.setVoice v V).tables = s.tables := rfl
@[simp] theorem State.setV0_tables (s : State) (V : Voice) : (s.setV0 V).tables = s.tables := rfl
@[simp] theorem State.setVoice_seq (s : State) (v : Nat) (V : Voice) : (s.setVoice v V).seq = s.seq := rfl
@[simp] theorem State.setV0_seq (s : State) (V : Voice) : (s.setV0 V).seq = s.seq := rfl
@[simp] theorem State.setVoice_input (s : State) (v : Nat) (V : Voice) : (s.setVoice v V).input = s.input := rfl
@[simp] theorem State.setV0_input (s : State) (V : Voice) : (s.setV0 V).input = s.input := rfl
@[simp] theorem State.setVoice_result (s : State) (v : Nat) (V : Voice) : (s.setVoice v V).result = s.result := rfl
@[simp] theorem State.setV0_result (s : State) (V : Voice) : (s.setV0 V).result = s.result := rfl
@[simp] theorem State.setVoice_voices (s : State) (v : Nat) (V : Voice) : (s.setVoice v V).voices = s.voices.set v V := rfl
@[simp] theorem State.setV0_voices (s : State) (V : Voice) : (s.setV0 V).voices = s.voices.set 0 V := rfl
@[simp] theorem State.consumed_vd (s : State) (rest : List Byte) : (s.consumed rest).vd = s.vd := rfl
@[simp] theorem State.consumed_g (s : State) (rest : List Byte) : (s.consumed rest).g = s.g := rfl
@[simp] theorem State.consumed_rom (s : State) (rest : List Byte) : (s.consumed rest).rom = s.rom := rfl
@[simp] theorem State.consumed_tables (s : State) (rest : List Byte) : (s.consumed rest).tables = s.tables := rfl
@[simp] theorem State.consumed_voices (s : State) (rest : List Byte) : (s.consumed rest).voices = s.voices := rfl
@[simp] theorem State.consumed_seq (s : State) (rest : List Byte) : (s.consumed rest).seq = s.seq := rfl
@[simp] theorem State.consumed_result (s : State) (rest : List Byte) : (s.consumed rest).result = s.result := rfl
@[simp] theorem State.consumed_input (s : State) (rest : List Byte) : (s.consumed rest).input = rest := rfl

/-! ## Updates of the sequencer -/

@[simp] theorem req_vd (n : SeqState) (c : Nat) (s : State) : (req n c s).vd = s.vd := rfl
@[simp] theorem req_g (n : SeqState) (c : Nat) (s : State) : (req n c s).g = s.g := rfl
@[simp] theorem req_rom (n : SeqState) (c : Nat) (s : State) : (req n c s).rom = s.rom := rfl
@[simp] theorem req_tables (n : SeqState) (c : Nat) (s : State) : (req n c s).tables = s.tables := rfl
@[simp] theorem req_voices (n : SeqState) (c : Nat) (s : State) : (req n c s).voices = s.voices := rfl
@[simp] theorem req_input (n : SeqState) (c : Nat) (s : State) : (req n c s).input = s.input := rfl
@[simp] theorem req_result (n : SeqState) (c : Nat) (s : State) : (req n c s).result = s.result := rfl
@[simp] theorem req_seq_st (n : SeqState) (c : Nat) (s : State) : (req n c s).seq.st = .dropDRQ := rfl
@[simp] theorem req_seq_cd (n : SeqState) (c : Nat) (s : State) : (req n c s).seq.cd = s.vd.latDrop := rfl
@[simp] theorem req_seq_ret (n : SeqState) (c : Nat) (s : State) : (req n c s).seq.ret = n := rfl
@[simp] theorem req_seq_retCd (n : SeqState) (c : Nat) (s : State) : (req n c s).seq.retCd = c := rfl
@[simp] theorem req_seq_idxReg (n : SeqState) (c : Nat) (s : State) : (req n c s).seq.idxReg = s.seq.idxReg := rfl
@[simp] theorem req_seq_cursor (n : SeqState) (c : Nat) (s : State) : (req n c s).seq.cursor = s.seq.cursor := rfl
@[simp] theorem req_seq_ptrHi (n : SeqState) (c : Nat) (s : State) : (req n c s).seq.ptrHi = s.seq.ptrHi := rfl
@[simp] theorem req_seq_lbValid (n : SeqState) (c : Nat) (s : State) : (req n c s).seq.lbValid = s.seq.lbValid := rfl
@[simp] theorem req_seq_lbAddr (n : SeqState) (c : Nat) (s : State) : (req n c s).seq.lbAddr = s.seq.lbAddr := rfl
@[simp] theorem req_seq_repActive (n : SeqState) (c : Nat) (s : State) : (req n c s).seq.repActive = s.seq.repActive := rfl
@[simp] theorem req_seq_repAddr (n : SeqState) (c : Nat) (s : State) : (req n c s).seq.repAddr = s.seq.repAddr := rfl
@[simp] theorem req_seq_repCount (n : SeqState) (c : Nat) (s : State) : (req n c s).seq.repCount = s.seq.repCount := rfl
@[simp] theorem req_seq_nibLeft (n : SeqState) (c : Nat) (s : State) : (req n c s).seq.nibLeft = s.seq.nibLeft := rfl
@[simp] theorem req_seq_period (n : SeqState) (c : Nat) (s : State) : (req n c s).seq.period = s.seq.period := rfl
@[simp] theorem req_seq_latch (n : SeqState) (c : Nat) (s : State) : (req n c s).seq.latch = s.seq.latch := rfl
@[simp] theorem req_seq_silent (n : SeqState) (c : Nat) (s : State) : (req n c s).seq.silent = s.seq.silent := rfl
@[simp] theorem req_seq_drq (n : SeqState) (c : Nat) (s : State) : (req n c s).seq.drq = true := rfl
@[simp] theorem rdNext_vd (s : State) : (rdNext s).vd = s.vd := rfl
@[simp] theorem rdNext_g (s : State) : (rdNext s).g = s.g := rfl
@[simp] theorem rdNext_rom (s : State) : (rdNext s).rom = s.rom := rfl
@[simp] theorem rdNext_tables (s : State) : (rdNext s).tables = s.tables := rfl
@[simp] theorem rdNext_voices (s : State) : (rdNext s).voices = s.voices := rfl
@[simp] theorem rdNext_input (s : State) : (rdNext s).input = s.input := rfl
@[simp] theorem rdNext_result (s : State) : (rdNext s).result = s.result := rfl
@[simp] theorem rdNext_seq_st (s : State) : (rdNext s).seq.st = s.seq.st := rfl
@[simp] theorem rdNext_seq_cd (s : State) : (rdNext s).seq.cd = s.seq.cd := rfl
@[simp] theorem rdNext_seq_ret (s : State) : (rdNext s).seq.ret = s.seq.ret := rfl
@[simp] theorem rdNext_seq_retCd (s : State) : (rdNext s).seq.retCd = s.seq.retCd := rfl
@[simp] theorem rdNext_seq_idxReg (s : State) : (rdNext s).seq.idxReg = s.seq.idxReg := rfl
@[simp] theorem rdNext_seq_cursor (s : State) : (rdNext s).seq.cursor = s.seq.cursor + 1 := rfl
@[simp] theorem rdNext_seq_ptrHi (s : State) : (rdNext s).seq.ptrHi = s.seq.ptrHi := rfl
@[simp] theorem rdNext_seq_lbValid (s : State) : (rdNext s).seq.lbValid = s.seq.lbValid := rfl
@[simp] theorem rdNext_seq_lbAddr (s : State) : (rdNext s).seq.lbAddr = s.seq.lbAddr := rfl
@[simp] theorem rdNext_seq_repActive (s : State) : (rdNext s).seq.repActive = s.seq.repActive := rfl
@[simp] theorem rdNext_seq_repAddr (s : State) : (rdNext s).seq.repAddr = s.seq.repAddr := rfl
@[simp] theorem rdNext_seq_repCount (s : State) : (rdNext s).seq.repCount = s.seq.repCount := rfl
@[simp] theorem rdNext_seq_nibLeft (s : State) : (rdNext s).seq.nibLeft = s.seq.nibLeft := rfl
@[simp] theorem rdNext_seq_period (s : State) : (rdNext s).seq.period = s.seq.period := rfl
@[simp] theorem rdNext_seq_latch (s : State) : (rdNext s).seq.latch = s.seq.latch := rfl
@[simp] theorem rdNext_seq_silent (s : State) : (rdNext s).seq.silent = s.seq.silent := rfl
@[simp] theorem rdNext_seq_drq (s : State) : (rdNext s).seq.drq = s.seq.drq := rfl
@[simp] theorem goto_vd (n : SeqState) (c : Nat) (s : State) : (goto n c s).vd = s.vd := rfl
@[simp] theorem goto_g (n : SeqState) (c : Nat) (s : State) : (goto n c s).g = s.g := rfl
@[simp] theorem goto_rom (n : SeqState) (c : Nat) (s : State) : (goto n c s).rom = s.rom := rfl
@[simp] theorem goto_tables (n : SeqState) (c : Nat) (s : State) : (goto n c s).tables = s.tables := rfl
@[simp] theorem goto_voices (n : SeqState) (c : Nat) (s : State) : (goto n c s).voices = s.voices := rfl
@[simp] theorem goto_input (n : SeqState) (c : Nat) (s : State) : (goto n c s).input = s.input := rfl
@[simp] theorem goto_result (n : SeqState) (c : Nat) (s : State) : (goto n c s).result = s.result := rfl
@[simp] theorem goto_seq_st (n : SeqState) (c : Nat) (s : State) : (goto n c s).seq.st = n := rfl
@[simp] theorem goto_seq_cd (n : SeqState) (c : Nat) (s : State) : (goto n c s).seq.cd = c := rfl
@[simp] theorem goto_seq_ret (n : SeqState) (c : Nat) (s : State) : (goto n c s).seq.ret = s.seq.ret := rfl
@[simp] theorem goto_seq_retCd (n : SeqState) (c : Nat) (s : State) : (goto n c s).seq.retCd = s.seq.retCd := rfl
@[simp] theorem goto_seq_idxReg (n : SeqState) (c : Nat) (s : State) : (goto n c s).seq.idxReg = s.seq.idxReg := rfl
@[simp] theorem goto_seq_cursor (n : SeqState) (c : Nat) (s : State) : (goto n c s).seq.cursor = s.seq.cursor := rfl
@[simp] theorem goto_seq_ptrHi (n : SeqState) (c : Nat) (s : State) : (goto n c s).seq.ptrHi = s.seq.ptrHi := rfl
@[simp] theorem goto_seq_lbValid (n : SeqState) (c : Nat) (s : State) : (goto n c s).seq.lbValid = s.seq.lbValid := rfl
@[simp] theorem goto_seq_lbAddr (n : SeqState) (c : Nat) (s : State) : (goto n c s).seq.lbAddr = s.seq.lbAddr := rfl
@[simp] theorem goto_seq_repActive (n : SeqState) (c : Nat) (s : State) : (goto n c s).seq.repActive = s.seq.repActive := rfl
@[simp] theorem goto_seq_repAddr (n : SeqState) (c : Nat) (s : State) : (goto n c s).seq.repAddr = s.seq.repAddr := rfl
@[simp] theorem goto_seq_repCount (n : SeqState) (c : Nat) (s : State) : (goto n c s).seq.repCount = s.seq.repCount := rfl
@[simp] theorem goto_seq_nibLeft (n : SeqState) (c : Nat) (s : State) : (goto n c s).seq.nibLeft = s.seq.nibLeft := rfl
@[simp] theorem goto_seq_period (n : SeqState) (c : Nat) (s : State) : (goto n c s).seq.period = s.seq.period := rfl
@[simp] theorem goto_seq_latch (n : SeqState) (c : Nat) (s : State) : (goto n c s).seq.latch = s.seq.latch := rfl
@[simp] theorem goto_seq_silent (n : SeqState) (c : Nat) (s : State) : (goto n c s).seq.silent = s.seq.silent := rfl
@[simp] theorem goto_seq_drq (n : SeqState) (c : Nat) (s : State) : (goto n c s).seq.drq = s.seq.drq := rfl
@[simp] theorem dropDRQ_vd (s : State) : (dropDRQ s).vd = s.vd := rfl
@[simp] theorem dropDRQ_g (s : State) : (dropDRQ s).g = s.g := rfl
@[simp] theorem dropDRQ_rom (s : State) : (dropDRQ s).rom = s.rom := rfl
@[simp] theorem dropDRQ_tables (s : State) : (dropDRQ s).tables = s.tables := rfl
@[simp] theorem dropDRQ_voices (s : State) : (dropDRQ s).voices = s.voices := rfl
@[simp] theorem dropDRQ_input (s : State) : (dropDRQ s).input = s.input := rfl
@[simp] theorem dropDRQ_result (s : State) : (dropDRQ s).result = s.result := rfl
@[simp] theorem dropDRQ_seq_st (s : State) : (dropDRQ s).seq.st = s.seq.ret := rfl
@[simp] theorem dropDRQ_seq_cd (s : State) : (dropDRQ s).seq.cd = s.seq.retCd := rfl
@[simp] theorem dropDRQ_seq_ret (s : State) : (dropDRQ s).seq.ret = s.seq.ret := rfl
@[simp] theorem dropDRQ_seq_retCd (s : State) : (dropDRQ s).seq.retCd = s.seq.retCd := rfl
@[simp] theorem dropDRQ_seq_idxReg (s : State) : (dropDRQ s).seq.idxReg = s.seq.idxReg := rfl
@[simp] theorem dropDRQ_seq_cursor (s : State) : (dropDRQ s).seq.cursor = s.seq.cursor := rfl
@[simp] theorem dropDRQ_seq_ptrHi (s : State) : (dropDRQ s).seq.ptrHi = s.seq.ptrHi := rfl
@[simp] theorem dropDRQ_seq_lbValid (s : State) : (dropDRQ s).seq.lbValid = s.seq.lbValid := rfl
@[simp] theorem dropDRQ_seq_lbAddr (s : State) : (dropDRQ s).seq.lbAddr = s.seq.lbAddr := rfl
@[simp] theorem dropDRQ_seq_repActive (s : State) : (dropDRQ s).seq.repActive = s.seq.repActive := rfl
@[simp] theorem dropDRQ_seq_repAddr (s : State) : (dropDRQ s).seq.repAddr = s.seq.repAddr := rfl
@[simp] theorem dropDRQ_seq_repCount (s : State) : (dropDRQ s).seq.repCount = s.seq.repCount := rfl
@[simp] theorem dropDRQ_seq_nibLeft (s : State) : (dropDRQ s).seq.nibLeft = s.seq.nibLeft := rfl
@[simp] theorem dropDRQ_seq_period (s : State) : (dropDRQ s).seq.period = s.seq.period := rfl
@[simp] theorem dropDRQ_seq_latch (s : State) : (dropDRQ s).seq.latch = s.seq.latch := rfl
@[simp] theorem dropDRQ_seq_silent (s : State) : (dropDRQ s).seq.silent = s.seq.silent := rfl
@[simp] theorem dropDRQ_seq_drq (s : State) : (dropDRQ s).seq.drq = false := rfl
@[simp] theorem countNibble_vd (s : State) : (countNibble s).vd = s.vd := rfl
@[simp] theorem countNibble_g (s : State) : (countNibble s).g = s.g := rfl
@[simp] theorem countNibble_rom (s : State) : (countNibble s).rom = s.rom := rfl
@[simp] theorem countNibble_tables (s : State) : (countNibble s).tables = s.tables := rfl
@[simp] theorem countNibble_voices (s : State) : (countNibble s).voices = s.voices := rfl
@[simp] theorem countNibble_input (s : State) : (countNibble s).input = s.input := rfl
@[simp] theorem countNibble_result (s : State) : (countNibble s).result = s.result := rfl
@[simp] theorem countNibble_seq_st (s : State) : (countNibble s).seq.st = s.seq.st := rfl
@[simp] theorem countNibble_seq_cd (s : State) : (countNibble s).seq.cd = s.seq.cd := rfl
@[simp] theorem countNibble_seq_ret (s : State) : (countNibble s).seq.ret = s.seq.ret := rfl
@[simp] theorem countNibble_seq_retCd (s : State) : (countNibble s).seq.retCd = s.seq.retCd := rfl
@[simp] theorem countNibble_seq_idxReg (s : State) : (countNibble s).seq.idxReg = s.seq.idxReg := rfl
@[simp] theorem countNibble_seq_cursor (s : State) : (countNibble s).seq.cursor = s.seq.cursor := rfl
@[simp] theorem countNibble_seq_ptrHi (s : State) : (countNibble s).seq.ptrHi = s.seq.ptrHi := rfl
@[simp] theorem countNibble_seq_lbValid (s : State) : (countNibble s).seq.lbValid = s.seq.lbValid := rfl
@[simp] theorem countNibble_seq_lbAddr (s : State) : (countNibble s).seq.lbAddr = s.seq.lbAddr := rfl
@[simp] theorem countNibble_seq_repActive (s : State) : (countNibble s).seq.repActive = s.seq.repActive := rfl
@[simp] theorem countNibble_seq_repAddr (s : State) : (countNibble s).seq.repAddr = s.seq.repAddr := rfl
@[simp] theorem countNibble_seq_repCount (s : State) : (countNibble s).seq.repCount = s.seq.repCount := rfl
@[simp] theorem countNibble_seq_nibLeft (s : State) : (countNibble s).seq.nibLeft = s.seq.nibLeft - 1 := rfl
@[simp] theorem countNibble_seq_period (s : State) : (countNibble s).seq.period = s.seq.period := rfl
@[simp] theorem countNibble_seq_latch (s : State) : (countNibble s).seq.latch = s.seq.latch := rfl
@[simp] theorem countNibble_seq_silent (s : State) : (countNibble s).seq.silent = s.seq.silent := rfl
@[simp] theorem countNibble_seq_drq (s : State) : (countNibble s).seq.drq = s.seq.drq := rfl
@[simp] theorem seqNibble_vd (x : BitVec 4) (s : State) : (seqNibble x s).vd = s.vd := rfl
@[simp] theorem seqNibble_g (x : BitVec 4) (s : State) : (seqNibble x s).g = s.g := rfl
@[simp] theorem seqNibble_rom (x : BitVec 4) (s : State) : (seqNibble x s).rom = s.rom := rfl
@[simp] theorem seqNibble_tables (x : BitVec 4) (s : State) : (seqNibble x s).tables = s.tables := rfl
@[simp] theorem seqNibble_input (x : BitVec 4) (s : State) : (seqNibble x s).input = s.input := rfl
@[simp] theorem seqNibble_result (x : BitVec 4) (s : State) : (seqNibble x s).result = s.result := rfl
@[simp] theorem seqNibble_seq (x : BitVec 4) (s : State) : (seqNibble x s).seq = s.seq := rfl
@[simp] theorem seqNibble_voices (x : BitVec 4) (s : State) : (seqNibble x s).voices = s.voices.set 0 (s.v0.adpcmStep (seqDialect s.vd) x) := rfl

/-! ## Updates of a voice -/

@[simp] theorem Voice.deactivate_pan (V : Voice) : V.deactivate.pan = V.pan := rfl
@[simp] theorem Voice.deactivate_sample (V : Voice) : V.deactivate.sample = V.sample := rfl
@[simp] theorem Voice.deactivate_fn (V : Voice) : V.deactivate.fn = V.fn := rfl
@[simp] theorem Voice.deactivate_oct (V : Voice) : V.deactivate.oct = V.oct := rfl
@[simp] theorem Voice.deactivate_tlTgt (V : Voice) : V.deactivate.tlTgt = V.tlTgt := rfl
@[simp] theorem Voice.deactivate_lfo (V : Voice) : V.deactivate.lfo = V.lfo := rfl
@[simp] theorem Voice.deactivate_am (V : Voice) : V.deactivate.am = V.am := rfl
@[simp] theorem Voice.deactivate_active (V : Voice) : V.deactivate.active = false := rfl
@[simp] theorem Voice.deactivate_keyed (V : Voice) : V.deactivate.keyed = V.keyed := rfl
@[simp] theorem Voice.deactivate_codec (V : Voice) : V.deactivate.codec = V.codec := rfl
@[simp] theorem Voice.deactivate_loopEn (V : Voice) : V.deactivate.loopEn = V.loopEn := rfl
@[simp] theorem Voice.deactivate_start (V : Voice) : V.deactivate.start = V.start := rfl
@[simp] theorem Voice.deactivate_loopStart (V : Voice) : V.deactivate.loopStart = V.loopStart := rfl
@[simp] theorem Voice.deactivate_endPos (V : Voice) : V.deactivate.endPos = V.endPos := rfl
@[simp] theorem Voice.deactivate_pos (V : Voice) : V.deactivate.pos = V.pos := rfl
@[simp] theorem Voice.deactivate_phase (V : Voice) : V.deactivate.phase = V.phase := rfl
@[simp] theorem Voice.deactivate_step (V : Voice) : V.deactivate.step = V.step := rfl
@[simp] theorem Voice.deactivate_prev (V : Voice) : V.deactivate.prev = V.prev := rfl
@[simp] theorem Voice.deactivate_cur (V : Voice) : V.deactivate.cur = V.cur := rfl
@[simp] theorem Voice.deactivate_acc (V : Voice) : V.deactivate.acc = V.acc := rfl
@[simp] theorem Voice.deactivate_sidx (V : Voice) : V.deactivate.sidx = V.sidx := rfl
@[simp] theorem Voice.deactivate_snapValid (V : Voice) : V.deactivate.snapValid = V.snapValid := rfl
@[simp] theorem Voice.deactivate_snapAcc (V : Voice) : V.deactivate.snapAcc = V.snapAcc := rfl
@[simp] theorem Voice.deactivate_snapIdx (V : Voice) : V.deactivate.snapIdx = V.snapIdx := rfl
@[simp] theorem Voice.deactivate_stage (V : Voice) : V.deactivate.stage = .idle := rfl
@[simp] theorem Voice.deactivate_level (V : Voice) : V.deactivate.level = V.level := rfl
@[simp] theorem Voice.deactivate_eAR (V : Voice) : V.deactivate.eAR = V.eAR := rfl
@[simp] theorem Voice.deactivate_eD1 (V : Voice) : V.deactivate.eD1 = V.eD1 := rfl
@[simp] theorem Voice.deactivate_eD2 (V : Voice) : V.deactivate.eD2 = V.eD2 := rfl
@[simp] theorem Voice.deactivate_eRR (V : Voice) : V.deactivate.eRR = V.eRR := rfl
@[simp] theorem Voice.deactivate_dlt (V : Voice) : V.deactivate.dlt = V.dlt := rfl
@[simp] theorem Voice.deactivate_tlCur (V : Voice) : V.deactivate.tlCur = V.tlCur := rfl
@[simp] theorem Voice.deactivate_outL (V : Voice) : V.deactivate.outL = 0 := rfl
@[simp] theorem Voice.deactivate_outR (V : Voice) : V.deactivate.outR = 0 := rfl
@[simp] theorem Voice.deactivate_err (V : Voice) : V.deactivate.err = V.err := rfl
@[simp] theorem Voice.recordProtocolError_pan (V : Voice) : V.recordProtocolError.pan = V.pan := rfl
@[simp] theorem Voice.recordProtocolError_sample (V : Voice) : V.recordProtocolError.sample = V.sample := rfl
@[simp] theorem Voice.recordProtocolError_fn (V : Voice) : V.recordProtocolError.fn = V.fn := rfl
@[simp] theorem Voice.recordProtocolError_oct (V : Voice) : V.recordProtocolError.oct = V.oct := rfl
@[simp] theorem Voice.recordProtocolError_tlTgt (V : Voice) : V.recordProtocolError.tlTgt = V.tlTgt := rfl
@[simp] theorem Voice.recordProtocolError_lfo (V : Voice) : V.recordProtocolError.lfo = V.lfo := rfl
@[simp] theorem Voice.recordProtocolError_am (V : Voice) : V.recordProtocolError.am = V.am := rfl
@[simp] theorem Voice.recordProtocolError_active (V : Voice) : V.recordProtocolError.active = V.active := rfl
@[simp] theorem Voice.recordProtocolError_keyed (V : Voice) : V.recordProtocolError.keyed = V.keyed := rfl
@[simp] theorem Voice.recordProtocolError_codec (V : Voice) : V.recordProtocolError.codec = V.codec := rfl
@[simp] theorem Voice.recordProtocolError_loopEn (V : Voice) : V.recordProtocolError.loopEn = V.loopEn := rfl
@[simp] theorem Voice.recordProtocolError_start (V : Voice) : V.recordProtocolError.start = V.start := rfl
@[simp] theorem Voice.recordProtocolError_loopStart (V : Voice) : V.recordProtocolError.loopStart = V.loopStart := rfl
@[simp] theorem Voice.recordProtocolError_endPos (V : Voice) : V.recordProtocolError.endPos = V.endPos := rfl
@[simp] theorem Voice.recordProtocolError_pos (V : Voice) : V.recordProtocolError.pos = V.pos := rfl
@[simp] theorem Voice.recordProtocolError_phase (V : Voice) : V.recordProtocolError.phase = V.phase := rfl
@[simp] theorem Voice.recordProtocolError_step (V : Voice) : V.recordProtocolError.step = V.step := rfl
@[simp] theorem Voice.recordProtocolError_prev (V : Voice) : V.recordProtocolError.prev = V.prev := rfl
@[simp] theorem Voice.recordProtocolError_cur (V : Voice) : V.recordProtocolError.cur = V.cur := rfl
@[simp] theorem Voice.recordProtocolError_acc (V : Voice) : V.recordProtocolError.acc = V.acc := rfl
@[simp] theorem Voice.recordProtocolError_sidx (V : Voice) : V.recordProtocolError.sidx = V.sidx := rfl
@[simp] theorem Voice.recordProtocolError_snapValid (V : Voice) : V.recordProtocolError.snapValid = V.snapValid := rfl
@[simp] theorem Voice.recordProtocolError_snapAcc (V : Voice) : V.recordProtocolError.snapAcc = V.snapAcc := rfl
@[simp] theorem Voice.recordProtocolError_snapIdx (V : Voice) : V.recordProtocolError.snapIdx = V.snapIdx := rfl
@[simp] theorem Voice.recordProtocolError_stage (V : Voice) : V.recordProtocolError.stage = V.stage := rfl
@[simp] theorem Voice.recordProtocolError_level (V : Voice) : V.recordProtocolError.level = V.level := rfl
@[simp] theorem Voice.recordProtocolError_eAR (V : Voice) : V.recordProtocolError.eAR = V.eAR := rfl
@[simp] theorem Voice.recordProtocolError_eD1 (V : Voice) : V.recordProtocolError.eD1 = V.eD1 := rfl
@[simp] theorem Voice.recordProtocolError_eD2 (V : Voice) : V.recordProtocolError.eD2 = V.eD2 := rfl
@[simp] theorem Voice.recordProtocolError_eRR (V : Voice) : V.recordProtocolError.eRR = V.eRR := rfl
@[simp] theorem Voice.recordProtocolError_dlt (V : Voice) : V.recordProtocolError.dlt = V.dlt := rfl
@[simp] theorem Voice.recordProtocolError_tlCur (V : Voice) : V.recordProtocolError.tlCur = V.tlCur := rfl
@[simp] theorem Voice.recordProtocolError_outL (V : Voice) : V.recordProtocolError.outL = V.outL := rfl
@[simp] theorem Voice.recordProtocolError_outR (V : Voice) : V.recordProtocolError.outR = V.outR := rfl
@[simp] theorem Voice.recordProtocolError_err (V : Voice) : V.recordProtocolError.err = protocolErrorCode := rfl
@[simp] theorem Voice.push_pan (V : Voice) (x : Int) : (V.push x).pan = V.pan := rfl
@[simp] theorem Voice.push_sample (V : Voice) (x : Int) : (V.push x).sample = V.sample := rfl
@[simp] theorem Voice.push_fn (V : Voice) (x : Int) : (V.push x).fn = V.fn := rfl
@[simp] theorem Voice.push_oct (V : Voice) (x : Int) : (V.push x).oct = V.oct := rfl
@[simp] theorem Voice.push_tlTgt (V : Voice) (x : Int) : (V.push x).tlTgt = V.tlTgt := rfl
@[simp] theorem Voice.push_lfo (V : Voice) (x : Int) : (V.push x).lfo = V.lfo := rfl
@[simp] theorem Voice.push_am (V : Voice) (x : Int) : (V.push x).am = V.am := rfl
@[simp] theorem Voice.push_active (V : Voice) (x : Int) : (V.push x).active = V.active := rfl
@[simp] theorem Voice.push_keyed (V : Voice) (x : Int) : (V.push x).keyed = V.keyed := rfl
@[simp] theorem Voice.push_codec (V : Voice) (x : Int) : (V.push x).codec = V.codec := rfl
@[simp] theorem Voice.push_loopEn (V : Voice) (x : Int) : (V.push x).loopEn = V.loopEn := rfl
@[simp] theorem Voice.push_start (V : Voice) (x : Int) : (V.push x).start = V.start := rfl
@[simp] theorem Voice.push_loopStart (V : Voice) (x : Int) : (V.push x).loopStart = V.loopStart := rfl
@[simp] theorem Voice.push_endPos (V : Voice) (x : Int) : (V.push x).endPos = V.endPos := rfl
@[simp] theorem Voice.push_pos (V : Voice) (x : Int) : (V.push x).pos = V.pos + 1 := rfl
@[simp] theorem Voice.push_phase (V : Voice) (x : Int) : (V.push x).phase = V.phase := rfl
@[simp] theorem Voice.push_step (V : Voice) (x : Int) : (V.push x).step = V.step := rfl
@[simp] theorem Voice.push_prev (V : Voice) (x : Int) : (V.push x).prev = V.cur := rfl
@[simp] theorem Voice.push_cur (V : Voice) (x : Int) : (V.push x).cur = x := rfl
@[simp] theorem Voice.push_acc (V : Voice) (x : Int) : (V.push x).acc = V.acc := rfl
@[simp] theorem Voice.push_sidx (V : Voice) (x : Int) : (V.push x).sidx = V.sidx := rfl
@[simp] theorem Voice.push_snapValid (V : Voice) (x : Int) : (V.push x).snapValid = V.snapValid := rfl
@[simp] theorem Voice.push_snapAcc (V : Voice) (x : Int) : (V.push x).snapAcc = V.snapAcc := rfl
@[simp] theorem Voice.push_snapIdx (V : Voice) (x : Int) : (V.push x).snapIdx = V.snapIdx := rfl
@[simp] theorem Voice.push_stage (V : Voice) (x : Int) : (V.push x).stage = V.stage := rfl
@[simp] theorem Voice.push_level (V : Voice) (x : Int) : (V.push x).level = V.level := rfl
@[simp] theorem Voice.push_eAR (V : Voice) (x : Int) : (V.push x).eAR = V.eAR := rfl
@[simp] theorem Voice.push_eD1 (V : Voice) (x : Int) : (V.push x).eD1 = V.eD1 := rfl
@[simp] theorem Voice.push_eD2 (V : Voice) (x : Int) : (V.push x).eD2 = V.eD2 := rfl
@[simp] theorem Voice.push_eRR (V : Voice) (x : Int) : (V.push x).eRR = V.eRR := rfl
@[simp] theorem Voice.push_dlt (V : Voice) (x : Int) : (V.push x).dlt = V.dlt := rfl
@[simp] theorem Voice.push_tlCur (V : Voice) (x : Int) : (V.push x).tlCur = V.tlCur := rfl
@[simp] theorem Voice.push_outL (V : Voice) (x : Int) : (V.push x).outL = V.outL := rfl
@[simp] theorem Voice.push_outR (V : Voice) (x : Int) : (V.push x).outR = V.outR := rfl
@[simp] theorem Voice.push_err (V : Voice) (x : Int) : (V.push x).err = V.err := rfl
@[simp] theorem Voice.adpcmStep_pan (V : Voice) (d : Dialect) (n : BitVec 4) : (V.adpcmStep d n).pan = V.pan := rfl
@[simp] theorem Voice.adpcmStep_sample (V : Voice) (d : Dialect) (n : BitVec 4) : (V.adpcmStep d n).sample = V.sample := rfl
@[simp] theorem Voice.adpcmStep_fn (V : Voice) (d : Dialect) (n : BitVec 4) : (V.adpcmStep d n).fn = V.fn := rfl
@[simp] theorem Voice.adpcmStep_oct (V : Voice) (d : Dialect) (n : BitVec 4) : (V.adpcmStep d n).oct = V.oct := rfl
@[simp] theorem Voice.adpcmStep_tlTgt (V : Voice) (d : Dialect) (n : BitVec 4) : (V.adpcmStep d n).tlTgt = V.tlTgt := rfl
@[simp] theorem Voice.adpcmStep_lfo (V : Voice) (d : Dialect) (n : BitVec 4) : (V.adpcmStep d n).lfo = V.lfo := rfl
@[simp] theorem Voice.adpcmStep_am (V : Voice) (d : Dialect) (n : BitVec 4) : (V.adpcmStep d n).am = V.am := rfl
@[simp] theorem Voice.adpcmStep_active (V : Voice) (d : Dialect) (n : BitVec 4) : (V.adpcmStep d n).active = V.active := rfl
@[simp] theorem Voice.adpcmStep_keyed (V : Voice) (d : Dialect) (n : BitVec 4) : (V.adpcmStep d n).keyed = V.keyed := rfl
@[simp] theorem Voice.adpcmStep_codec (V : Voice) (d : Dialect) (n : BitVec 4) : (V.adpcmStep d n).codec = V.codec := rfl
@[simp] theorem Voice.adpcmStep_loopEn (V : Voice) (d : Dialect) (n : BitVec 4) : (V.adpcmStep d n).loopEn = V.loopEn := rfl
@[simp] theorem Voice.adpcmStep_start (V : Voice) (d : Dialect) (n : BitVec 4) : (V.adpcmStep d n).start = V.start := rfl
@[simp] theorem Voice.adpcmStep_loopStart (V : Voice) (d : Dialect) (n : BitVec 4) : (V.adpcmStep d n).loopStart = V.loopStart := rfl
@[simp] theorem Voice.adpcmStep_endPos (V : Voice) (d : Dialect) (n : BitVec 4) : (V.adpcmStep d n).endPos = V.endPos := rfl
@[simp] theorem Voice.adpcmStep_pos (V : Voice) (d : Dialect) (n : BitVec 4) : (V.adpcmStep d n).pos = V.pos := rfl
@[simp] theorem Voice.adpcmStep_phase (V : Voice) (d : Dialect) (n : BitVec 4) : (V.adpcmStep d n).phase = V.phase := rfl
@[simp] theorem Voice.adpcmStep_step (V : Voice) (d : Dialect) (n : BitVec 4) : (V.adpcmStep d n).step = V.step := rfl
@[simp] theorem Voice.adpcmStep_prev (V : Voice) (d : Dialect) (n : BitVec 4) : (V.adpcmStep d n).prev = V.prev := rfl
@[simp] theorem Voice.adpcmStep_cur (V : Voice) (d : Dialect) (n : BitVec 4) : (V.adpcmStep d n).cur = V.cur := rfl
@[simp] theorem Voice.adpcmStep_acc (V : Voice) (d : Dialect) (n : BitVec 4) : (V.adpcmStep d n).acc = adpcmAccumulate d V.acc (adpcmCode d n).negative (adpcmMagnitude d V.sidx (adpcmCode d n).m) := rfl
@[simp] theorem Voice.adpcmStep_sidx (V : Voice) (d : Dialect) (n : BitVec 4) : (V.adpcmStep d n).sidx = adpcmIndex d V.sidx (adpcmCode d n).m := rfl
@[simp] theorem Voice.adpcmStep_snapValid (V : Voice) (d : Dialect) (n : BitVec 4) : (V.adpcmStep d n).snapValid = V.snapValid := rfl
@[simp] theorem Voice.adpcmStep_snapAcc (V : Voice) (d : Dialect) (n : BitVec 4) : (V.adpcmStep d n).snapAcc = V.snapAcc := rfl
@[simp] theorem Voice.adpcmStep_snapIdx (V : Voice) (d : Dialect) (n : BitVec 4) : (V.adpcmStep d n).snapIdx = V.snapIdx := rfl
@[simp] theorem Voice.adpcmStep_stage (V : Voice) (d : Dialect) (n : BitVec 4) : (V.adpcmStep d n).stage = V.stage := rfl
@[simp] theorem Voice.adpcmStep_level (V : Voice) (d : Dialect) (n : BitVec 4) : (V.adpcmStep d n).level = V.level := rfl
@[simp] theorem Voice.adpcmStep_eAR (V : Voice) (d : Dialect) (n : BitVec 4) : (V.adpcmStep d n).eAR = V.eAR := rfl
@[simp] theorem Voice.adpcmStep_eD1 (V : Voice) (d : Dialect) (n : BitVec 4) : (V.adpcmStep d n).eD1 = V.eD1 := rfl
@[simp] theorem Voice.adpcmStep_eD2 (V : Voice) (d : Dialect) (n : BitVec 4) : (V.adpcmStep d n).eD2 = V.eD2 := rfl
@[simp] theorem Voice.adpcmStep_eRR (V : Voice) (d : Dialect) (n : BitVec 4) : (V.adpcmStep d n).eRR = V.eRR := rfl
@[simp] theorem Voice.adpcmStep_dlt (V : Voice) (d : Dialect) (n : BitVec 4) : (V.adpcmStep d n).dlt = V.dlt := rfl
@[simp] theorem Voice.adpcmStep_tlCur (V : Voice) (d : Dialect) (n : BitVec 4) : (V.adpcmStep d n).tlCur = V.tlCur := rfl
@[simp] theorem Voice.adpcmStep_outL (V : Voice) (d : Dialect) (n : BitVec 4) : (V.adpcmStep d n).outL = V.outL := rfl
@[simp] theorem Voice.adpcmStep_outR (V : Voice) (d : Dialect) (n : BitVec 4) : (V.adpcmStep d n).outR = V.outR := rfl
@[simp] theorem Voice.adpcmStep_err (V : Voice) (d : Dialect) (n : BitVec 4) : (V.adpcmStep d n).err = V.err := rfl
@[simp] theorem Voice.retune_pan (V : Voice) (t : Tables) : (V.retune t).pan = V.pan := rfl
@[simp] theorem Voice.retune_sample (V : Voice) (t : Tables) : (V.retune t).sample = V.sample := rfl
@[simp] theorem Voice.retune_fn (V : Voice) (t : Tables) : (V.retune t).fn = V.fn := rfl
@[simp] theorem Voice.retune_oct (V : Voice) (t : Tables) : (V.retune t).oct = V.oct := rfl
@[simp] theorem Voice.retune_tlTgt (V : Voice) (t : Tables) : (V.retune t).tlTgt = V.tlTgt := rfl
@[simp] theorem Voice.retune_lfo (V : Voice) (t : Tables) : (V.retune t).lfo = V.lfo := rfl
@[simp] theorem Voice.retune_am (V : Voice) (t : Tables) : (V.retune t).am = V.am := rfl
@[simp] theorem Voice.retune_active (V : Voice) (t : Tables) : (V.retune t).active = V.active := rfl
@[simp] theorem Voice.retune_keyed (V : Voice) (t : Tables) : (V.retune t).keyed = V.keyed := rfl
@[simp] theorem Voice.retune_codec (V : Voice) (t : Tables) : (V.retune t).codec = V.codec := rfl
@[simp] theorem Voice.retune_loopEn (V : Voice) (t : Tables) : (V.retune t).loopEn = V.loopEn := rfl
@[simp] theorem Voice.retune_start (V : Voice) (t : Tables) : (V.retune t).start = V.start := rfl
@[simp] theorem Voice.retune_loopStart (V : Voice) (t : Tables) : (V.retune t).loopStart = V.loopStart := rfl
@[simp] theorem Voice.retune_endPos (V : Voice) (t : Tables) : (V.retune t).endPos = V.endPos := rfl
@[simp] theorem Voice.retune_pos (V : Voice) (t : Tables) : (V.retune t).pos = V.pos := rfl
@[simp] theorem Voice.retune_phase (V : Voice) (t : Tables) : (V.retune t).phase = V.phase := rfl
@[simp] theorem Voice.retune_step (V : Voice) (t : Tables) : (V.retune t).step = stepOf t V.fn V.oct := rfl
@[simp] theorem Voice.retune_prev (V : Voice) (t : Tables) : (V.retune t).prev = V.prev := rfl
@[simp] theorem Voice.retune_cur (V : Voice) (t : Tables) : (V.retune t).cur = V.cur := rfl
@[simp] theorem Voice.retune_acc (V : Voice) (t : Tables) : (V.retune t).acc = V.acc := rfl
@[simp] theorem Voice.retune_sidx (V : Voice) (t : Tables) : (V.retune t).sidx = V.sidx := rfl
@[simp] theorem Voice.retune_snapValid (V : Voice) (t : Tables) : (V.retune t).snapValid = V.snapValid := rfl
@[simp] theorem Voice.retune_snapAcc (V : Voice) (t : Tables) : (V.retune t).snapAcc = V.snapAcc := rfl
@[simp] theorem Voice.retune_snapIdx (V : Voice) (t : Tables) : (V.retune t).snapIdx = V.snapIdx := rfl
@[simp] theorem Voice.retune_stage (V : Voice) (t : Tables) : (V.retune t).stage = V.stage := rfl
@[simp] theorem Voice.retune_level (V : Voice) (t : Tables) : (V.retune t).level = V.level := rfl
@[simp] theorem Voice.retune_eAR (V : Voice) (t : Tables) : (V.retune t).eAR = V.eAR := rfl
@[simp] theorem Voice.retune_eD1 (V : Voice) (t : Tables) : (V.retune t).eD1 = V.eD1 := rfl
@[simp] theorem Voice.retune_eD2 (V : Voice) (t : Tables) : (V.retune t).eD2 = V.eD2 := rfl
@[simp] theorem Voice.retune_eRR (V : Voice) (t : Tables) : (V.retune t).eRR = V.eRR := rfl
@[simp] theorem Voice.retune_dlt (V : Voice) (t : Tables) : (V.retune t).dlt = V.dlt := rfl
@[simp] theorem Voice.retune_tlCur (V : Voice) (t : Tables) : (V.retune t).tlCur = V.tlCur := rfl
@[simp] theorem Voice.retune_outL (V : Voice) (t : Tables) : (V.retune t).outL = V.outL := rfl
@[simp] theorem Voice.retune_outR (V : Voice) (t : Tables) : (V.retune t).outR = V.outR := rfl
@[simp] theorem Voice.retune_err (V : Voice) (t : Tables) : (V.retune t).err = V.err := rfl

end Sys2Proof.Machine
end

