-- ==== Sys2Proof/Laws/Memory.lean ====
section
/-!
SUPPORT. The laws of the ROM image: read after write, the canonical form kept by every operation, what
LOAD_ROM leaves at every address.
-/
namespace Sys2Proof.Machine

/-- The canonical form of the listed cells alone. -/
abbrev cellsWf (fill : Byte) (n : Nat) (l : List Host.Cell) : Prop :=
  l.Pairwise (fun x y => x.1 < y.1) ∧ ∀ c ∈ l, c.1 < n ∧ c.2 ≠ fill

theorem mem_putCell {fill : Byte} {a : Nat} {b : Byte} {l : List Host.Cell} {c : Host.Cell}
    (h : c ∈ putCell fill a b l) : c ∈ l ∨ (c = (a, b) ∧ b ≠ fill) := by
  induction l with
  | nil => unfold putCell at h; split at h <;> simp_all
  | cons x t ih =>
    obtain ⟨y, d⟩ := x
    unfold putCell at h
    split at h
    · split at h <;> simp_all; tauto
    · split at h
      · split at h <;> simp_all; tauto
      · rcases List.mem_cons.mp h with h | h
        · simp [h]
        · rcases ih h with h | h
          · simp [h]
          · simp_all

/-- Writing a cell below the length keeps the canonical form. -/
theorem putCell_wf {fill : Byte} {n a : Nat} {b : Byte} {l : List Host.Cell}
    (ha : a < n) (h : cellsWf fill n l) : cellsWf fill n (putCell fill a b l) := by
  refine ⟨?_, fun c hc => ?_⟩
  · obtain ⟨hp, -⟩ := h
    induction l with
    | nil => unfold putCell; split <;> simp
    | cons x t ih =>
      obtain ⟨y, d⟩ := x
      rw [List.pairwise_cons] at hp
      unfold putCell
      split
      · split
        · exact List.pairwise_cons.mpr hp
        · refine List.pairwise_cons.mpr ⟨fun c hc => ?_, List.pairwise_cons.mpr hp⟩
          rcases List.mem_cons.mp hc with rfl | hc
          · assumption
          · exact lt_trans ‹a < y› (hp.1 c hc)
      · split
        · subst y
          split
          · exact hp.2
          · exact List.pairwise_cons.mpr ⟨hp.1, hp.2⟩
        · refine List.pairwise_cons.mpr ⟨fun c hc => ?_, ih hp.2⟩
          rcases mem_putCell hc with hc | ⟨rfl, -⟩
          · exact hp.1 c hc
          · have h1 : ¬ a < y := by assumption
            have h2 : ¬ a = y := by assumption
            change y < a
            omega
  · rcases mem_putCell hc with hc | ⟨rfl, hb⟩
    · exact h.2 c hc
    · exact ⟨ha, hb⟩

/-- An address below every listed address is not listed. -/
theorem cellAt_none {l : List Host.Cell} {a : Nat} (h : ∀ c ∈ l, a < c.1) : cellAt l a = none := by
  induction l with
  | nil => rfl
  | cons x t ih =>
    obtain ⟨y, d⟩ := x
    have := h (y, d) (by simp)
    simp only [cellAt]
    rw [if_neg (by simp at this; omega)]
    exact ih fun c hc => h c (by simp [hc])

/-- What is listed after writing a cell: the written byte at its address (unlisted if it is the fill
value), the old entry elsewhere. -/
theorem cellAt_putCell {fill : Byte} {a a' : Nat} {b : Byte} {l : List Host.Cell}
    (hp : l.Pairwise (fun x y => x.1 < y.1)) :
    cellAt (putCell fill a b l) a' =
      if a' = a then (if b = fill then none else some b) else cellAt l a' := by
  induction l with
  | nil =>
    unfold putCell
    by_cases hb : b = fill <;> by_cases ha : a' = a <;> simp [hb, ha, cellAt, eq_comm]
    simp [Ne.symm ha]
  | cons x t ih =>
    obtain ⟨y, d⟩ := x
    rw [List.pairwise_cons] at hp
    have ih := ih hp.2
    unfold putCell
    by_cases h1 : a < y
    · rw [if_pos h1]
      by_cases ha : a' = a
      · subst ha
        have hn : cellAt ((y, d) :: t) a' = none := cellAt_none fun c hc => by
          rcases List.mem_cons.mp hc with rfl | hc
          · exact h1
          · exact lt_trans h1 (hp.1 c hc)
        by_cases hb : b = fill
        · simp only [if_pos hb, if_true, hn]
        · simp [hb, cellAt]
      · by_cases hb : b = fill
        · simp [hb, ha]
        · simp [hb, ha, cellAt, Ne.symm ha]
    · rw [if_neg h1]
      by_cases h2 : a = y
      · subst h2
        rw [if_pos rfl]
        by_cases ha : a' = a
        · subst ha
          have hn : cellAt t a' = none := cellAt_none fun c hc => hp.1 c hc
          by_cases hb : b = fill
          · simp [hb, hn]
          · simp [hb, cellAt]
        · by_cases hb : b = fill
          · simp [hb, ha, cellAt, Ne.symm ha]
          · simp [hb, ha, cellAt, Ne.symm ha]
      · rw [if_neg h2]
        by_cases ha : a' = a
        · subst ha
          simp [cellAt, Ne.symm h2, ih]
        · simp only [cellAt, ih, if_neg ha]

/-- Read after write (R81): the written byte at its address, the old byte everywhere else. -/
theorem Memory.read_write {fill : Byte} {m : Memory} {a a' : Nat} {b : Byte}
    (h : m.wf fill) (ha : a < m.len) :
    (m.write fill a b).read fill a' = if a' = a then b else m.read fill a' := by
  unfold Memory.write Memory.read
  rw [if_pos ha]
  simp only [cellAt_putCell h.1]
  by_cases h1 : a' = a
  · subst h1
    by_cases hb : b = fill <;> simp [ha, hb]
  · simp [h1]

@[simp] theorem Memory.write_len (fill : Byte) (m : Memory) (a : Nat) (b : Byte) :
    (m.write fill a b).len = m.len := by
  unfold Memory.write; split <;> rfl

/-- A write keeps the canonical form. -/
theorem Memory.write_wf {fill : Byte} {m : Memory} (a : Nat) (b : Byte) (h : m.wf fill) :
    (m.write fill a b).wf fill := by
  unfold Memory.write
  split
  · exact putCell_wf ‹_› h
  · exact h

@[simp] theorem Memory.writeFrom_len (fill : Byte) (bs : List Byte) (m : Memory) (a : Nat) :
    (Memory.writeFrom fill m a bs).len = m.len := by
  induction bs generalizing m a with
  | nil => rfl
  | cons b t ih => simp [Memory.writeFrom, ih]

/-- Writing consecutive bytes keeps the canonical form. -/
theorem Memory.writeFrom_wf {fill : Byte} (bs : List Byte) {m : Memory} (a : Nat) (h : m.wf fill) :
    (Memory.writeFrom fill m a bs).wf fill := by
  induction bs generalizing m a with
  | nil => exact h
  | cons b t ih => exact ih _ (Memory.write_wf a b h)

/-- Reading after writing consecutive bytes inside the image. -/
theorem Memory.read_writeFrom {fill : Byte} (bs : List Byte) {m : Memory} (a a' : Nat)
    (h : m.wf fill) (hl : a + bs.length ≤ m.len) :
    (Memory.writeFrom fill m a bs).read fill a' =
      if a ≤ a' ∧ a' < a + bs.length then bs.getD (a' - a) 0 else m.read fill a' := by
  induction bs generalizing m a with
  | nil =>
    have : ¬ (a ≤ a' ∧ a' < a + ([] : List Byte).length) := by simp
    rw [if_neg this]; rfl
  | cons b t ih =>
    simp only [List.length_cons] at hl
    simp only [Memory.writeFrom]
    rw [ih (a + 1) (Memory.write_wf a b h) (by simp; omega), Memory.read_write h (by omega)]
    by_cases h1 : a' = a
    · subst h1; simp
    · by_cases h2 : a + 1 ≤ a' ∧ a' < a + 1 + t.length
      · have h3 : a ≤ a' ∧ a' < a + (t.length + 1) := by omega
        have h4 : a' - a = (a' - (a + 1)) + 1 := by omega
        simp only [List.length_cons]
        rw [if_pos h2, if_pos h3, h4, List.getD_cons_succ]
      · have h3 : ¬ (a ≤ a' ∧ a' < a + (t.length + 1)) := by omega
        simp only [List.length_cons]
        rw [if_neg h2, if_neg h3, if_neg h1]

@[simp] theorem Memory.resize_len (m : Memory) (n : Nat) : (m.resize n).len = n := by
  unfold Memory.resize; split <;> simp_all

/-- Sizing the image keeps the canonical form. -/
theorem Memory.resize_wf {fill : Byte} {m : Memory} (n : Nat) (h : m.wf fill) :
    (m.resize n).wf fill := by
  unfold Memory.resize
  split
  · exact h
  · refine ⟨h.1.filter _, fun c hc => ?_⟩
    obtain ⟨hc, hn⟩ := List.mem_filter.mp hc
    exact ⟨by simpa using hn, (h.2 c hc).2⟩

theorem cellAt_filter (l : List Host.Cell) (n a : Nat) (h : a < n) :
    cellAt (l.filter fun c => decide (c.1 < n)) a = cellAt l a := by
  induction l with
  | nil => rfl
  | cons x t ih =>
    obtain ⟨y, d⟩ := x
    by_cases hy : y < n
    · simp [hy, cellAt, ih]
    · have : ¬ y = a := by omega
      simp [hy, cellAt, ih, this]

theorem cellAt_eq_none {l : List Host.Cell} {a : Nat} (h : ∀ c ∈ l, c.1 ≠ a) : cellAt l a = none := by
  induction l with
  | nil => rfl
  | cons x t ih =>
    obtain ⟨y, d⟩ := x
    simp only [cellAt]
    rw [if_neg (h (y, d) (by simp))]
    exact ih fun c hc => h c (by simp [hc])

/-- Reading a sized image: old bytes below the size, the fill value elsewhere (R400). -/
theorem Memory.read_resize {fill : Byte} {m : Memory} (n a : Nat) (h : m.wf fill) :
    (m.resize n).read fill a = if a < n then m.read fill a else fill := by
  unfold Memory.resize
  split
  · rename_i hn; subst hn
    unfold Memory.read; split <;> simp_all
  · by_cases ha : a < n
    · simp only [Memory.read, if_pos ha, cellAt_filter _ _ _ ha]
      by_cases hl : a < m.len
      · simp [hl]
      · have : cellAt m.cells a = none := cellAt_eq_none fun c hc => by
          have := (h.2 c hc).1; omega
        simp [hl, this]
    · simp [Memory.read, ha]

/-- LOAD_ROM keeps the canonical form (R400). -/
theorem Memory.load_wf {fill : Byte} {m : Memory} (total offset length : Nat) (data : List Byte)
    (h : m.wf fill) : (m.load fill total offset length data).wf fill := by
  unfold Memory.load
  split
  · exact h
  · exact Memory.writeFrom_wf _ _ (Memory.resize_wf _ h)

/-- The power-on image is in canonical form, for every fill value. -/
theorem Memory.powerOn_wf (fill : Byte) : Memory.powerOn.wf fill :=
  ⟨by simp [Memory.powerOn], by simp [Memory.powerOn]⟩

/-- `State.reset`'s image is in canonical form. -/
theorem reset_memory_wf : State.reset.rom.wf State.reset.vd.fill := Memory.powerOn_wf _

end Sys2Proof.Machine
end

