-- ==== Sys2Proof/Laws/Exec.lean ====
section
/-!
SUPPORT. What the shared operations of the host commands can answer: the two guards, a register write, and
`exec` of a host command as a whole.
-/
namespace Sys2Proof.Machine

@[simp] theorem returns_next {s t : State} {r : Result} :
    s.returns r = .next t ↔ t = { s with result := r } := by
  simp [State.returns, eq_comm]

/-- The Fatal guard lets an operation through exactly on a live instance (R504). -/
theorem unlessFatal_next {s t : State} {k : Out} :
    unlessFatal s k = .next t ↔ s.g.fatal = false ∧ k = .next t := by
  unfold unlessFatal; cases s.g.fatal <;> simp

/-- The Unconfigured guard lets an operation through exactly on a configured instance (R505). -/
theorem ifConfigured_next {s t : State} {k : Out} :
    ifConfigured s k = .next t ↔ s.g.configured = true ∧ k = .next t := by
  unfold ifConfigured; cases s.g.configured <;> simp

@[simp] theorem unlessFatal_live {s : State} {k : Out} (h : s.g.fatal = false) :
    unlessFatal s k = k := by simp [unlessFatal, h]

@[simp] theorem unlessFatal_dead {s : State} {k : Out} (h : s.g.fatal = true) :
    unlessFatal s k = .fault .fatal := by simp [unlessFatal, h]

@[simp] theorem ifConfigured_true {s : State} {k : Out} (h : s.g.configured = true) :
    ifConfigured s k = k := by simp [ifConfigured, h]

@[simp] theorem ifConfigured_false {s : State} {k : Out} (h : s.g.configured = false) :
    ifConfigured s k = .fault .unconfigured := by simp [ifConfigured, h]

/-- What a register write can make of a voice (R225-R241). -/
inductive RegisterUpdate (s : State) (V : Voice) : Voice → Prop
  | pan (d : Byte) : RegisterUpdate s V (panWrite V d)
  | smpl (d : Byte) : RegisterUpdate s V (smplWrite V d)
  | pitchL (d : Byte) : RegisterUpdate s V ((pitchLFields V d).retune s.tables)
  | pitchH (d : Byte) : RegisterUpdate s V ((pitchHFields V d).retune s.tables)
  | keyOn : RegisterUpdate s V (keyedVoice s V)
  | keyOff : RegisterUpdate s V (keyedOffVoice s.vd V)
  | tl (d : Byte) : RegisterUpdate s V (tlWrite V d)
  | lfo (d : Byte) : RegisterUpdate s V (lfoWrite V d)
  | am (d : Byte) : RegisterUpdate s V (amWrite V d)

/-- A voice write that completes replaces one voice by a register update of it, or changes nothing. -/
theorem voiceWrite_cases {v : Nat} {sub d : Byte} {s t : State} (h : voiceWrite v sub d s = .next t) :
    t = { s with result := .void }
      ∨ ∃ W, RegisterUpdate s (s.voice v) W ∧ t = { s.setVoice v W with result := .void } := by
  unfold voiceWrite putVoice at h
  simp only at h
  repeat' (split at h)
  all_goals
    first
    | exact .inl (returns_next.mp h)
    | exact .inr ⟨_, .pan d, returns_next.mp h⟩
    | exact .inr ⟨_, .smpl d, returns_next.mp h⟩
    | exact .inr ⟨_, .pitchL d, returns_next.mp (ifConfigured_next.mp h).2⟩
    | exact .inr ⟨_, .pitchH d, returns_next.mp (ifConfigured_next.mp h).2⟩
    | exact .inr ⟨_, .keyOn, returns_next.mp (ifConfigured_next.mp h).2⟩
    | exact .inr ⟨_, .keyOff, returns_next.mp h⟩
    | exact .inr ⟨_, .tl d, returns_next.mp h⟩
    | exact .inr ⟨_, .lfo d, returns_next.mp h⟩
    | exact .inr ⟨_, .am d, returns_next.mp h⟩

/-- A WRITE that completes is dropped, or is a write of the BLOCK voice, or updates one voice (R221). -/
theorem writeRegister_cases {sel sub d : Byte} {s t : State}
    (h : writeRegister sel sub d s = .next t) :
    t = { s with result := .void }
      ∨ (isBlock s.vd = true ∧ t = { seqWrite sub d s with result := .void })
      ∨ (isBlock s.vd = false ∧ ∃ v W, RegisterUpdate s (s.voice v) W
          ∧ t = { s.setVoice v W with result := .void }) := by
  obtain ⟨-, h⟩ := unlessFatal_next.mp h
  cases hv : voiceOf s.vd sel with
  | none => rw [hv] at h; exact .inl (returns_next.mp h)
  | some v =>
    rw [hv] at h
    simp only at h
    split at h
    · exact .inr (.inl ⟨‹_›, returns_next.mp h⟩)
    · rcases voiceWrite_cases h with h | ⟨W, hW, h⟩
      · exact .inl h
      · exact .inr (.inr ⟨by simpa using ‹¬isBlock s.vd = true›, v, W, hW, h⟩)

/-- A WRITE_GLOBAL that completes sets the enable, the bank, or nothing (R235). -/
theorem writeGlobalRegister_cases {reg d : Byte} {s t : State}
    (h : writeGlobalRegister reg d s = .next t) :
    (reg = 0 ∧ t = { s with g := { s.g with enable := d.getLsbD 0 }, result := .void })
      ∨ (reg = 1 ∧ t = { s with g := { s.g with bank := d }, result := .void })
      ∨ t = { s with result := .void } := by
  obtain ⟨-, h⟩ := unlessFatal_next.mp h
  split at h
  · exact .inl ⟨‹_›, by simpa using h⟩
  · split at h
    · exact .inr (.inl ⟨‹_›, by simpa using h⟩)
    · exact .inr (.inr (by simpa using h))

/-- What a host command that completes can do to the state, but for `result` (R500). -/
inductive HostEffect (s : State) : State → Prop
  | nothing : HostEffect s s
  | enable (b : Bool) : HostEffect s { s with g := { s.g with enable := b } }
  | bank (b : Byte) : HostEffect s { s with g := { s.g with bank := b } }
  | blockWrite (sub d : Byte) (h : isBlock s.vd = true) : HostEffect s (seqWrite sub d s)
  | voice (v : Nat) (W : Voice) (h : isBlock s.vd = false)
      (hW : RegisterUpdate s (s.voice v) W) : HostEffect s (s.setVoice v W)
  | configure (rate : Nat) (h : rateRejected s.vd rate = false) : HostEffect s (configured s rate)
  | die : HostEffect s { s with g := { s.g with fatal := true } }
  | load (total offset length : U32) (data : List Byte) :
      HostEffect s
        { s with rom := s.rom.load s.vd.fill total.toNat offset.toNat length.toNat data }
  | tick : HostEffect s (ticked s)
  | reset : HostEffect s (resetCore s)

theorem writeRegister_effect {sel sub d : Byte} {s t : State}
    (h : writeRegister sel sub d s = .next t) :
    ∃ u, HostEffect s u ∧ t = { u with result := t.result } := by
  rcases writeRegister_cases h with rfl | ⟨hb, rfl⟩ | ⟨hb, v, W, hW, rfl⟩
  · exact ⟨s, .nothing, rfl⟩
  · exact ⟨_, .blockWrite sub d hb, rfl⟩
  · exact ⟨_, .voice v W hb hW, rfl⟩

theorem writeGlobalRegister_effect {reg d : Byte} {s t : State}
    (h : writeGlobalRegister reg d s = .next t) :
    ∃ u, HostEffect s u ∧ t = { u with result := t.result } := by
  rcases writeGlobalRegister_cases h with ⟨-, rfl⟩ | ⟨-, rfl⟩ | rfl
  · exact ⟨_, .enable (d.getLsbD 0), rfl⟩
  · exact ⟨_, .bank d, rfl⟩
  · exact ⟨s, .nothing, rfl⟩

theorem execConfigure_effect {clock : U32} {s t : State} (h : execConfigure clock s = .next t) :
    ∃ u, HostEffect s u ∧ t = { u with result := t.result } := by
  obtain ⟨-, h⟩ := unlessFatal_next.mp h
  split at h
  · exact ⟨_, .die, by rw [returns_next.mp h]⟩
  · exact ⟨_, .configure _ (by simpa using ‹¬rateRejected _ _ = true›), by rw [returns_next.mp h]⟩

theorem execLoadRom_effect {total offset length : U32} {data : List Byte} {s t : State}
    (h : execLoadRom total offset length data s = .next t) :
    ∃ u, HostEffect s u ∧ t = { u with result := t.result } :=
  ⟨_, .load total offset length data, by rw [returns_next.mp (unlessFatal_next.mp h).2]⟩

theorem execTick_effect {s t : State} (h : execTick s = .next t) :
    ∃ u, HostEffect s u ∧ t = { u with result := t.result } :=
  ⟨_, .tick, by rw [returns_next.mp (ifConfigured_next.mp (unlessFatal_next.mp h).2).2]⟩

theorem execReset_effect {s t : State} (h : execReset s = .next t) :
    ∃ u, HostEffect s u ∧ t = { u with result := t.result } :=
  ⟨_, .reset, by rw [returns_next.mp (unlessFatal_next.mp h).2]⟩

theorem execReadFrame_effect {s t : State} (h : execReadFrame s = .next t) :
    ∃ u, HostEffect s u ∧ t = { u with result := t.result } :=
  ⟨s, .nothing, by rw [returns_next.mp (unlessFatal_next.mp h).2]⟩

theorem execReadStatus_effect {sel : Byte} {s t : State} (h : execReadStatus sel s = .next t) :
    ∃ u, HostEffect s u ∧ t = { u with result := t.result } :=
  ⟨s, .nothing, by rw [returns_next.mp (unlessFatal_next.mp h).2]⟩

/-- Every host command that completes has one of the effects of `HostEffect`, and sets `result`. -/
theorem exec_effect {i : Instr} {s t : State} (hi : i.isHeader = false) (h : exec i s = .next t) :
    ∃ u, HostEffect s u ∧ t = { u with result := t.result } := by
  cases i with
  | write sel sub d => exact writeRegister_effect h
  | writeGlobal reg d => exact writeGlobalRegister_effect h
  | configure clock => exact execConfigure_effect h
  | loadRom total offset length data => exact execLoadRom_effect h
  | tick => exact execTick_effect h
  | readFrame => exact execReadFrame_effect h
  | reset => exact execReset_effect h
  | readStatus sel => exact execReadStatus_effect h
  | pan sel p => exact writeRegister_effect h
  | smpl sel low => exact writeRegister_effect h
  | pitchL sel f b => exact writeRegister_effect h
  | pitchH sel o f => exact writeRegister_effect h
  | keyOn sel => exact writeRegister_effect h
  | keyOff sel => exact writeRegister_effect h
  | tl sel l b => exact writeRegister_effect h
  | lfo sel d => exact writeRegister_effect h
  | am sel d => exact writeRegister_effect h
  | enable en => exact writeGlobalRegister_effect h
  | bank b => exact writeGlobalRegister_effect h
  | seqIndex d => exact writeRegister_effect h
  | seqStart => exact writeRegister_effect h
  | seqStop => exact writeRegister_effect h
  | hdrEnd => simp [Instr.isHeader] at hi
  | hdrSilence a => simp [Instr.isHeader] at hi
  | hdrFixed a => simp [Instr.isHeader] at hi
  | hdrCounted a => simp [Instr.isHeader] at hi
  | hdrRepeat a => simp [Instr.isHeader] at hi

theorem registerRow_isHeader (block : Bool) (sel sub d : Byte) :
    (registerRow block sel sub d).isHeader = false := by
  unfold registerRow blockRegister voiceRegister
  repeat' split
  all_goals rfl

theorem globalRegister_isHeader (reg d : Byte) : (globalRegister reg d).isHeader = false := by
  unfold globalRegister
  repeat' split
  all_goals rfl

/-- The decoder of the command stream reads no block header (the levels of 30_encoding.md). -/
theorem decode_isHeader {block : Bool} {bs : List Byte} {i : Instr} {rest : List Byte}
    (h : decode block bs = .command i rest) : i.isHeader = false := by
  cases bs with
  | nil => simp [decode] at h
  | cons op t =>
    simp only [decode] at h
    repeat' (split at h)
    · unfold decodeWrite at h
      split at h
      · simp only [Decoded.command.injEq] at h; rw [← h.1]; exact registerRow_isHeader ..
      · cases h
    · unfold decodeWriteGlobal at h
      split at h
      · simp only [Decoded.command.injEq] at h; rw [← h.1]; exact globalRegister_isHeader ..
      · cases h
    · unfold decodeConfigure at h; split at h <;> cases h; rfl
    · unfold decodeLoadRom at h
      split at h
      · simp only at h; split at h <;> cases h; rfl
      · cases h
    · cases h; rfl
    · cases h; rfl
    · cases h; rfl
    · unfold decodeReadStatus at h; split at h <;> cases h; rfl
    · cases h

/-- What a step that completes can do: nothing, or the effect of one host command, with the command's bytes
taken from the stream. -/
theorem step_effect {s t : State} (h : step s = .next t) :
    t = s ∨ ∃ rest u, HostEffect (s.consumed rest) u ∧ t = { u with result := t.result } := by
  unfold step at h
  split at h
  · exact .inr ⟨_, exec_effect (decode_isHeader ‹_›) h⟩
  · cases h
  · cases h
  · exact .inl (by simpa using h.symm)

end Sys2Proof.Machine
end

