-- ==== Sys2Proof/Laws/Operands.lean ====
section
/-!
SUPPORT. The operand forms: where a selector leads, the ranges of effective rates and decay thresholds, the bound
of a phase step, and the table entries CONFIGURE builds.
-/
namespace Sys2Proof.Machine

theorem inRange_some {vd : Variant} {v w : Nat} : inRange vd v = some w ↔ w = v ∧ v < vd.nVoices := by
  unfold inRange
  split
  · rename_i h; simp [h, eq_comm]
  · rename_i h; simp [h]

/-- A selector that reaches a voice reaches one the descriptor has (R220). -/
theorem voiceOf_lt {vd : Variant} {sel : Byte} {v : Nat} (h : voiceOf vd sel = some v) :
    v < vd.nVoices := by
  unfold voiceOf at h
  split at h
  · split at h
    · cases h
    · obtain ⟨rfl, h'⟩ := inRange_some.mp h; exact h'
  · obtain ⟨rfl, h'⟩ := inRange_some.mp h; exact h'

/-- Selector 0 reaches voice 0 under both maps (R220). -/
theorem voiceOf_zero {vd : Variant} (h : 0 < vd.nVoices) : voiceOf vd 0 = some 0 := by
  unfold voiceOf
  cases vd.selMap <;> simp [inRange, h]

/-- An effective rate code is six bits (R242). -/
theorem effRate_le (r krs : BitVec 4) (fn : BitVec 10) (oct : BitVec 4) :
    effRate r krs fn oct ≤ 63 := by
  unfold effRate clamp
  split
  · omega
  · split <;> omega

/-- A decay threshold is below full scale (R243). -/
theorem decayThreshold_le (dl : BitVec 4) : decayThreshold dl ≤ 2 ^ 26 - 1 := by
  unfold decayThreshold
  omega

/-- With a frequency table below 2^24 every phase step is below 2^31 (R204). -/
theorem stepOf_lt {t : Tables} (h : ∀ f ∈ t.freq, f < 2 ^ 24) (fn : BitVec 10) (oct : BitVec 4) :
    stepOf t fn oct < 2 ^ 31 := by
  have hf : freqOf t fn < 2 ^ 24 := by
    unfold freqOf
    rw [List.getD_eq_getElem?_getD]
    cases hc : t.freq[fn.toNat]? with
    | none => simp
    | some f => exact h f (List.mem_of_getElem? hc)
  unfold stepOf
  split
  · have h7 : oct.toInt.toNat ≤ 7 := by
      have := oct.toInt_lt; omega
    have : (2 : Nat) ^ oct.toInt.toNat ≤ 2 ^ 7 := Nat.pow_le_pow_right (by omega) h7
    calc freqOf t fn * 2 ^ oct.toInt.toNat ≤ freqOf t fn * 2 ^ 7 := Nat.mul_le_mul_left _ this
      _ < 2 ^ 31 := by omega
  · exact lt_of_le_of_lt (Nat.div_le_self _ _) (by omega)

/-- A frequency entry grows with its code (R209). -/
theorem freqEntry_mono (vd : Variant) (rate : Nat) {c c' : Nat} (h : c ≤ c') :
    freqEntry vd rate c ≤ freqEntry vd rate c' := by
  unfold freqEntry
  gcongr

/-- The frequency table of a rate that is not rejected is below 2^24 (R201). -/
theorem buildFreq_lt {vd : Variant} {rate : Nat} (h : rateRejected vd rate = false) {f : Nat}
    (hf : f ∈ buildFreq vd rate) : f < 2 ^ 24 := by
  unfold buildFreq at hf
  obtain ⟨c, hc, rfl⟩ := List.mem_map.mp hf
  unfold rateRejected at h
  rw [Bool.or_eq_false_iff, decide_eq_false_iff_not] at h
  have := freqEntry_mono vd rate (show c ≤ 1023 by have := List.mem_range.mp hc; omega)
  omega

/-- A swing entry is at least 1 (R205, R206). -/
theorem one_le_swingEntry (ms : Ratio) (rate : Nat) : 1 ≤ swingEntry ms rate := le_max_left _ _

end Sys2Proof.Machine
end

