-- ==== Sys2Proof/Laws/PerInstr.lean ====
section
/-!
SUPPORT. One statement per instruction: the number of bytes of its encoding (30_encoding.md R111, R115, R117, R119,
R140).
-/
namespace Sys2Proof.Laws

/-- The number of bytes the spec gives an instruction: of a host command the opcode byte and its operands (R111), of a
register row those of its WRITE or WRITE_GLOBAL (R115, R117, R119), of a header one (R140). -/
def specLength : Instr → Nat
  | .write _ _ _ => 4
  | .writeGlobal _ _ => 3
  | .configure _ => 5
  | .loadRom _ _ length _ => 13 + length.toNat
  | .tick => 1
  | .readFrame => 1
  | .reset => 1
  | .readStatus _ => 2
  | .pan _ _ => 4
  | .smpl _ _ => 4
  | .pitchL _ _ _ => 4
  | .pitchH _ _ _ => 4
  | .keyOn _ => 4
  | .keyOff _ => 4
  | .tl _ _ _ => 4
  | .lfo _ _ => 4
  | .am _ _ => 4
  | .enable _ => 3
  | .bank _ => 3
  | .seqIndex _ => 4
  | .seqStart => 4
  | .seqStop => 4
  | .hdrEnd => 1
  | .hdrSilence _ => 1
  | .hdrFixed _ => 1
  | .hdrCounted _ => 1
  | .hdrRepeat _ => 1

namespace EncodeLength

/-- A well-formed instruction is encoded in the number of bytes the spec gives it. -/
def Statement (i : Instr) : Prop := ∀ block, i.wf block = true → (encode i).length = specLength i

theorem write (sel sub data : Byte) : Statement (.write sel sub data) := fun _ _ => rfl
theorem writeGlobal (reg data : Byte) : Statement (.writeGlobal reg data) := fun _ _ => rfl
theorem configure (clock : U32) : Statement (.configure clock) := fun _ _ => rfl

theorem loadRom (total offset length : U32) (data : List Byte) :
    Statement (.loadRom total offset length data) := by
  intro block h
  simp only [Instr.wf, beq_iff_eq] at h
  simp [encode, specLength, h]
  omega

theorem tick : Statement .tick := fun _ _ => rfl
theorem readFrame : Statement .readFrame := fun _ _ => rfl
theorem reset : Statement .reset := fun _ _ => rfl
theorem readStatus (sel : Byte) : Statement (.readStatus sel) := fun _ _ => rfl
theorem pan (sel : Byte) (p : BitVec 4) : Statement (.pan sel p) := fun _ _ => rfl
theorem smpl (sel low : Byte) : Statement (.smpl sel low) := fun _ _ => rfl

theorem pitchL (sel : Byte) (f : BitVec 6) (h : BitVec 1) : Statement (.pitchL sel f h) :=
  fun _ _ => rfl

theorem pitchH (sel : Byte) (o f : BitVec 4) : Statement (.pitchH sel o f) := fun _ _ => rfl
theorem keyOn (sel : Byte) : Statement (.keyOn sel) := fun _ _ => rfl
theorem keyOff (sel : Byte) : Statement (.keyOff sel) := fun _ _ => rfl
theorem tl (sel : Byte) (l : BitVec 7) (d : BitVec 1) : Statement (.tl sel l d) := fun _ _ => rfl
theorem lfo (sel data : Byte) : Statement (.lfo sel data) := fun _ _ => rfl
theorem am (sel data : Byte) : Statement (.am sel data) := fun _ _ => rfl
theorem enable (en : BitVec 1) : Statement (.enable en) := fun _ _ => rfl
theorem bank (b : Byte) : Statement (.bank b) := fun _ _ => rfl
theorem seqIndex (index : Byte) : Statement (.seqIndex index) := fun _ _ => rfl
theorem seqStart : Statement .seqStart := fun _ _ => rfl
theorem seqStop : Statement .seqStop := fun _ _ => rfl
theorem hdrEnd : Statement .hdrEnd := fun _ _ => rfl
theorem hdrSilence (a : BitVec 6) : Statement (.hdrSilence a) := fun _ _ => rfl
theorem hdrFixed (a : BitVec 6) : Statement (.hdrFixed a) := fun _ _ => rfl
theorem hdrCounted (a : BitVec 6) : Statement (.hdrCounted a) := fun _ _ => rfl
theorem hdrRepeat (a : BitVec 6) : Statement (.hdrRepeat a) := fun _ _ => rfl

end EncodeLength

end Sys2Proof.Laws
end

