-- ==== Sys2Proof/Laws/Sequencer.lean ====
section
/-!
SUPPORT. The sequencer: what a register write, a state's action and a whole tick of the FSM can change.
-/
namespace Sys2Proof.Machine

/-- The two states differ in the sequencer and in the BLOCK voice, which became `W`, and in nothing else. -/
def State.seqOnly (s t : State) (W : Voice) : Prop :=
  t = { s with seq := t.seq, voices := s.voices.set 0 W }

theorem set_self (l : List Voice) (n : Nat) (d : Voice) : l.set n (l.getD n d) = l := by
  induction l generalizing n with
  | nil => rfl
  | cons x t ih => cases n with
    | zero => rfl
    | succ n => simp only [List.set_cons_succ, List.getD_cons_succ, ih]

theorem voices_set_v0 (s : State) : s.voices.set 0 s.v0 = s.voices := set_self ..

/-- What the FSM's action makes of its voice: nothing, a recorded error, or one nibble decoded (R333). -/
inductive SeqVoice (s : State) : Voice → Prop
  | same : SeqVoice s s.v0
  | error : SeqVoice s s.v0.recordProtocolError
  | nibble (x : BitVec 4) : SeqVoice s (s.v0.adpcmStep (seqDialect s.vd) x)

theorem headerAction_cases (addr : Nat) (h : Header) (s : State) :
    ∃ W, SeqVoice s W ∧ s.seqOnly (headerAction addr h s) W := by
  cases h with
  | loopBack a =>
    unfold headerAction
    simp only [hdrRepeat]
    split
    · exact ⟨_, .same, by simp [State.seqOnly, req, voices_set_v0]⟩
    · exact ⟨_, .error, by simp [State.seqOnly, repeatError, State.setV0, State.setVoice]⟩
  | stop => exact ⟨_, .same, by simp [State.seqOnly, headerAction, hdrEnd, req, voices_set_v0]⟩
  | silence a =>
    exact ⟨_, .same, by simp [State.seqOnly, headerAction, hdrSilence, req, voices_set_v0]⟩
  | fixed a =>
    exact ⟨_, .same, by simp [State.seqOnly, headerAction, hdrFixed, req, voices_set_v0]⟩
  | counted a =>
    exact ⟨_, .same, by simp [State.seqOnly, headerAction, hdrCounted, req, voices_set_v0]⟩

/-- A block header changes the sequencer and at most the error code of its voice (R346). -/
theorem readHeader_cases (h : Header) (s : State) :
    ∃ W, SeqVoice s W ∧ s.seqOnly (readHeader h s) W := by
  obtain ⟨W, hW, e⟩ := headerAction_cases s.seq.cursor h (rdNext s)
  refine ⟨W, ?_, ?_⟩
  · cases hW
    · exact .same
    · exact .error
    · exact .nibble _
  · unfold State.seqOnly readHeader at *
    rw [e]
    rfl

/-- Every action of the FSM changes the sequencer and at most its voice (R333). -/
theorem seqAct_cases (s : State) : ∃ W, SeqVoice s W ∧ s.seqOnly (seqAct s) W := by
  unfold seqAct
  split
  case h_1 => exact ⟨_, .same, by simp [State.seqOnly, voices_set_v0]⟩
  case h_2 => exact ⟨_, .same, by simp [State.seqOnly, startAct, goto, voices_set_v0]⟩
  case h_3 => exact ⟨_, .same, by simp [State.seqOnly, addr1Act, req, rdNext, voices_set_v0]⟩
  case h_4 =>
    unfold addr2Act
    split
    · exact ⟨_, .error, by
        simp [State.seqOnly, pointerError, rdNext, State.setV0, State.setVoice, State.v0, State.voice]⟩
    · exact ⟨_, .same, by simp [State.seqOnly, req, voices_set_v0]⟩
  case h_5 => exact ⟨_, .same, by simp [State.seqOnly, goto, voices_set_v0]⟩
  case h_6 => exact ⟨_, .same, by simp [State.seqOnly, goto, voices_set_v0]⟩
  case h_7 => exact readHeader_cases _ s
  case h_8 =>
    exact ⟨_, .same, by simp [State.seqOnly, nibbleCountAct, req, rdNext, voices_set_v0]⟩
  case h_9 =>
    exact ⟨_, .nibble ((rdByte s).extractLsb' 4 4), by
      simp [State.seqOnly, nibbleMSNAct, countNibble, seqNibble, req, rdNext, State.setV0,
        State.setVoice, State.v0, State.voice]⟩
  case h_10 =>
    exact ⟨_, .nibble (s.seq.latch.extractLsb' 0 4), by
      simp [State.seqOnly, nibbleLSNAct, countNibble, seqNibble, goto, State.setV0, State.setVoice]⟩
  case h_11 => exact ⟨_, .same, by simp [State.seqOnly, dropDRQ, voices_set_v0]⟩

/-- So does counting down (R333). -/
theorem seqAdvance_cases (s : State) : ∃ W, SeqVoice s W ∧ s.seqOnly (seqAdvance s) W := by
  unfold seqAdvance
  split
  · exact ⟨_, .same, by simp [State.seqOnly, voices_set_v0]⟩
  · split
    · exact ⟨_, .same, by simp [State.seqOnly, voices_set_v0]⟩
    · exact seqAct_cases s

/-- Outside the sequencer and voice 0 a tick of the FSM changes nothing. -/
theorem seqTick_frame (s : State) :
    ∃ W, s.seqOnly (seqTick s) W := by
  obtain ⟨W, -, h⟩ := seqAdvance_cases s
  unfold State.seqOnly at h
  refine ⟨{ (seqAdvance s).v0 with
    active := seqRunning (seqAdvance s).seq, keyed := seqRunning (seqAdvance s).seq
    outL := seqOutput (seqAdvance s), outR := 0 }, ?_⟩
  unfold State.seqOnly seqTick seqPublish State.setV0 State.setVoice
  generalize seqOutput (seqAdvance s) = o
  rw [h]
  simp

/-- A write to the BLOCK voice changes the sequencer and at most its voice (R331, R332). -/
theorem seqWrite_cases (sub d : Byte) (s : State) :
    seqWrite sub d s = s
      ∨ seqWrite sub d s = { s with seq := { s.seq with idxReg := d } }
      ∨ seqWrite sub d s = seqStart s ∨ seqWrite sub d s = seqStop s := by
  unfold seqWrite
  split
  · exact .inr (.inl rfl)
  · split
    · split
      · exact .inr (.inr (.inl rfl))
      · exact .inr (.inr (.inr rfl))
    · exact .inl rfl

/-- The FSM's output lies on the 16-bit scale, and is 0 in Idle (R339). -/
theorem seqOutput_range (s : State) : -32768 ≤ seqOutput s ∧ seqOutput s ≤ 32767 := by
  unfold seqOutput adpcmOutput clamp16 clamp
  split <;> omega

theorem seqOutput_idle {s : State} (h : seqRunning s.seq = false) : seqOutput s = 0 := by
  simp [seqOutput, h]

end Sys2Proof.Machine
end

