-- ==== Sys2Proof/Laws/Voices.lean ====
section
/-!
SUPPORT. What one step can make of a voice, said once: every voice of the next state is a voice of the state before,
unchanged or changed by one register write, one tick, or one action of the sequencer, or a voice at its
power-on values.
-/
namespace Sys2Proof.Machine

/-- What a step can make of the voice `V` of a state (R221, R331, R333, R381, R405). -/
inductive VoiceEffect (s : State) (V : Voice) : Voice → Prop
  | same : VoiceEffect s V V
  | reset : VoiceEffect s V Voice.powerOn
  | register (hb : isBlock s.vd = false) {W : Voice} (h : RegisterUpdate s V W) : VoiceEffect s V W
  | tick (hb : isBlock s.vd = false) (ha : V.active = true) : VoiceEffect s V (voiceTick s V)
  | seqStart (hb : isBlock s.vd = true) :
      VoiceEffect s V
        { V with acc := 0, sidx := 0, err := 0, outL := 0, active := true, keyed := true }
  | seqStop (hb : isBlock s.vd = true) :
      VoiceEffect s V { V with active := false, keyed := false, outL := 0 }
  | seqTick (hb : isBlock s.vd = true) {W : Voice}
      (hW : W = V ∨ W = V.recordProtocolError ∨ ∃ x, W = V.adpcmStep (seqDialect s.vd) x)
      (run : Bool) (out : Int) (h : -32768 ≤ out ∧ out ≤ 32767) (h' : run = false → out = 0) :
      VoiceEffect s V { W with active := run, keyed := run, outL := out, outR := 0 }

theorem mem_set_cases {l : List Voice} {n : Nat} {W X : Voice} (h : X ∈ l.set n W) :
    X ∈ l ∨ X = W ∧ l.getD n Voice.powerOn ∈ l := by
  induction l generalizing n with
  | nil => simp at h
  | cons y t ih =>
    cases n with
    | zero =>
      simp only [List.set_cons_zero, List.mem_cons] at h
      rcases h with h | h
      · exact .inr ⟨h, by simp⟩
      · exact .inl (List.mem_cons_of_mem _ h)
    | succ n =>
      simp only [List.set_cons_succ, List.mem_cons] at h
      rcases h with h | h
      · exact .inl (by simp [h])
      · rcases ih h with h | ⟨h, h'⟩
        · exact .inl (List.mem_cons_of_mem _ h)
        · exact .inr ⟨h, List.mem_cons_of_mem _ (by simpa using h')⟩

theorem setVoice_effect {s : State} {v : Nat} {W X : Voice}
    (hW : VoiceEffect s (s.voice v) W) (h : X ∈ (s.setVoice v W).voices) :
    X = Voice.powerOn ∨ ∃ V ∈ s.voices, VoiceEffect s V X := by
  rcases mem_set_cases h with h | ⟨rfl, h'⟩
  · exact .inr ⟨X, h, .same⟩
  · exact .inr ⟨_, h', hW⟩

theorem seqWrite_voices {s : State} {sub d : Byte} {X : Voice} (hb : isBlock s.vd = true)
    (h : X ∈ (seqWrite sub d s).voices) :
    X = Voice.powerOn ∨ ∃ V ∈ s.voices, VoiceEffect s V X := by
  rcases seqWrite_cases sub d s with e | e | e | e <;> rw [e] at h
  · exact .inr ⟨X, h, .same⟩
  · exact .inr ⟨X, h, .same⟩
  · exact setVoice_effect (v := 0) (.seqStart hb) h
  · exact setVoice_effect (v := 0) (.seqStop hb) h

theorem seqPublish_voices {s u : State} {W X : Voice} (hb : isBlock s.vd = true)
    (hW : SeqVoice s W) (hu : u.voices = s.voices.set 0 W) (h : X ∈ (seqPublish u).voices) :
    X = Voice.powerOn ∨ ∃ V ∈ s.voices, VoiceEffect s V X := by
  unfold seqPublish State.setV0 State.setVoice at h
  simp only at h
  cases hs : s.voices with
  | nil =>
    rw [hu, hs] at h
    simp at h
  | cons V0 t =>
    have h0 : s.v0 = V0 := by simp [State.v0, State.voice, hs]
    have hu0 : u.v0 = W := by simp [State.v0, State.voice, hu, hs]
    rw [hu, hs, hu0] at h
    simp only [List.set_cons_zero, List.mem_cons] at h
    rcases h with rfl | h
    · refine .inr ⟨V0, by simp, .seqTick hb ?_ _ _ (seqOutput_range u) seqOutput_idle⟩
      cases hW
      · exact .inl h0
      · exact .inr (.inl (by rw [h0]))
      · exact .inr (.inr ⟨_, by rw [h0]⟩)
    · exact .inr ⟨X, by simp [h], .same⟩

/-- Every voice after a host command comes from a voice before it by one effect, or is at power-on. -/
theorem HostEffect.voices {s u : State} (h : HostEffect s u) {X : Voice} (hX : X ∈ u.voices) :
    X = Voice.powerOn ∨ ∃ V ∈ s.voices, VoiceEffect s V X := by
  cases h with
  | nothing => exact .inr ⟨X, hX, .same⟩
  | enable b => exact .inr ⟨X, hX, .same⟩
  | bank b => exact .inr ⟨X, hX, .same⟩
  | blockWrite sub d hb => exact seqWrite_voices hb hX
  | voice v W hb hW => exact setVoice_effect (.register hb hW) hX
  | configure rate h => exact .inr ⟨X, hX, .same⟩
  | die => exact .inr ⟨X, hX, .same⟩
  | load total offset length data => exact .inr ⟨X, hX, .same⟩
  | reset => exact .inl (List.eq_of_mem_replicate hX)
  | tick =>
    unfold ticked mix at hX
    simp only at hX
    cases hb : isBlock s.vd with
    | true =>
      rw [hb] at hX
      obtain ⟨W, hW, e⟩ := seqAdvance_cases s
      exact seqPublish_voices hb hW (by rw [e]) hX
    | false =>
      rw [hb] at hX
      simp only [tickVoices, Bool.false_eq_true, if_false, List.mem_map] at hX
      obtain ⟨V, hV, rfl⟩ := hX
      refine .inr ⟨V, hV, ?_⟩
      split
      · exact .tick hb ‹_›
      · exact .same

/-- Every voice after a step comes from a voice before it by one effect, or is at power-on. -/
theorem step_voices {s t : State} (h : step s = .next t) {X : Voice} (hX : X ∈ t.voices) :
    X = Voice.powerOn ∨ ∃ V ∈ s.voices, ∃ rest, VoiceEffect (s.consumed rest) V X := by
  rcases step_effect h with rfl | ⟨rest, u, hu, e⟩
  · exact .inr ⟨X, hX, [], .same⟩
  · rw [e] at hX
    rcases HostEffect.voices hu hX with h | ⟨V, hV, h⟩
    · exact .inl h
    · exact .inr ⟨V, hV, rest, h⟩

/-- No step changes the descriptor. -/
theorem HostEffect.vd {s u : State} (h : HostEffect s u) : u.vd = s.vd := by
  cases h with
  | blockWrite sub d hb =>
    rcases seqWrite_cases sub d s with e | e | e | e <;> rw [e] <;> rfl
  | tick =>
    unfold ticked mix
    simp only
    split
    · obtain ⟨W, e⟩ := seqTick_frame s; rw [e]
    · rfl
  | nothing => rfl
  | enable b => rfl
  | bank b => rfl
  | voice v W hb hW => rfl
  | configure rate h => rfl
  | die => rfl
  | load total offset length data => rfl
  | reset => rfl

/-- No step changes the number of voices but RESET, which restores the descriptor's. -/
theorem HostEffect.length {s u : State} (h : HostEffect s u) :
    u.voices.length = s.voices.length ∨ u.voices.length = s.vd.nVoices := by
  cases h with
  | blockWrite sub d hb =>
    left
    rcases seqWrite_cases sub d s with e | e | e | e <;> rw [e] <;>
      simp [seqStart, seqStop, State.setV0, State.setVoice]
  | tick =>
    left
    unfold ticked mix
    simp only
    split
    · obtain ⟨W, e⟩ := seqTick_frame s; rw [e]; simp
    · simp [tickVoices]
  | nothing => exact .inl rfl
  | enable b => exact .inl rfl
  | bank b => exact .inl rfl
  | voice v W hb hW => exact .inl (by simp [State.setVoice])
  | configure rate h => exact .inl rfl
  | die => exact .inl rfl
  | load total offset length data => exact .inl rfl
  | reset => exact .inr (by simp [resetCore])

/-- No step changes the image but LOAD_ROM (R83). -/
theorem HostEffect.rom {s u : State} (h : HostEffect s u) :
    u.rom = s.rom ∨ ∃ total offset length data, u.rom = s.rom.load s.vd.fill total offset length data := by
  cases h with
  | blockWrite sub d hb =>
    left
    rcases seqWrite_cases sub d s with e | e | e | e <;> rw [e] <;> rfl
  | tick =>
    left
    unfold ticked mix
    simp only
    split
    · obtain ⟨W, e⟩ := seqTick_frame s; rw [e]
    · rfl
  | nothing => exact .inl rfl
  | enable b => exact .inl rfl
  | bank b => exact .inl rfl
  | voice v W hb hW => exact .inl rfl
  | configure rate h => exact .inl rfl
  | die => exact .inl rfl
  | load total offset length data => exact .inr ⟨_, _, _, _, rfl⟩
  | reset => exact .inl rfl

/-- No step changes the tables but a valid CONFIGURE (R42). -/
theorem HostEffect.tables {s u : State} (h : HostEffect s u) :
    u.tables = s.tables
      ∨ ∃ rate, rateRejected s.vd rate = false ∧ u.tables = buildTables s.vd rate s.tables := by
  cases h with
  | blockWrite sub d hb =>
    left
    rcases seqWrite_cases sub d s with e | e | e | e <;> rw [e] <;> rfl
  | tick =>
    left
    unfold ticked mix
    simp only
    split
    · obtain ⟨W, e⟩ := seqTick_frame s; rw [e]
    · rfl
  | nothing => exact .inl rfl
  | enable b => exact .inl rfl
  | bank b => exact .inl rfl
  | voice v W hb hW => exact .inl rfl
  | configure rate h => exact .inr ⟨rate, h, rfl⟩
  | die => exact .inl rfl
  | load total offset length data => exact .inl rfl
  | reset => exact .inl rfl

end Sys2Proof.Machine
end

