-- ==== Sys2Proof/Tests/Slice0.lean ====
section
/-!
SUPPORT. Tests. Expected values are the spec's own (95_test_vectors.md, named with each test) or worked by hand from
the rule named; encodings are written out from 30_encoding.md. The last sections show, for every statement
with hypotheses, states and operands that meet them.
-/
namespace Sys2Proof.Tests

set_option Elab.async false

open Sys2Proof.Machine

/-! ## Small states -/

/-- VT, configured, with the first three frequency entries of rate 1000 (95_test_vectors.md 1.1). -/
def ready : State :=
  { State.reset with
    g := { Globals.powerOn with configured := true, sampleRate := 1000 }
    tables := { freq := [4096, 4100, 4104], atk := [], dec := [] } }

/-- BT, configured. -/
def block : State :=
  { State.powerOn Config.testBlock with
    g := { Globals.powerOn with configured := true, sampleRate := 1000 } }

/-- A state with the given bytes as its image. -/
def withRom (s : State) (bytes : List Byte) : State :=
  { s with rom := Memory.load s.vd.fill Memory.powerOn bytes.length 0 bytes.length bytes }

/-- The instance dead (R504). -/
def dead : State := { ready with g := { ready.g with fatal := true } }

/-- Part of the next state of an instruction, if it has one. -/
def after {α : Type} (i : Instr) (s : State) (f : State → α) : Option α :=
  match exec i s with
  | .next t => some (f t)
  | .fault _ => none
  | .refused _ => none

/-- The fault of an instruction, if it has one. -/
def faultOf (i : Instr) (s : State) : Option Fault :=
  match exec i s with
  | .next _ => none
  | .fault f => some f
  | .refused _ => none

/-- The refusal of a step, if it has one. -/
def stepRefusal (s : State) : Option Refusal :=
  match step s with
  | .next _ => none
  | .fault _ => none
  | .refused r => some r

/-- The image of program P1 (95_test_vectors.md 4.1): a PCM8 record and its four samples. -/
def imageP1 : List Byte :=
  [0x00, 0x0C, 0x00, 0x00, 0x00, 0x00, 0x04, 0x00, 0xF0, 0x00, 0xF0, 0x00, 0x10, 0x20, 0xF0, 0x80]

/-- The image of program P2 (95_test_vectors.md 4.2), its record as in V-ENC-4. -/
def imageP2 : List Byte :=
  [0x0B, 0x0C, 0x00, 0x00, 0x02, 0x00, 0x06, 0x00, 0xF0, 0x00, 0xF1, 0x00, 0x77, 0x1F, 0x93]

/-- Voice 0 of P1 after its key-on. -/
def voiceP1 : Voice :=
  { Voice.powerOn with
    active := true, keyed := true, start := 12, endPos := 4, step := 4096, stage := .attack, eAR := 63 }

/-- VT with voice 0 playing. -/
def playing (V : Voice) : State := (withRom ready imageP1).setVoice 0 V

/-- A looping PCM8 voice over the first two samples of P1. -/
def looper : Voice := { voiceP1 with loopEn := true, endPos := 2 }

/-- BT with the FSM in a state, reading the stream of program P3 (95_test_vectors.md 4.3). -/
def inState (st : SeqState) (cursor : Nat) : State :=
  { withRom block [0x00, 0x02, 0x01, 0xC1, 0x40, 0x7F, 0x12, 0x81, 0x02, 0x35, 0xA0, 0x00] with
    seq := { Seq.powerOn with st := st, cursor := cursor } }

/-! ## Well-formedness: every check refuses an ill-formed term -/

theorem test_descriptors_wf : Config.testVoices.wf = true ∧ Config.testBlock.wf = true := by
  decide +kernel

/-- A descriptor broken in one constraint of R8, R9, R10, R15 or R19. -/
theorem test_wf_refuses_descriptor :
    ([{ Config.testVoices with nVoices := 3 }, { Config.testVoices with divisor := 0 },
      { Config.testVoices with codecs := [.voice .pcm8, .voice .pcm8] },
      { Config.testVoices with outMaskBits := 16 },
      { Config.testVoices with pitchRef := ⟨0, 1⟩ },
      { Config.testVoices with pitchRef := ⟨1, 0⟩ }].all fun vd => !vd.wf) = true := by
  decide +kernel

/-- A descriptor with voices broken in one constraint of R11, R16, R20, R21 or R22. -/
theorem test_wf_refuses_voices :
    ([{ Config.testVoices with env := .none }, { Config.testVoices with panVol := [] },
      { Config.testVoices with panVol := List.replicate 128 (List.replicate 16 (4097, 0)) },
      { Config.testVoices with panVol := List.replicate 128 (List.replicate 15 (0, 0)) },
      { Config.testVoices with
        panVol := List.replicate 64 (List.replicate 16 (0, 0))
          ++ List.replicate 64 (List.replicate 16 (1, 0)) },
      { Config.testVoices with panLaw := .logNotch },
      { Config.testVoices with rampRise := 0 }, { Config.testVoices with rampFall := 0 },
      { Config.testVoices with base := [] },
      { Config.testVoices with base := List.replicate 64 none },
      { Config.testVoices with ratio := ⟨0, 1⟩ }, { Config.testVoices with exp := [] },
      { Config.testVoices with exp := List.replicate 1024 4097 },
      { Config.testVoices with exp := 4 :: List.replicate 1023 3 },
      { Config.testVoices with bankThreshold := 0x1001 },
      { Config.testVoices with bankThreshold := 2 ^ 24 }].all fun vd => !vd.wf) = true := by
  decide +kernel

/-- What a descriptor need not meet where nothing reads it (log 20). -/
theorem test_wf_unread_constants :
    Variant.wf { Config.testVoices with banked := false, bankThreshold := 0x1001 } = true
      ∧ Variant.wf { Config.testBlock with bankThreshold := 0, panVol := [] } = true := by decide +kernel

/-- A dialect broken in one constraint of R23 or R279. -/
theorem test_wf_refuses_dialect :
    ([{ Config.testDialect with codeBits := 5 }, { Config.testDialect with diff := [] },
      { Config.testDialect with diff := List.replicate 4 [] },
      { Config.testDialect with magMode := .direct }, { Config.testDialect with adj := [] },
      { Config.testDialect with accMin := 0 }, { Config.testDialect with accMax := 0 },
      { Config.testDialect with dampShift := some 0 },
      { Config.testDialect with dampShift := some 16 }, { Config.testDialect with norm := 16 },
      { Config.testDialect with norm := 5 },
      { Config.testDialect with accMin := -2049 }].all fun d =>
        !d.wf && !Variant.wf { Config.testVoices with dialectA := d }) = true := by
  decide +kernel

/-- A BLOCK descriptor broken in one constraint of R10, R11, R12 or R24. -/
theorem test_wf_refuses_block :
    ([{ Config.testBlock with codecs := [.block, .voice .pcm8] },
      { Config.testBlock with nVoices := 4 }, { Config.testBlock with env := .ramp },
      { Config.testBlock with stereo := true }, { Config.testBlock with seqPtrScale := 0 },
      { Config.testBlock with seqFixedNibbles := 0 }, { Config.testBlock with seqRateUnit := 0 },
      { Config.testBlock with seqSilenceUnit := 0 },
      { Config.testBlock with dialectA := { Config.testDialect with norm := 16 } }].all
        fun vd => !vd.wf) = true := by
  decide +kernel

/-- On a non-BLOCK variant: named rows spelt as WRITE, wrong lengths, and everything of a BLOCK voice. -/
theorem test_wf_refuses_instr :
    ([Instr.write 0 7 0, .writeGlobal 1 0, .loadRom 8 0 2 [1], .seqIndex 0, .seqStart, .seqStop, .hdrEnd,
      .hdrSilence 1, .hdrFixed 0, .hdrCounted 0, .hdrRepeat 0].all fun i => !i.wf false) = true := by
  decide +kernel

/-- On a BLOCK variant: named rows spelt as WRITE, a SILENCE that is END, and everything of a voice with
pitch and key registers. -/
theorem test_wf_refuses_instr_block :
    ([Instr.write 0 0 0, .write 0 1 0, .writeGlobal 0 0, .loadRom 8 0 0 [1], .hdrSilence 0, .pan 0 0,
      .smpl 0 0, .pitchL 0 0 0, .pitchH 0 0 0, .keyOn 0, .keyOff 0, .tl 0 0 0, .lfo 0 0,
      .am 0 0].all fun i => !i.wf true) = true := by
  decide +kernel

/-- The canonical form of the image refuses unsorted cells, fill bytes and cells beyond the image. -/
theorem test_wf_refuses_memory :
    ¬ Memory.wf 0 ⟨4, [(2, 1), (1, 1)]⟩ ∧ ¬ Memory.wf 0 ⟨4, [(1, 0)]⟩ ∧ ¬ Memory.wf 0 ⟨4, [(4, 1)]⟩ := by
  decide +kernel

/-! ## Decoding: one word of every row, written out from its encoding -/

/-- R111, R233: `01 00 08 FF`. -/
theorem test_decode_write :
    decode false [0x01, 0x00, 0x08, 0xFF] = .command (.write 0 8 0xFF) [] := by decide +kernel

/-- R111, R235: `02 09 01`. -/
theorem test_decode_writeGlobal :
    decode false [0x02, 0x09, 0x01] = .command (.writeGlobal 9 1) [] := by decide +kernel

/-- V-ENC-1: CONFIGURE 4000000. -/
theorem test_decode_configure :
    decode false [0x03, 0x00, 0x09, 0x3D, 0x00] = .command (.configure 4000000) [] := by
  decide +kernel

/-- V-ENC-1: LOADROM 8, 6, 4, [09, 0A, 0B, 0C], and a TICK after it. -/
theorem test_decode_loadRom :
    decode false [0x04, 8, 0, 0, 0, 6, 0, 0, 0, 4, 0, 0, 0, 0x09, 0x0A, 0x0B, 0x0C, 0x05]
      = .command (.loadRom 8 6 4 [0x09, 0x0A, 0x0B, 0x0C]) [0x05] := by decide +kernel

/-- V-ENC-2: `05 06` is TICK, then READ_FRAME. -/
theorem test_decode_tick : decode false [0x05, 0x06] = .command .tick [0x06] := by decide +kernel

theorem test_decode_readFrame : decode false [0x06] = .command .readFrame [] := by decide +kernel

theorem test_decode_reset : decode true [0x07] = .command .reset [] := by decide +kernel

/-- V-ENC-1: STATUS 3. -/
theorem test_decode_readStatus : decode false [0x08, 0x03] = .command (.readStatus 3) [] := by
  decide +kernel

/-- V-ENC-1: PAN 1, 8. -/
theorem test_decode_pan : decode false [0x01, 0x01, 0x00, 0x80] = .command (.pan 1 8) [] := by
  decide +kernel

/-- V-ENC-1, the SETUP row: registers 1, 2, 3. -/
theorem test_decode_smpl : decode false [0x01, 0x00, 0x01, 0x05] = .command (.smpl 0 5) [] := by
  decide +kernel

theorem test_decode_pitchL :
    decode false [0x01, 0x00, 0x02, 0x4D] = .command (.pitchL 0 0x13 1) [] := by decide +kernel

theorem test_decode_pitchH :
    decode false [0x01, 0x00, 0x03, 0x18] = .command (.pitchH 0 1 8) [] := by decide +kernel

/-- V-ENC-1: KEYON 0, KEYOFF 0; bits 6..0 are reserved (R120). -/
theorem test_decode_keyOn :
    decode false [0x01, 0x00, 0x04, 0x80] = .command (.keyOn 0) []
      ∧ decode false [0x01, 0x00, 0x04, 0xFF] = .command (.keyOn 0) [] := by decide +kernel

theorem test_decode_keyOff :
    decode false [0x01, 0x00, 0x04, 0x00] = .command (.keyOff 0) []
      ∧ decode false [0x01, 0x00, 0x04, 0x7F] = .command (.keyOff 0) [] := by decide +kernel

/-- V-ENC-1: LEVEL 2, 3, 0. -/
theorem test_decode_tl : decode false [0x01, 0x02, 0x05, 0x06] = .command (.tl 2 3 0) [] := by
  decide +kernel

theorem test_decode_lfo : decode false [0x01, 0x00, 0x06, 0xFF] = .command (.lfo 0 0xFF) [] := by
  decide +kernel

theorem test_decode_am : decode false [0x01, 0x03, 0x07, 0xA5] = .command (.am 3 0xA5) [] := by
  decide +kernel

/-- V-ENC-1: ENABLE 0, BANK 3. -/
theorem test_decode_enable : decode false [0x02, 0x00, 0x00] = .command (.enable 0) [] := by
  decide +kernel

theorem test_decode_bank : decode false [0x02, 0x01, 0x03] = .command (.bank 3) [] := by
  decide +kernel

/-- V-ENC-1: SEQSTART 3 is an index write and a start. -/
theorem test_decode_seqIndex :
    decode true [0x01, 0x00, 0x00, 0x03, 0x01] = .command (.seqIndex 3) [0x01] := by decide +kernel

theorem test_decode_seqStart : decode true [0x01, 0x00, 0x01, 0x01] = .command .seqStart [] := by
  decide +kernel

theorem test_decode_seqStop : decode true [0x01, 0x00, 0x01, 0x00] = .command .seqStop [] := by
  decide +kernel

/-- V-ENC-3. -/
theorem test_decode_hdrEnd : Instr.ofHeader (decodeHeader 0x00) = .hdrEnd := by decide +kernel

theorem test_decode_hdrSilence :
    Instr.ofHeader (decodeHeader 0x01) = .hdrSilence 1
      ∧ Instr.ofHeader (decodeHeader 0x3F) = .hdrSilence 63 := by decide +kernel

theorem test_decode_hdrFixed :
    Instr.ofHeader (decodeHeader 0x40) = .hdrFixed 0
      ∧ Instr.ofHeader (decodeHeader 0x7F) = .hdrFixed 63 := by decide +kernel

theorem test_decode_hdrCounted :
    Instr.ofHeader (decodeHeader 0x80) = .hdrCounted 0
      ∧ Instr.ofHeader (decodeHeader 0xBF) = .hdrCounted 63 := by decide +kernel

theorem test_decode_hdrRepeat :
    Instr.ofHeader (decodeHeader 0xC0) = .hdrRepeat 0
      ∧ Instr.ofHeader (decodeHeader 0xFF) = .hdrRepeat 63 := by decide +kernel

/-- V-ENC-2: the refusals of the decoder. -/
theorem test_decode_refuses :
    decode false [0x09] = .illegalCommand 0x09 ∧ decode false [0x00, 0x05] = .illegalCommand 0x00
      ∧ decode false [0x01, 0x00, 0x04] = .truncated
      ∧ decode false [0x04, 8, 0, 0, 0, 0, 0, 0, 0, 2, 0, 0, 0, 0xAA] = .truncated := by
  decide +kernel

/-- V-ENC-2 through a step. -/
theorem test_step_refuses :
    stepRefusal { ready with input := [0x09] } = some (.illegalCommand 0x09)
      ∧ stepRefusal { ready with input := [0x01, 0x00, 0x04] } = some .truncated := by
  decide +kernel

/-- Table words: byte 0 is the least significant byte; a header byte is one byte (logs 5, 15). -/
theorem test_table_words :
    decodeTableWord 32 0x80040001 = some (.keyOn 0) ∧ decodeTableWord 40 0x0005DC0003 = some (.configure 384000)
      ∧ decodeTableWord 24 0x000002 = some (.enable 0) ∧ decodeTableWord 8 0x05 = some .tick
      ∧ decodeTableWord 8 0x04 = some (.loadRom 0 0 0 []) ∧ decodeTableWord 8 0xC1 = some (.hdrRepeat 1) := by
  decide +kernel

/-- A header word stands where the next TICK's FSM reads it (log 15): FIXED with argument 1. -/
theorem test_fetch_header :
    (match step (State.reset.withFetchWord 8 0x41) with
      | .next t => decide (t.seq.ret = .nibbleMSN ∧ t.seq.period = 2 ∧ t.seq.st = .dropDRQ)
      | .fault _ => false
      | .refused _ => false) = true := by decide +kernel

/-- A command word stands at the front of the command stream, alone (log 15). -/
theorem test_fetch_command : (State.reset.withFetchWord 32 0x03000102).input = [0x02, 0x01, 0x00] := by
  decide +kernel

/-! ## Host commands -/

/-- V-CFG: CONFIGURE 384000. -/
theorem test_configure :
    after (.configure 384000) State.reset (fun t => decide (t.result = .rate 1000
      ∧ t.tables.freq.getD 512 0 = 6144 ∧ t.tables.freq.getD 1023 0 = 8188
      ∧ t.tables.atk.getD 4 none = some 16777216 ∧ t.tables.dec.getD 62 none = some 8388608
      ∧ t.tables.atk.getD 63 none = none)) = some true := by decide +kernel

/-- V-CFG: CONFIGURE 383 has rate 0, CONFIGURE 786816384 an invalid rate. -/
theorem test_configure_error :
    after (.configure 383) State.reset (fun t => (t.result, t.g.fatal, t.g.configured))
        = some (.configurationError 383, true, false)
      ∧ after (.configure 786816384) State.reset (fun t => t.g.fatal) = some true := by
  decide +kernel

/-- E5: LOADROM 8, 6, 4 copies two bytes. -/
theorem test_loadRom_truncates :
    after (.loadRom 8 6 4 [0x09, 0x0A, 0x0B, 0x0C]) (withRom ready [1, 2, 3, 4, 5, 6, 7, 8])
      (fun t => (List.range 9).map (romRead t)) = some [1, 2, 3, 4, 5, 6, 9, 10, 0] := by
  decide +kernel

/-- R400: an offset beyond the total changes nothing; a smaller total drops bytes. -/
theorem test_loadRom_sizes :
    after (.loadRom 8 9 1 [0x55]) (withRom ready [1, 2]) (fun t => t.rom.len) = some 2
      ∧ after (.loadRom 1 0 0 []) (withRom ready [1, 2]) (fun t => (t.rom.len, romRead t 1)) = some (1, 0) := by
  decide +kernel

/-- P1, tick 1: frame (4096, 4096). -/
theorem test_tick :
    after .tick (playing voiceP1) (fun t => (t.g.frameL, t.g.frameR, (t.voice 0).pos, (t.voice 0).level))
      = some (4096, 4096, 1, 0x3FFFFFF) := by decide +kernel

/-- P1, tick 5: the voice is past its end, halts, and the frame is (0, 0). -/
theorem test_tick_end :
    after .tick (playing { voiceP1 with pos := 4, stage := .decay1, level := 0x3FFFFFF, outL := -32768 })
      (fun t => (t.g.frameL, (t.voice 0).active, (t.voice 0).outL, (t.voice 0).stage))
      = some (0, false, 0, .idle) := by decide +kernel

/-- R386: READ_FRAME gives both halves on a stereo descriptor and the left one on a mono one. -/
theorem test_readFrame :
    after .readFrame { ready with g := { ready.g with frameL := -5, frameR := 7 } } (fun t => t.result)
        = some (.frameStereo (-5) 7)
      ∧ after .readFrame { block with g := { block.g with frameL := -5 } } (fun t => t.result)
        = some (.frameMono (-5)) := by decide +kernel

/-- E3: after RESET the voice is silent; image, tables, rate and `configured` stay. -/
theorem test_reset :
    after .reset (playing voiceP1) (fun t => decide (t = { withRom ready imageP1 with result := .void }))
      = some true := by decide +kernel

/-- V-REG-7, R118: ERR 1 and KEYED read 0x12; a selector that reaches no voice reads 0. -/
theorem test_readStatus :
    after (.readStatus 0) (playing { voiceP1 with active := false, err := 1 }) (fun t => t.result)
        = some (.status 0x12)
      ∧ after (.readStatus 9) (playing voiceP1) (fun t => t.result) = some (.status 0) := by
  decide +kernel

/-- R410: a running FSM with DRQ high reads 0x07. -/
theorem test_readStatus_block :
    after (.readStatus 0)
      { block with seq := { Seq.powerOn with st := .dropDRQ, drq := true } } (fun t => t.result)
      = some (.status 0x07) := by decide +kernel

/-! ## Register writes (V-REG-2, V-REG-3) -/

theorem test_write_reserved :
    after (.write 0 8 0xFF) ready (fun t => decide (t = { ready with result := .void })) = some true := by
  decide +kernel

/-- `WRITE 9, 4, 0x80` is dropped, with no fault even before CONFIGURE. -/
theorem test_write_dropped :
    after (.write 9 4 0x80) State.reset (fun t => decide (t = State.reset)) = some true := by
  decide +kernel

theorem test_writeGlobal_reserved :
    after (.writeGlobal 2 0xFF) ready (fun t => decide (t = { ready with result := .void })) = some true := by
  decide +kernel

/-- `WRITE 0, 0, 0x8F`: pan = 8. -/
theorem test_pan :
    after (.write 0 0 0x8F) ready (fun t => (t.voice 0).pan) = some 8
      ∧ after (.pan 0 8) ready (fun t => (t.voice 0).pan) = some 8 := by decide +kernel

/-- SMPL keeps SMP[8]. -/
theorem test_smpl :
    after (.smpl 0 5) (playing { voiceP1 with sample := 0x1FF }) (fun t => (t.voice 0).sample)
      = some 0x105 := by decide +kernel

/-- `WRITE 0, 2, 0x08`: fn = 2, sample[8] = 0, step = 4104. -/
theorem test_pitchL :
    after (.write 0 2 0x08) ready (fun t => ((t.voice 0).fn, (t.voice 0).step)) = some (2, 4104)
      ∧ faultOf (.pitchL 0 2 0) State.reset = some .unconfigured := by decide +kernel

/-- `WRITE 0, 3, 0x10`, `0x80` and `0xF0`: steps 8192, 16, 2048. -/
theorem test_pitchH :
    after (.pitchH 0 1 0) ready (fun t => (t.voice 0).step) = some 8192
      ∧ after (.pitchH 0 8 0) ready (fun t => (t.voice 0).step) = some 16
      ∧ after (.pitchH 0 15 0) ready (fun t => (t.voice 0).step) = some 2048 := by decide +kernel

/-- The record of V-ENC-4 keyed on: codec, loop, end, effective rates, step. -/
theorem test_keyOn :
    after (.keyOn 0) (withRom ready imageP2) (fun t => let V := t.voice 0
      decide (V.codec = .adpcmA ∧ V.loopEn = true ∧ V.start = 12 ∧ V.loopStart = 2 ∧ V.endPos = 6
        ∧ V.eAR = 63 ∧ V.eD1 = 0 ∧ V.eRR = 4 ∧ V.step = 4096 ∧ V.stage = .attack ∧ V.active = true))
      = some true := by decide +kernel

/-- V-REG-7: a reserved codec; V-REG-3: a key-on before CONFIGURE. -/
theorem test_keyOn_rejects :
    after (.keyOn 0) (withRom ready [0x06]) (fun t => ((t.voice 0).err, (t.voice 0).keyed, (t.voice 0).active))
        = some (1, true, false)
      ∧ faultOf (.keyOn 0) State.reset = some .unconfigured := by decide +kernel

/-- E2a: key-off with a zero release rate halts at once; with a release rate the voice enters Release. -/
theorem test_keyOff :
    after (.keyOff 0) (playing voiceP1) (fun t => ((t.voice 0).active, (t.voice 0).stage)) = some (false, .idle)
      ∧ after (.keyOff 0) (playing { voiceP1 with eRR := 4 }) (fun t =>
          ((t.voice 0).active, (t.voice 0).keyed, (t.voice 0).stage)) = some (true, false, .release) := by
  decide +kernel

/-- `WRITE 0, 5, 0x21` sets target and level, `0x20` the target only. -/
theorem test_tl :
    after (.write 0 5 0x21) ready (fun t => ((t.voice 0).tlTgt, (t.voice 0).tlCur)) = some (16, 1048576)
      ∧ after (.write 0 5 0x20) ready (fun t => ((t.voice 0).tlTgt, (t.voice 0).tlCur)) = some (16, 0) := by
  decide +kernel

theorem test_lfo :
    after (.lfo 3 0xFF) ready (fun t => ((t.voice 3).lfo, (t.voice 3).am)) = some (0xFF, 0) := by
  decide +kernel

theorem test_am :
    after (.am 3 0xFF) ready (fun t => ((t.voice 3).lfo, (t.voice 3).am)) = some (0, 0xFF) := by
  decide +kernel

theorem test_enable :
    after (.writeGlobal 0 0xFE) ready (fun t => t.g.enable) = some false
      ∧ after (.enable 1) ready (fun t => t.g.enable) = some true := by decide +kernel

theorem test_bank : after (.bank 3) ready (fun t => (t.g.bank, t.g.enable)) = some (3, true) := by
  decide +kernel

/-- V-REG-1: the SKIP8 map with 28 voices. -/
theorem test_selector_skip8 :
    [0, 6, 7, 8, 14, 15, 16, 23, 24, 30, 31, 32, 255].map
        (voiceOf { Config.testVoices with selMap := .skip8, nVoices := 28 })
      = [some 0, some 6, none, some 7, some 13, none, some 14, none, some 21, some 27, none, none, none] := by
  decide +kernel

/-- V-REG-4: EffRate, the last three rows. -/
theorem test_effRate :
    effRate 5 2 600 15 = 23 ∧ effRate 14 7 1023 7 = 63 ∧ effRate 1 0 0 8 = 4 := by decide +kernel

/-- V-DEC-1, PCM12: the four slots of a super-frame. -/
theorem test_pcm12 :
    [0, 1, 2, 3].map (pcm12Unit (withRom ready [0x21, 0x43, 0x65, 0x87, 0xA9, 0xCB]) 0)
      = [12816, 25920, -26512, -13408] := by decide +kernel

/-- V-DEC-2: codes 0x7 and 0x9 from accumulator 0 and step index 3. -/
theorem test_adpcm_code :
    ([0x7, 0x9].map fun x => let V := Voice.adpcmStep { Voice.powerOn with sidx := 3 } Config.testDialect x
      (V.acc, V.sidx)) = [(240, 3), (-48, 2)] := by decide +kernel

/-! ## The sequencer (P3) -/

theorem test_seqIndex : after (.seqIndex 3) block (fun t => t.seq.idxReg) = some 3 := by
  decide +kernel

theorem test_seqStart :
    after .seqStart (inState .nibbleLSN 6) (fun t => (t.seq.st, t.seq.cd, t.seq.cursor, (t.voice 0).active))
      = some (.start, 0, 6, true) := by decide +kernel

theorem test_seqStop :
    after .seqStop (inState .nibbleLSN 6) (fun t => (t.seq.st, (t.voice 0).active)) = some (.idle, false) := by
  decide +kernel

theorem test_hdrEnd :
    after .hdrEnd (inState .blockHeader 11) (fun t => (t.seq.st, t.seq.ret, t.seq.cursor, t.seq.drq))
      = some (.dropDRQ, .idle, 12, true) := by decide +kernel

/-- SILENCE 1 lasts two ticks: BlockHeader is entered with countdown 1 (R351). -/
theorem test_hdrSilence :
    after (.hdrSilence 1) (inState .blockHeader 2) (fun t => (t.seq.ret, t.seq.retCd, t.seq.lbAddr, t.seq.silent))
      = some (.blockHeader, 1, 2, true) := by decide +kernel

theorem test_hdrFixed :
    after (.hdrFixed 63) (inState .blockHeader 4) (fun t => (t.seq.ret, t.seq.nibLeft, t.seq.period, t.seq.cursor))
      = some (.nibbleMSN, 4, 64, 5) := by decide +kernel

theorem test_hdrCounted :
    after (.hdrCounted 1) (inState .blockHeader 7) (fun t => (t.seq.ret, t.seq.period, t.seq.lbAddr))
      = some (.nibbleCount, 2, 7) := by decide +kernel

/-- E7: the first reading of a marker with count 1 loops back to the block before it; with no block before it
the FSM goes to Idle with ProtocolError (R355). -/
theorem test_hdrRepeat :
    after (.hdrRepeat 1)
        { inState .blockHeader 3 with
          seq := { (inState .blockHeader 3).seq with lbValid := true, lbAddr := 2 } }
        (fun t => (t.seq.cursor, t.seq.repCount, t.seq.repActive)) = some (2, 1, true)
      ∧ after (.hdrRepeat 1) (inState .blockHeader 3) (fun t => (t.seq.st, (t.voice 0).err)) = some (.idle, 1) := by
  decide +kernel

/-- On a descriptor without BLOCK no sequencer exists (log 7). -/
theorem test_header_without_block :
    (match exec .hdrEnd ready with
      | .next _ => false
      | .fault _ => false
      | .refused r => decide (r = .noSequencer)) = true := by decide +kernel

/-- A header read by a TICK (R346): SILENCE 1 at address 2 of P3. -/
theorem test_tick_block :
    after .tick (inState .blockHeader 2) (fun t => (t.seq.st, t.seq.cursor, t.seq.silent, (t.voice 0).active))
      = some (.dropDRQ, 3, true, true) := by decide +kernel

/-! ## Witnesses: states and operands that meet the hypotheses of each statement -/

/-- Whether an instruction answers a next state. -/
def goesOn (i : Instr) (s : State) : Bool := (after i s fun _ => ()).isSome

theorem goesOn_next {i : Instr} {s : State} (h : goesOn i s = true) : ∃ t, exec i s = .next t := by
  unfold goesOn after at h
  cases he : exec i s with
  | next t => exact ⟨t, rfl⟩
  | fault f => simp [he] at h
  | refused r => simp [he] at h

/-- Whether a step answers a next state. -/
def stepsOn (s : State) : Bool :=
  match step s with
  | .next _ => true
  | .fault _ => false
  | .refused _ => false

theorem stepsOn_next {s : State} (h : stepsOn s = true) : ∃ t, step s = .next t := by
  unfold stepsOn at h
  cases he : step s with
  | next t => exact ⟨t, rfl⟩
  | fault f => simp [he] at h
  | refused r => simp [he] at h

/-- VT with voice 0 playing and a TICK pending. -/
def ticking : State := { playing voiceP1 with input := [0x05] }

/-- BT about to read a header, with a TICK pending. -/
def ticBlock : State :=
  { inState .blockHeader 2 with
    voices := [{ Voice.powerOn with active := true, keyed := true }], input := [0x05] }

/-- A looping ADPCM voice at its end, with a snapshot. -/
def adpcmLooper : Voice :=
  { looper with codec := .adpcmA, pos := 2, snapValid := true, snapAcc := 30, snapIdx := 2 }

/-- VT with the ramp as its only amplitude stage. -/
def rampOnly : State := { ready with vd := { ready.vd with env := .ramp } }

/-- VT with a dialect that does not restore at the loop. -/
def noRestore : State :=
  { ready with vd := { ready.vd with dialectA := { Config.testDialect with loopRestore := false } } }

/-- A voice in Release one tick before its end, with the tables its envelope reads. -/
def releasing : State :=
  { playing { voiceP1 with stage := .release, level := 1, eRR := 4 } with
    tables := { freq := [4096], atk := [], dec := List.replicate 64 (some 1) } }

theorem witness_CommandRoundTrip :
    Instr.wf false (.loadRom 8 6 4 [9, 10, 11, 12]) = true ∧ (Instr.loadRom 8 6 4 [9, 10, 11, 12]).isHeader = false
      ∧ Instr.wf true (.seqIndex 255) = true ∧ (Instr.seqIndex 255).isHeader = false
      ∧ Instr.wf false (.write 0 8 0) = true ∧ Instr.wf true (.write 0 2 0) = true := by decide +kernel

theorem witness_HeaderRoundTrip :
    Instr.wf true (.hdrSilence 1) = true ∧ (Instr.hdrSilence 1).isHeader = true
      ∧ Instr.wf true (.hdrRepeat 63) = true ∧ (Instr.hdrRepeat 63).isHeader = true := by decide +kernel

theorem witness_CutCommandIsTruncated :
    Instr.wf (isBlock ready.vd) (.keyOn 0) = true ∧ (Instr.keyOn 0).isHeader = false
      ∧ encode (.keyOn 0) = [0x01, 0x00, 0x04] ++ [0x80]
      ∧ ({ ready with input := [0x01, 0x00, 0x04] } : State).input = [0x01, 0x00, 0x04]
      ∧ Instr.wf (isBlock ready.vd) (.loadRom 8 0 1 [9]) = true
      ∧ encode (.loadRom 8 0 1 [9]) = [0x04, 8, 0, 0, 0, 0, 0, 0, 0, 1, 0, 0, 0] ++ [9] := by
  decide +kernel

theorem witness_StepRunsDecodedCommand :
    decode (isBlock ticking.vd) ticking.input = .command .tick []
      ∧ (∃ s : State, s.input = 0 :: [] ∧ ((0 : Byte) = 0 ∨ 9 ≤ (0 : Byte).toNat))
      ∧ (∃ s : State, s.input = 9 :: [5] ∧ ((9 : Byte) = 0 ∨ 9 ≤ (9 : Byte).toNat))
      ∧ (∃ s : State, s.input = 255 :: [] ∧ ((255 : Byte) = 0 ∨ 9 ≤ (255 : Byte).toNat))
      ∧ (∃ s : State, decode (isBlock s.vd) s.input = .truncated)
      ∧ ready.input = [] :=
  ⟨by decide +kernel, ⟨{ ready with input := [0] }, rfl, by decide⟩,
    ⟨{ ready with input := [9, 5] }, rfl, by decide⟩, ⟨{ ready with input := [255] }, rfl, by decide⟩,
    ⟨{ ready with input := [0x01, 0x00, 0x04] }, by decide +kernel⟩, rfl⟩

theorem witness_TickRunsDecodedHeader :
    (inState .blockHeader 2).g.fatal = false ∧ (inState .blockHeader 2).g.configured = true
      ∧ isBlock (inState .blockHeader 2).vd = true ∧ (inState .blockHeader 2).seq.st = .blockHeader
      ∧ (inState .blockHeader 2).seq.cd = 0 := by decide +kernel

theorem witness_ReservedBitsIgnored : isBlock ready.vd = false ∧ isBlock block.vd = true := by
  decide +kernel

theorem witness_ReservedAddressesNoEffect :
    ready.g.fatal = false ∧ isBlock ready.vd = false ∧ 8 ≤ (8 : Byte).toNat ∧ block.g.fatal = false
      ∧ isBlock block.vd = true ∧ 2 ≤ (2 : Byte).toNat := by decide +kernel

theorem witness_DroppedWritesChangeNothing :
    ready.g.fatal = false ∧ voiceOf ready.vd 4 = none ∧ voiceOf block.vd 1 = none := by decide +kernel

theorem witness_SelectorMap :
    Config.testVoices.selMap = .direct ∧ voiceOf Config.testVoices 3 = some 3
      ∧ ({ Config.testVoices with selMap := .skip8 } : Variant).selMap = .skip8
      ∧ voiceOf { Config.testVoices with selMap := .skip8, nVoices := 28 } 30 = some 27 := by decide +kernel

theorem witness_HostOperationOutcome :
    Instr.isHeader .tick = false ∧ dead.g.fatal = true ∧ State.reset.g.fatal = false
      ∧ State.reset.g.configured = false ∧ needsTables State.reset .tick = true
      ∧ needsTables State.reset (.pitchL 3 0 0) = true ∧ needsTables State.reset (.pitchL 4 0 0) = false
      ∧ needsTables State.reset (.write 0 4 0x80) = true ∧ needsTables State.reset (.write 0 4 0x7F) = false
      ∧ ready.g.fatal = false ∧ ready.g.configured = true := by decide +kernel

theorem witness_OnlyTheirOwnersWrite : ∃ t, exec .tick ticking = .next t :=
  goesOn_next (by decide +kernel)

/-- At CONFIGURE 384000 and at the largest clock that is not rejected (V-CFG). -/
theorem witness_ConfigureBuildsTables :
    State.reset.g.fatal = false
      ∧ (1000 = (384000 : U32).toNat / State.reset.vd.divisor ∧ (1000 : Nat) ≠ 0
        ∧ (1024 + 1023) * 1000 * 4096 * State.reset.vd.pitchRef.den / (1024 * State.reset.vd.pitchRef.num)
            < 2 ^ 24)
      ∧ 2049000 = (786816383 : U32).toNat / State.reset.vd.divisor
      ∧ (1024 + 1023) * 2049000 * 4096 * State.reset.vd.pitchRef.den
          / (1024 * State.reset.vd.pitchRef.num) < 2 ^ 24 := by decide +kernel

theorem witness_BadRateIsConfigurationError :
    State.reset.g.fatal = false ∧ (383 : U32).toNat / State.reset.vd.divisor = 0
      ∧ 2 ^ 24 ≤ (1024 + 1023) * ((786816384 : U32).toNat / State.reset.vd.divisor) * 4096
          * State.reset.vd.pitchRef.den / (1024 * State.reset.vd.pitchRef.num) := by decide +kernel

theorem witness_FrequencyTableShape :
    1022 ≤ 1023 ∧ 1023 < 1024 ∧ 0 ≤ (0 : BitVec 4).toInt ∧ (1 : BitVec 4).toInt = (0 : BitVec 4).toInt + 1
      ∧ (7 : BitVec 4).toInt = (6 : BitVec 4).toInt + 1 ∧ (0 : BitVec 4).toInt ≤ 0
      ∧ (15 : BitVec 4).toInt = (0 : BitVec 4).toInt - 1 ∧ (8 : BitVec 4).toInt = (9 : BitVec 4).toInt - 1 := by
  decide +kernel

theorem witness_NonDegenerateRatesMove :
    State.reset.vd.env = .adsrRamp
      ∧ after (.configure 384000) State.reset (fun t => t.result) = some (.rate 1000)
      ∧ degenerate State.reset.vd 4 = false ∧ degenerate State.reset.vd 62 = false
      ∧ degenerate State.reset.vd 3 = true ∧ degenerate State.reset.vd 63 = true := by decide +kernel

theorem witness_voice_registers :
    reaches ready 0 0 ∧ reaches ready 3 3 ∧ ready.g.configured = true ∧ reaches State.reset 3 3 := by
  decide +kernel

/-- The octaves at the ends of both directions of the shift. -/
theorem witness_PitchWritesRetune :
    reaches ready 3 3 ∧ ready.g.configured = true ∧ 0 ≤ (0 : BitVec 4).toInt ∧ 0 ≤ (7 : BitVec 4).toInt
      ∧ (15 : BitVec 4).toInt < 0 ∧ (8 : BitVec 4).toInt < 0 := by decide +kernel

theorem witness_LfoAmHaveNoEffect :
    (∃ t, exec .tick ticking = .next t) ∧ exec .tick State.reset = .fault .unconfigured
      ∧ exec .hdrEnd ready = .refused .noSequencer :=
  ⟨goesOn_next (by decide +kernel), rfl, rfl⟩

theorem witness_GlobalWritesSetGlobals : ready.g.fatal = false := by decide +kernel

theorem witness_KeyOnStartsPlayback :
    reaches (withRom ready imageP2) 0 0 ∧ (withRom ready imageP2).g.configured = true
      ∧ playableCodec ready.vd (metadataOf (withRom ready imageP2) 0).codec = some .adpcmA
      ∧ ready.vd.env = .adsrRamp ∧ reaches (withRom rampOnly imageP2) 0 0
      ∧ playableCodec rampOnly.vd (metadataOf (withRom rampOnly imageP2) 0).codec = some .adpcmA
      ∧ rampOnly.vd.env ≠ .adsrRamp := by decide +kernel

/-- A reserved codec, and one the variant has not. -/
theorem witness_KeyOnRejectsCodec :
    reaches (withRom ready [0x06]) 0 0 ∧ (withRom ready [0x06]).g.configured = true
      ∧ playableCodec ready.vd (metadataOf (withRom ready [0x06]) 0).codec = none
      ∧ playableCodec ready.vd (metadataOf (withRom ready [0x04]) 0).codec = none := by decide +kernel

theorem witness_KeyOffReleasesOrHalts :
    reaches ready 0 0 ∧ (ready.voice 0).active = false ∧ reaches (playing voiceP1) 0 0
      ∧ ((playing voiceP1).voice 0).active = true
      ∧ degenerate ready.vd ((playing voiceP1).voice 0).eRR = true
      ∧ ((playing { voiceP1 with eRR := 4 }).voice 0).active = true
      ∧ degenerate ready.vd ((playing { voiceP1 with eRR := 4 }).voice 0).eRR = false
      ∧ ready.vd.env = .adsrRamp ∧ rampOnly.vd.env ≠ .adsrRamp := by decide +kernel

theorem witness_EffectiveRateCode :
    (1 : BitVec 4) ≠ 0 ∧ (1 : BitVec 4) ≠ 15 ∧ (14 : BitVec 4) ≠ 0 ∧ (14 : BitVec 4) ≠ 15 := by decide

theorem witness_BankRemapWindow :
    Config.testVoices.banked = true ∧ Config.testVoices.bankThreshold ≤ 0x1000
      ∧ 0xFFF < Config.testVoices.bankThreshold ∧ Config.testBlock.banked = false
      ∧ Config.testVoices.wf = true ∧ isBlock Config.testVoices = false ∧ 2 ^ 24 - 1 < 2 ^ 24 := by
  decide +kernel

/-- A looping voice; one that does not loop with one unit left, with none left, and beyond its end. -/
theorem witness_CursorMovesByUnits :
    looper.active = true ∧ (looper.loopEn = true ∧ looper.keyed = true ∧ looper.loopStart < looper.endPos)
      ∧ voiceP1.active = true
      ∧ ¬ (voiceP1.loopEn = true ∧ voiceP1.keyed = true ∧ voiceP1.loopStart < voiceP1.endPos)
      ∧ (voiceP1.phase + voiceP1.step) / 4096 = 1
      ∧ ({ voiceP1 with pos := 3 } : Voice).pos + 1 = voiceP1.endPos
      ∧ (advanceVoice (playing voiceP1) { voiceP1 with pos := 3 }).active = true
      ∧ ({ voiceP1 with pos := 4 } : Voice).pos ≤ voiceP1.endPos
      ∧ (advanceVoice (playing voiceP1) { voiceP1 with pos := 4 }).active = false
      ∧ voiceP1.endPos < ({ voiceP1 with pos := 5 } : Voice).pos := by decide +kernel

/-- Before the end: the first unit of a loop with and without its snapshot; at the end: a voice that does not loop,
a looping PCM8 voice, and a looping ADPCM voice with each kind of dialect and snapshot. -/
theorem witness_FetchAtEndWrapsOrHalts :
    (let V : Voice := { adpcmLooper with pos := 0, snapValid := false }
     V.pos < V.endPos ∧ dialectOf ready.vd V.codec ≠ none ∧ V.loopEn = true ∧ V.pos = V.loopStart
       ∧ V.snapValid = false)
      ∧ ({ adpcmLooper with pos := 0 } : Voice).snapValid = true
      ∧ ({ adpcmLooper with pos := 1 } : Voice).pos < adpcmLooper.endPos
      ∧ voiceP1.endPos ≤ ({ voiceP1 with pos := 4 } : Voice).pos ∧ voiceP1.loopEn = false
      ∧ looper.endPos ≤ ({ looper with pos := 2 } : Voice).pos
      ∧ (looper.loopEn = true ∧ looper.keyed = true ∧ looper.loopStart < looper.endPos)
      ∧ dialectOf ready.vd looper.codec = none ∧ adpcmLooper.endPos ≤ adpcmLooper.pos
      ∧ (adpcmLooper.loopEn = true ∧ adpcmLooper.keyed = true
          ∧ adpcmLooper.loopStart < adpcmLooper.endPos)
      ∧ dialectOf ready.vd adpcmLooper.codec = some Config.testDialect
      ∧ adpcmLooper.snapValid = true ∧ Config.testDialect.loopRestore = true
      ∧ (dialectOf noRestore.vd adpcmLooper.codec).map (fun d => d.loopRestore) = some false := by
  decide +kernel

theorem witness_LinearUnitValues :
    voiceP1.codec = .pcm8 ∧ ({ voiceP1 with codec := .pcm16 } : Voice).codec = .pcm16
      ∧ ({ voiceP1 with codec := .pcm12 } : Voice).codec = .pcm12 := by decide +kernel

/-- The three dialects of a stream; 3 and 4 code bits; the high and the low nibble of a byte of P2. -/
theorem witness_AdpcmUnitUpdate :
    Config.testVoices.seqDialect = .a ∧ ({ Config.testVoices with seqDialect := .b } : Variant).seqDialect = .b
      ∧ ({ Config.testVoices with seqDialect := .c } : Variant).seqDialect = .c
      ∧ Config.testDialect.codeBits = 4 ∧ ({ Config.testDialect with codeBits := 3 } : Dialect).codeBits = 3
      ∧ dialectOf ready.vd adpcmLooper.codec = some Config.testDialect
      ∧ (let byte := (romRead (withRom ready imageP2) (12 + 2 / 2)).toNat
         (0x1 : BitVec 4).toNat = (if (2 % 2 = 0 ↔ Config.testDialect.nibOrder = .highFirst)
           then byte / 16 else byte % 16)
         ∧ (0xF : BitVec 4).toNat = (if (3 % 2 = 0 ↔ Config.testDialect.nibOrder = .highFirst)
           then byte / 16 else byte % 16)) := by
  decide +kernel

theorem witness_InterpolationStaysBetween :
    ({ voiceP1 with phase := 4095, step := 4097 } : Voice).phase < 4096 ∧ voiceP1.step % 4096 = 0
      ∧ ({ voiceP1 with phase := 4095, step := 4097 } : Voice).step % 4096 ≠ 0 := by decide +kernel

/-- A configured instance; a voice that ends in the tick, and one that goes on, with ramp only and with ADSR. -/
theorem witness_TickAdvancesVoicesAndMixes :
    ticking.g.fatal = false ∧ ticking.g.configured = true ∧ isBlock ticking.vd = false
      ∧ (advanceVoice ticking { voiceP1 with pos := 4 }).active = false
      ∧ (advanceVoice ticking voiceP1).active = true ∧ ticking.vd.env = .adsrRamp
      ∧ (advanceVoice (withRom rampOnly imageP1) voiceP1).active = true ∧ rampOnly.vd.env = .ramp := by
  decide +kernel

theorem witness_VoiceTickReadsOnlyItsVoice :
    ready.vd = (playing voiceP1).vd ∧ (withRom ready imageP1).rom = (playing voiceP1).rom
      ∧ ready.tables = (playing voiceP1).tables ∧ ready.voices ≠ (playing voiceP1).voices := by
  decide +kernel

theorem witness_RampReachesTarget :
    ({ voiceP1 with tlTgt := 127 } : Voice).tlCur ≤ ({ voiceP1 with tlTgt := 127 } : Voice).tlTgt.toNat * 2 ^ 16
      ∧ voiceP1.tlTgt.toNat * 2 ^ 16 ≤ ({ voiceP1 with tlCur := 127 * 65536 } : Voice).tlCur := by
  decide +kernel

/-- Every stage, and the levels where its clauses meet (a missing table entry subtracts 0). -/
theorem witness_EnvelopeTransitions :
    voiceP1.stage = .attack ∧ voiceP1.level ≤ 2 ^ 26 - 1
      ∧ ({ voiceP1 with level := 2 ^ 26 - 1 } : Voice).level ≤ 2 ^ 26 - 1
      ∧ ({ voiceP1 with stage := .decay1 } : Voice).stage = .decay1
      ∧ (let V : Voice := { voiceP1 with stage := .decay1, dlt := 5, eD1 := 4, level := 6 }
         let d := (releasing.tables.dec.getD V.eD1 none).getD 0
         V.level ≤ V.dlt + d ∧ V.dlt ≤ V.level ∧ V.dlt + d < ({ V with level := 7 } : Voice).level)
      ∧ ({ voiceP1 with stage := .decay2 } : Voice).stage = .decay2
      ∧ (releasing.voice 0).stage = .release
      ∧ (let d := (releasing.tables.dec.getD (releasing.voice 0).eRR none).getD 0
         (releasing.voice 0).level ≤ d ∧ d < ({ releasing.voice 0 with level := 2 } : Voice).level)
      ∧ Voice.powerOn.stage = .idle := by decide +kernel

theorem witness_ReleaseStrictlyDecreases :
    isBlock releasing.vd = false ∧ releasing.vd.env = .adsrRamp ∧ 0 < releasing.voices.length
      ∧ (releasing.voice 0).active = true ∧ (releasing.voice 0).stage = .release
      ∧ 1 ≤ rateOf releasing.tables.dec (releasing.voice 0).eRR ∧ goesOn .tick releasing = true := by
  decide +kernel

theorem witness_ReleaseEndsInTime : 1 ≤ rateOf releasing.tables.dec (releasing.voice 0).eRR := by
  decide +kernel

/-- An active voice on an ADSR and on a RAMP descriptor, an inactive one, and the ends of the 16-bit scale. -/
theorem witness_VoiceOutputNeedsNoClamp :
    voiceP1.active = true
      ∧ (Config.testVoices.env = .adsrRamp ∧ 4 = Config.testVoices.exp.getD (voiceP1.level / 2 ^ 16) 0)
      ∧ rampOnly.vd.env = .ramp ∧ Voice.powerOn.active = false
      ∧ Config.testVoices.wf = true ∧ isBlock Config.testVoices = false ∧ inS16 (-32768) ∧ inS16 32767 := by
  decide +kernel

theorem witness_SeqRegisterWrites :
    block.g.fatal = false ∧ isBlock block.vd = true ∧ 0 < block.vd.nVoices := by decide +kernel

theorem witness_HeaderEffects : isBlock (inState .blockHeader 2).vd = true := by decide +kernel

theorem witness_RepeatHeaderEffect :
    isBlock (inState .blockHeader 3).vd = true ∧ (inState .blockHeader 3).seq.lbValid = false
      ∧ ({ (inState .blockHeader 3).seq with lbValid := true } : Seq).lbValid = true := by decide +kernel

/-- A BLOCK instance whose block at 2 has been read, at its marker at 3; the first and the last loop-back of the
smallest and the largest count; and the stream of P3 at address 2, SILENCE 1 and REPEAT 1. -/
theorem witness_MarkerLoopsCountPlusOneTimes :
    isBlock (inState .blockHeader 2).vd = true ∧ goesOn (.hdrSilence 1) (inState .blockHeader 2) = true
      ∧ (after (.hdrSilence 1) (inState .blockHeader 2) fun u =>
          let r : State := { u with seq := { u.seq with cursor := 3, st := .blockHeader } }
          decide (r.vd = (inState .blockHeader 2).vd ∧ sameLoop u.seq r.seq ∧ r.seq.cursor = 3)) = some true
      ∧ Seq.powerOn.repActive = false ∧ 0 ≤ (0 : BitVec 6).toNat ∧ 63 ≤ (63 : BitVec 6).toNat
      ∧ (let s := inState .blockHeader 2
         s.g.fatal = false ∧ s.g.configured = true ∧ 0 < s.vd.seqSilenceUnit
           ∧ s.seq.st = .blockHeader ∧ s.seq.cd = 0 ∧ s.seq.repActive = false
           ∧ decodeHeader (romRead s s.seq.cursor) = .silence 1
           ∧ decodeHeader (romRead s (s.seq.cursor + 1)) = .loopBack 1) := by decide +kernel

theorem witness_BlockTickAdvancesAndPublishes :
    (inState .nibbleMSN 5).g.fatal = false ∧ (inState .nibbleMSN 5).g.configured = true
      ∧ isBlock (inState .nibbleMSN 5).vd = true ∧ (inState .nibbleMSN 5).voices = [Voice.powerOn] := by
  decide +kernel

/-- Addr2 with a pointer to the last byte of the image, and with one just beyond it. -/
theorem witness_PointerFetch :
    (inState .addr1 0).g.fatal = false ∧ (inState .addr1 0).g.configured = true
      ∧ isBlock (inState .addr1 0).vd = true ∧ (inState .addr1 0).seq.cd = 0
      ∧ pointerAddr { withRom block [0x00, 0x02, 0x00] with
          seq := { Seq.powerOn with st := .addr2, cursor := 1 } } = 2
      ∧ (withRom block [0x00, 0x02, 0x00]).rom.len = 3
      ∧ pointerAddr { withRom block [0x00, 0x03, 0x00] with
          seq := { Seq.powerOn with st := .addr2, cursor := 1 } } = 3 := by decide +kernel

theorem witness_NibbleRunStates :
    ([SeqState.nibbleCount, .nibbleMSN, .nibbleLSN, .dropDRQ].all fun st =>
      decide ((inState st 8).g.fatal = false ∧ (inState st 8).g.configured = true
        ∧ isBlock (inState st 8).vd = true ∧ (inState st 8).seq.cd = 0 ∧ (inState st 8).seq.st = st)) = true := by
  decide +kernel

theorem witness_FirstHeaderTick :
    (inState .start 0).g.fatal = false ∧ (inState .start 0).g.configured = true
      ∧ isBlock (inState .start 0).vd = true ∧ (inState .start 0).seq.st = .start
      ∧ (inState .start 0).seq.cd = (inState .start 0).vd.latStart
      ∧ ((romRead (inState .start 0) 0).toNat * 256 + (romRead (inState .start 0) 1).toNat)
          * (inState .start 0).vd.seqPtrScale < (inState .start 0).rom.len := by decide +kernel

theorem witness_MasterEnableOnlyMutes : ticking.g.enable = true ∧ goesOn .tick ticking = true := by
  decide +kernel

theorem witness_ReadsReturnAndChangeNothing :
    ready.g.fatal = false ∧ voiceOf ready.vd 4 = none ∧ voiceOf ready.vd 3 = some 3
      ∧ isBlock ready.vd = false ∧ voiceOf block.vd 0 = some 0 ∧ isBlock block.vd = true := by
  decide +kernel

/-- An offset beyond the total, an offset at the total, and one below it. -/
theorem witness_LoadRomWritesItsBytes :
    ready.g.fatal = false ∧ MemorySafe (withRom ready [1, 2]) ∧ [(9 : Byte)].length = (1 : U32).toNat
      ∧ (8 : U32).toNat < (9 : U32).toNat ∧ (8 : U32).toNat ≤ (8 : U32).toNat
      ∧ (6 : U32).toNat ≤ (8 : U32).toNat := by decide +kernel

theorem witness_ResetClearsAndIsIdempotent : ready.g.fatal = false := by decide +kernel

theorem witness_PowerOnIsSafe : Config.testVoices.wf = true ∧ Config.testBlock.wf = true :=
  test_descriptors_wf

theorem witness_StepKeepsDescriptorVoicesAndImage :
    stepsOn ticking = true ∧ VoiceCount ticking ∧ MemorySafe ticking := by decide +kernel

theorem witness_StepKeepsCursors : CursorSafe ticking ∧ stepsOn ticking = true := by decide +kernel

theorem witness_StepKeepsRanges :
    stepsOn ticking = true ∧ LevelSafe ticking ∧ CodesSafe ticking ∧ PitchSafe ticking := by
  decide +kernel

theorem ticking_voices {V : Voice} (h : V ∈ ticking.voices) : V = voiceP1 ∨ V = Voice.powerOn := by
  have e : ticking.voices = [voiceP1, Voice.powerOn, Voice.powerOn, Voice.powerOn] := by decide +kernel
  rw [e] at h
  simp only [List.mem_cons, List.not_mem_nil, or_false, or_self] at h
  exact h

theorem witness_StepKeepsDecoderState :
    ticking.vd.wf = true ∧ DecodeSafe ticking ∧ stepsOn ticking = true := by
  refine ⟨by decide +kernel, ?_, by decide +kernel⟩
  have hb : ¬ isBlock ticking.vd = true := by decide +kernel
  unfold DecodeSafe
  rw [if_neg hb]
  intro V hV
  rcases ticking_voices hV with rfl | rfl <;> exact ⟨rfl, rfl, rfl, rfl, rfl⟩

theorem witness_StepKeepsInactiveSilent : QuietSafe ticking ∧ stepsOn ticking = true := by
  decide +kernel

theorem witness_StepKeepsOutputs :
    ticking.vd.wf = true ∧ VoiceCount ticking ∧ OutputSafe ticking ∧ stepsOn ticking = true := by
  decide +kernel

theorem witness_StepKeepsHandshake :
    ticBlock.vd.wf = true ∧ VoiceCount ticBlock ∧ SeqSafe ticBlock ∧ BlockVoiceSafe ticBlock
      ∧ stepsOn ticBlock = true := by decide +kernel

end Sys2Proof.Tests
end

section
/-!
PROOFS. What every step keeps of the state (10_state.md): the rules the invariants share. A step that keeps a
property of the state, or of each voice, is one whose effects keep it; each effect is inverted here once.
-/
namespace Sys2Proof.Machine

/-! ## Steps -/

/-- What every effect of a host command keeps, and what reads neither the pending commands nor the last result
(logs 2 and 4), every step keeps. -/
theorem step_keeps {P : State → Prop}
    (hown : ∀ s input result, P s → P { s with input := input, result := result })
    (heffect : ∀ s u, HostEffect s u → P s → P u) {s t : State} (h : step s = .next t) (hs : P s) :
    P t := by
  rcases step_effect h with rfl | ⟨rest, u, hu, ht⟩
  · exact hs
  · rw [ht]
    exact hown u u.input t.result (heffect _ u hu (hown s rest s.result hs))

/-- What holds of a voice at power-on, and what every effect on a voice keeps, every step keeps of all voices. -/
theorem step_keeps_voices {P : Voice → Prop} {s t : State} (h : step s = .next t)
    (hreset : P Voice.powerOn)
    (heffect : ∀ rest V W, VoiceEffect (s.consumed rest) V W → P V → P W)
    (hs : ∀ V ∈ s.voices, P V) : ∀ V ∈ t.voices, P V := by
  intro W hW
  rcases step_voices h hW with rfl | ⟨V, hV, rest, hVW⟩
  · exact hreset
  · exact heffect rest V W hVW (hs V hV)

/-! ## Register writes -/

/-- The voice but for its register fields (R34), its status bits, phase step, stage, total level and outputs. -/
def Voice.sameSample (V W : Voice) : Prop :=
  W = { V with
    pan := W.pan, sample := W.sample, fn := W.fn, oct := W.oct, tlTgt := W.tlTgt, lfo := W.lfo, am := W.am
    active := W.active, keyed := W.keyed, step := W.step, stage := W.stage, tlCur := W.tlCur
    outL := W.outL, outR := W.outR }

/-- A key-on is rejected, or starts a sample of a playable codec, on an ADSR descriptor with its envelope
(R238, R239). -/
theorem keyedVoice_cases (s : State) (V : Voice) :
    keyedVoice s V = rejectKeyOn V
      ∨ ∃ m c, playableCodec s.vd m.codec = some c ∧ m.endPos < 2 ^ 16 ∧ m.loopStart < 2 ^ 16
        ∧ (keyedVoice s V = startPlayback s m c V
          ∨ keyedVoice s V = startEnvelope m (startPlayback s m c V)) := by
  unfold keyedVoice
  simp only
  split
  · exact .inl rfl
  · rename_i c hc
    refine .inr ⟨_, c, hc, BitVec.isLt _, BitVec.isLt _, ?_⟩
    split
    · exact .inr rfl
    · exact .inl rfl

/-- A key-off clears KEYED, and then releases the voice, ends it, or leaves it inactive (R241). -/
theorem keyedOffVoice_cases (vd : Variant) (V : Voice) :
    keyedOffVoice vd V = { V with keyed := false, stage := .release }
      ∨ keyedOffVoice vd V = Voice.deactivate { V with keyed := false }
      ∨ keyedOffVoice vd V = { V with keyed := false } := by
  unfold keyedOffVoice
  split
  · split
    · exact .inl rfl
    · exact .inr (.inl rfl)
  · exact .inr (.inr rfl)

theorem keyedOffVoice_sameSample (vd : Variant) (V : Voice) : V.sameSample (keyedOffVoice vd V) := by
  rcases keyedOffVoice_cases vd V with h | h | h <;> rw [h] <;> rfl

/-- A register write is a key-on, or leaves the sample being played alone (R225-R241). -/
theorem RegisterUpdate.cases {s : State} {V W : Voice} (h : RegisterUpdate s V W) :
    W = keyedVoice s V ∨ V.sameSample W := by
  cases h with
  | keyOn => exact .inl rfl
  | keyOff => exact .inr (keyedOffVoice_sameSample s.vd V)
  | pan d => exact .inr rfl
  | smpl d => exact .inr rfl
  | pitchL d => exact .inr rfl
  | pitchH d => exact .inr rfl
  | tl d => exact .inr rfl
  | lfo d => exact .inr rfl
  | am d => exact .inr rfl

/-! ## The BLOCK voice -/

/-- The voice but for what the sequencer writes of it: accumulator, step index, error code, status bits and
outputs (R331-R339). -/
def Voice.sameOffStream (V W : Voice) : Prop :=
  W = { V with
    acc := W.acc, sidx := W.sidx, err := W.err, active := W.active, keyed := W.keyed
    outL := W.outL, outR := W.outR }
    ∧ (W.err = V.err ∨ W.err = 0 ∨ W.err = protocolErrorCode)

/-! ## Effects on a voice -/

/-- An effect on a voice keeps what power-on has and what key-on, the other register writes, the voice's tick and
the sequencer keep. -/
theorem VoiceEffect.keeps {P : Voice → Prop} {s : State} {V W : Voice} (h : VoiceEffect s V W)
    (hV : P V) (hreset : P Voice.powerOn)
    (hkey : isBlock s.vd = false → P (keyedVoice s V))
    (hregister : isBlock s.vd = false → ∀ W, V.sameSample W → P W)
    (htick : isBlock s.vd = false → P (voiceTick s V))
    (hstream : isBlock s.vd = true → ∀ W, V.sameOffStream W → P W) : P W := by
  cases h with
  | same => exact hV
  | reset => exact hreset
  | register hb h =>
    rcases h.cases with rfl | h
    · exact hkey hb
    · exact hregister hb W h
  | tick hb _ => exact htick hb
  | seqStart hb => exact hstream hb _ ⟨rfl, .inr (.inl rfl)⟩
  | seqStop hb => exact hstream hb _ ⟨rfl, .inl rfl⟩
  | seqTick hb hW run out _ _ =>
    apply hstream hb
    rcases hW with rfl | rfl | ⟨x, rfl⟩
    · exact ⟨rfl, .inl rfl⟩
    · exact ⟨rfl, .inr (.inr rfl)⟩
    · exact ⟨rfl, .inl rfl⟩

end Sys2Proof.Machine
end

section
/-! PROOFS. The descriptor, the number of voices and the image (R30, R43, R44, R80, R83). -/
namespace Sys2Proof.Machine

theorem step_keeps_vd {s t : State} (h : step s = .next t) : t.vd = s.vd :=
  step_keeps (P := fun u => u.vd = s.vd) (fun _ _ _ hu => hu)
    (fun _ _ he hu => he.vd.trans hu) h rfl

theorem HostEffect.voiceCount {s u : State} (h : HostEffect s u) (hs : VoiceCount s) : VoiceCount u := by
  have hvd := h.vd
  unfold VoiceCount at *
  rcases h.length with hl | hl
  · rw [hl, hs, hvd]
  · rw [hl, hvd]

theorem HostEffect.memorySafe {s u : State} (h : HostEffect s u) (hs : MemorySafe s) : MemorySafe u := by
  unfold MemorySafe at *
  rw [h.vd]
  rcases h.rom with hr | ⟨total, offset, length, data, hr⟩
  · rwa [hr]
  · rw [hr]
    exact Memory.load_wf total offset length data hs

/-- Settles O54: by the effects a host command can have. -/
theorem stepKeepsDescriptorVoicesAndImage : Obligations.StepKeepsDescriptorVoicesAndImage := by
  intro s t h
  exact ⟨step_keeps_vd h,
    step_keeps (P := VoiceCount) (fun _ _ _ hu => hu) (fun _ _ he => he.voiceCount) h,
    step_keeps (P := MemorySafe) (fun _ _ _ hu => hu) (fun _ _ he => he.memorySafe) h⟩

end Sys2Proof.Machine
end

section
/-! PROOFS. Cursor and phase (R36, R280). -/
namespace Sys2Proof.Machine

/-- The range of `CursorSafe` on one voice (R36, R280). -/
def Voice.cursorSafe (V : Voice) : Prop :=
  V.pos ≤ V.endPos ∧ V.endPos < 2 ^ 16 ∧ V.loopStart < 2 ^ 16 ∧ V.phase < 4096

@[simp] theorem fetchUnit_phase (s : State) (V : Voice) : (fetchUnit s V).phase = V.phase := by
  rcases fetchUnit_shell s V with h | h <;> rw [h]
  rfl

@[simp] theorem fetchUnit_endPos (s : State) (V : Voice) : (fetchUnit s V).endPos = V.endPos := by
  rcases fetchUnit_shell s V with h | h <;> rw [h]
  rfl

@[simp] theorem fetchUnit_loopStart (s : State) (V : Voice) :
    (fetchUnit s V).loopStart = V.loopStart := by
  rcases fetchUnit_shell s V with h | h <;> rw [h]
  rfl

/-- A fetch moves the cursor only to one unit after its loop start or after its old place, and either lies before
the end (R264, R265). -/
theorem fetchUnit_pos_le {s : State} {V : Voice} (h : V.pos ≤ V.endPos) :
    (fetchUnit s V).pos ≤ V.endPos := by
  rcases fetchUnit_cases s V with ⟨-, hw, e⟩ | ⟨-, -, e⟩ | ⟨hlt, e⟩ <;> rw [e]
  · have hloop : V.loopStart < V.endPos := by
      simp only [Voice.wraps, Bool.and_eq_true, decide_eq_true_eq] at hw
      exact hw.2
    simpa using hloop
  · simpa using h
  · simpa using hlt

theorem fetchUnit_cursorSafe {s : State} {V : Voice} (h : V.cursorSafe) :
    (fetchUnit s V).cursorSafe := by
  obtain ⟨hpos, hend, hloop, hphase⟩ := h
  unfold Voice.cursorSafe
  rw [fetchUnit_endPos, fetchUnit_loopStart, fetchUnit_phase]
  exact ⟨fetchUnit_pos_le hpos, hend, hloop, hphase⟩

/-- The advance leaves the fraction of the phase accumulator, 12 bits, and moves the cursor by fetches (R261). -/
theorem advanceVoice_cursorSafe {s : State} {V : Voice} (h : V.cursorSafe) :
    (advanceVoice s V).cursorSafe := by
  obtain ⟨hpos, hend, hloop, -⟩ := h
  exact advanceVoice_induct (P := Voice.cursorSafe) (fun _ => fetchUnit_cursorSafe)
    ⟨hpos, hend, hloop, Nat.mod_lt _ (by decide)⟩

theorem shape_cursorSafe {s : State} {V : Voice} (h : V.cursorSafe) : (shape s V).cursorSafe := by
  have hramp : (ramp s.vd V).cursorSafe := by rw [ramp_spec]; exact h
  unfold shape
  split
  · exact hramp
  · rcases envelope_spec s (ramp s.vd V) with e | e <;> rw [e] <;> exact hramp
  · exact h

theorem voiceTick_cursorSafe {s : State} {V : Voice} (h : V.cursorSafe) :
    (voiceTick s V).cursorSafe := by
  have hadv := advanceVoice_cursorSafe (s := s) h
  rcases voiceTick_cases s V with ⟨-, e⟩ | ⟨-, e⟩ <;> rw [e, voiceOutput_spec]
  · exact hadv
  · exact shape_cursorSafe hadv

/-- A key-on starts at unit 0 with phase 0, its end and loop start from the 16-bit fields of the record
(R125, R238). -/
theorem keyedVoice_cursorSafe {s : State} {V : Voice} (h : V.cursorSafe) :
    (keyedVoice s V).cursorSafe := by
  rcases keyedVoice_cases s V with e | ⟨m, c, -, hend, hloop, e | e⟩ <;> rw [e]
  · exact h
  · exact ⟨Nat.zero_le _, hend, hloop, Nat.zero_lt_succ 4095⟩
  · exact ⟨Nat.zero_le _, hend, hloop, Nat.zero_lt_succ 4095⟩

theorem powerOn_cursorSafe : Voice.powerOn.cursorSafe := by
  simp [Voice.cursorSafe, Voice.powerOn]

theorem VoiceEffect.cursorSafe {s : State} {V W : Voice} (h : VoiceEffect s V W)
    (hV : V.cursorSafe) : W.cursorSafe :=
  h.keeps hV powerOn_cursorSafe (fun _ => keyedVoice_cursorSafe hV) (fun _ W e => by rw [e]; exact hV)
    (fun _ => voiceTick_cursorSafe hV) (fun _ W e => by rw [e.1]; exact hV)

/-- Settles O55: by the effects a step can have on a voice. -/
theorem stepKeepsCursors : Obligations.StepKeepsCursors := by
  intro s t hs h
  exact step_keeps_voices (P := Voice.cursorSafe) h powerOn_cursorSafe
    (fun _ _ _ e => e.cursorSafe) hs

end Sys2Proof.Machine
end

section
/-! PROOFS. Levels, rate codes, error codes, pitch (R36, R201, R204, R242, R301, R309, R501). -/
namespace Sys2Proof.Machine

/-! ## Levels -/

/-- The range of `LevelSafe` on one voice (R36, R301, R309). -/
def Voice.levelSafe (V : Voice) : Prop :=
  V.level ≤ levelMax ∧ V.dlt ≤ levelMax ∧ V.tlCur ≤ 127 * 2 ^ 16

theorem tlLevel_le (l : BitVec 7) : l.toNat * 2 ^ 16 ≤ 127 * 2 ^ 16 := by
  have := l.isLt
  omega

theorem keyedVoice_levelSafe {s : State} {V : Voice} (h : V.levelSafe) :
    (keyedVoice s V).levelSafe := by
  obtain ⟨hlevel, hdlt, htl⟩ := h
  rcases keyedVoice_cases s V with e | ⟨m, c, -, -, -, e | e⟩ <;> rw [e]
  · exact ⟨hlevel, hdlt, htl⟩
  · exact ⟨hlevel, hdlt, tlLevel_le V.tlTgt⟩
  · exact ⟨Nat.zero_le _, decayThreshold_le m.dl, tlLevel_le V.tlTgt⟩

theorem tlWrite_levelSafe {V : Voice} {d : Byte} (h : V.levelSafe) : (tlWrite V d).levelSafe := by
  obtain ⟨hlevel, hdlt, htl⟩ := h
  refine ⟨hlevel, hdlt, ?_⟩
  unfold tlWrite
  simp only
  split
  · exact tlLevel_le _
  · exact htl

theorem RegisterUpdate.levelSafe {s : State} {V W : Voice} (h : RegisterUpdate s V W)
    (hV : V.levelSafe) : W.levelSafe := by
  cases h with
  | keyOn => exact keyedVoice_levelSafe hV
  | keyOff => rcases keyedOffVoice_cases s.vd V with e | e | e <;> rw [e] <;> exact hV
  | tl d => exact tlWrite_levelSafe hV
  | pan d => exact hV
  | smpl d => exact hV
  | pitchL d => exact hV
  | pitchH d => exact hV
  | lfo d => exact hV
  | am d => exact hV

theorem fetchUnit_levelSafe {s : State} {V : Voice} (h : V.levelSafe) :
    (fetchUnit s V).levelSafe := by
  rcases fetchUnit_shell s V with e | e <;> rw [e] <;> exact h

theorem ramp_levelSafe {vd : Variant} {V : Voice} (h : V.levelSafe) : (ramp vd V).levelSafe := by
  obtain ⟨hlevel, hdlt, htl⟩ := h
  rw [ramp_spec]
  exact ⟨hlevel, hdlt, rampedLevel_le htl⟩

theorem envelope_levelSafe {s : State} {V : Voice} (h : V.levelSafe) : (envelope s V).levelSafe := by
  obtain ⟨hlevel, hdlt, htl⟩ := h
  refine ⟨envelope_level_le hlevel hdlt, ?_⟩
  rcases envelope_spec s V with e | e <;> rw [e] <;> exact ⟨hdlt, htl⟩

theorem voiceTick_levelSafe {s : State} {V : Voice} (h : V.levelSafe) : (voiceTick s V).levelSafe :=
  voiceTick_induct (P := Voice.levelSafe) (fun _ _ h => h) (fun _ => fetchUnit_levelSafe)
    (fun _ => ramp_levelSafe) (fun _ => envelope_levelSafe) (fun _ _ _ h => h) h

theorem powerOn_levelSafe : Voice.powerOn.levelSafe := by
  simp [Voice.levelSafe, Voice.powerOn]

theorem VoiceEffect.levelSafe {s : State} {V W : Voice} (h : VoiceEffect s V W)
    (hV : V.levelSafe) : W.levelSafe := by
  cases h with
  | same => exact hV
  | reset => exact powerOn_levelSafe
  | register _ h => exact h.levelSafe hV
  | tick _ _ => exact voiceTick_levelSafe hV
  | seqStart _ => exact hV
  | seqStop _ => exact hV
  | seqTick _ hW run out _ _ => rcases hW with rfl | rfl | ⟨x, rfl⟩ <;> exact hV

theorem step_keeps_levelSafe {s t : State} (h : step s = .next t) (hs : LevelSafe s) : LevelSafe t :=
  step_keeps_voices (P := Voice.levelSafe) h powerOn_levelSafe (fun _ _ _ e => e.levelSafe) hs

/-! ## Rate codes and error codes -/

/-- The range of `CodesSafe` on one voice (R242, R501). -/
def Voice.codesSafe (V : Voice) : Prop :=
  V.eAR ≤ 63 ∧ V.eD1 ≤ 63 ∧ V.eD2 ≤ 63 ∧ V.eRR ≤ 63 ∧ (V.err = 0 ∨ V.err = protocolErrorCode)

theorem keyedVoice_codesSafe {s : State} {V : Voice} (h : V.codesSafe) :
    (keyedVoice s V).codesSafe := by
  obtain ⟨har, hd1, hd2, hrr, -⟩ := h
  rcases keyedVoice_cases s V with e | ⟨m, c, -, -, -, e | e⟩ <;> rw [e]
  · exact ⟨har, hd1, hd2, hrr, .inr rfl⟩
  · exact ⟨har, hd1, hd2, hrr, .inl rfl⟩
  · exact ⟨effRate_le .., effRate_le .., effRate_le .., effRate_le .., .inl rfl⟩

theorem voiceTick_codesSafe {s : State} {V : Voice} (h : V.codesSafe) : (voiceTick s V).codesSafe :=
  voiceTick_induct (P := Voice.codesSafe) (fun _ _ h => h)
    (fun V h => by rcases fetchUnit_shell s V with e | e <;> rw [e] <;> exact h)
    (fun V h => by rw [ramp_spec]; exact h)
    (fun V h => by rcases envelope_spec s V with e | e <;> rw [e] <;> exact h)
    (fun _ _ _ h => h) h

theorem Voice.sameOffStream.codesSafe {V W : Voice} (h : V.sameOffStream W) (hV : V.codesSafe) :
    W.codesSafe := by
  obtain ⟨e, herr⟩ := h
  obtain ⟨har, hd1, hd2, hrr, hV⟩ := hV
  have hW : W.err = 0 ∨ W.err = protocolErrorCode := by
    rcases herr with herr | herr
    · rwa [herr]
    · exact herr
  rw [e]
  exact ⟨har, hd1, hd2, hrr, hW⟩

theorem powerOn_codesSafe : Voice.powerOn.codesSafe := by
  simp [Voice.codesSafe, Voice.powerOn]

theorem VoiceEffect.codesSafe {s : State} {V W : Voice} (h : VoiceEffect s V W)
    (hV : V.codesSafe) : W.codesSafe :=
  h.keeps hV powerOn_codesSafe (fun _ => keyedVoice_codesSafe hV) (fun _ W e => by rw [e]; exact hV)
    (fun _ => voiceTick_codesSafe hV) (fun _ _ e => e.codesSafe hV)

theorem step_keeps_codesSafe {s t : State} (h : step s = .next t) (hs : CodesSafe s) : CodesSafe t :=
  step_keeps_voices (P := Voice.codesSafe) h powerOn_codesSafe (fun _ _ _ e => e.codesSafe) hs

/-! ## Pitch -/

/-- The frequency table is below 2^24 (R201). -/
def freqInRange (s : State) : Prop := ∀ f ∈ s.tables.freq, f < 2 ^ 24

theorem buildTables_freq (vd : Variant) (rate : Nat) (old : Tables) :
    (buildTables vd rate old).freq = buildFreq vd rate := by
  simp only [buildTables]

/-- CONFIGURE alone builds the table, and rejects a rate with a larger entry (R201). -/
theorem HostEffect.freqInRange {s u : State} (h : HostEffect s u) (hs : freqInRange s) :
    freqInRange u := by
  unfold Machine.freqInRange at *
  rcases h.tables with e | ⟨rate, hr, e⟩ <;> rw [e]
  · exact hs
  · rw [buildTables_freq]
    exact fun _ hf => buildFreq_lt hr hf

theorem step_keeps_freqInRange {s t : State} (h : step s = .next t) (hs : freqInRange s) :
    freqInRange t :=
  step_keeps (P := freqInRange) (fun _ _ _ hu => hu) (fun _ _ e => e.freqInRange) h hs

theorem voiceTick_step (s : State) (V : Voice) : (voiceTick s V).step = V.step :=
  voiceTick_induct (P := fun W => W.step = V.step) (fun _ _ h => h)
    (fun V h => by rcases fetchUnit_shell s V with e | e <;> rw [e] <;> exact h)
    (fun V h => by rw [ramp_spec]; exact h)
    (fun V h => by rcases envelope_spec s V with e | e <;> rw [e] <;> exact h)
    (fun _ _ _ h => h) rfl

/-- A register write keeps the phase step or takes one from the table (R204). -/
theorem RegisterUpdate.step_cases {s : State} {V W : Voice} (h : RegisterUpdate s V W) :
    W.step = V.step ∨ ∃ fn oct, W.step = stepOf s.tables fn oct := by
  cases h with
  | keyOn =>
    rcases keyedVoice_cases s V with e | ⟨m, c, -, -, -, e | e⟩ <;> rw [e]
    · exact .inl rfl
    · exact .inr ⟨_, _, rfl⟩
    · exact .inr ⟨_, _, rfl⟩
  | keyOff => left; rcases keyedOffVoice_cases s.vd V with e | e | e <;> rw [e]; rfl
  | pitchL d => exact .inr ⟨_, _, rfl⟩
  | pitchH d => exact .inr ⟨_, _, rfl⟩
  | pan d => exact .inl rfl
  | smpl d => exact .inl rfl
  | tl d => exact .inl rfl
  | lfo d => exact .inl rfl
  | am d => exact .inl rfl

theorem VoiceEffect.step_lt {s : State} {V W : Voice} (hf : freqInRange s) (h : VoiceEffect s V W)
    (hV : V.step < 2 ^ 31) : W.step < 2 ^ 31 := by
  cases h with
  | same => exact hV
  | reset => exact Nat.two_pow_pos 31
  | register _ h =>
    rcases h.step_cases with e | ⟨fn, oct, e⟩ <;> rw [e]
    · exact hV
    · exact stepOf_lt hf fn oct
  | tick _ _ => rwa [voiceTick_step]
  | seqStart _ => exact hV
  | seqStop _ => exact hV
  | seqTick _ hW run out _ _ => rcases hW with rfl | rfl | ⟨x, rfl⟩ <;> exact hV

theorem step_keeps_pitchSafe {s t : State} (h : step s = .next t) (hs : PitchSafe s) : PitchSafe t := by
  obtain ⟨hfreq, hstep⟩ := hs
  exact ⟨step_keeps_freqInRange h hfreq,
    step_keeps_voices (P := fun V => V.step < 2 ^ 31) h (Nat.two_pow_pos 31)
      (fun rest _ _ e => VoiceEffect.step_lt (s := s.consumed rest) hfreq e) hstep⟩

/-- Settles O56: one range at a time. -/
theorem stepKeepsRanges : Obligations.StepKeepsRanges := by
  intro s t h
  exact ⟨step_keeps_levelSafe h, step_keeps_codesSafe h, step_keeps_pitchSafe h⟩

end Sys2Proof.Machine
end

section
/-! PROOFS. The decoder state (R37, R274, R277, R278, R281, R338). -/
namespace Sys2Proof.Machine

/-! ## A voice with a codec -/

/-- Of a voice with an ADPCM codec, accumulator, step index and snapshot are in the ranges of its dialect. -/
theorem Voice.decodeSafe_adpcm {vd : Variant} {V : Voice} {d : Dialect}
    (hd : dialectOf vd V.codec = some d) :
    V.decodeSafe vd ↔ inDialect d V.acc V.sidx ∧ inDialect d V.snapAcc V.snapIdx := by
  simp only [Voice.decodeSafe, hd]

/-- Of a voice with a linear codec they are untouched (R274). -/
theorem Voice.decodeSafe_linear {vd : Variant} {V : Voice} (hd : dialectOf vd V.codec = none) :
    V.decodeSafe vd
      ↔ V.acc = 0 ∧ V.sidx = 0 ∧ V.snapAcc = 0 ∧ V.snapIdx = 0 ∧ V.snapValid = false := by
  simp only [Voice.decodeSafe, hd]

/-- The starting values of a decoder are in the range of a valid dialect (R23). -/
theorem inDialect_zero {d : Dialect} (h : d.wf = true) : inDialect d 0 0 := by
  obtain ⟨hmin, hmax, -, -⟩ := Dialect.wf_range h
  exact ⟨hmin.le, hmax.le, Nat.zero_le _⟩

/-- One nibble leaves accumulator and step index in the range of their dialect (R277, R278). -/
theorem adpcmStep_inDialect {d : Dialect} {V : Voice} (h : inDialect d V.acc V.sidx) (x : BitVec 4) :
    inDialect d (V.adpcmStep d x).acc (V.adpcmStep d x).sidx := by
  obtain ⟨hmin, hmax, -⟩ := h
  obtain ⟨hmin', hmax'⟩ := adpcmAccumulate_range (hmin.trans hmax) V.acc (adpcmCode d x).negative
    (adpcmMagnitude d V.sidx (adpcmCode d x).m)
  exact ⟨hmin', hmax', adpcmIndex_le d V.sidx _⟩

/-! ## A fetch -/

/-- A unit of a codec with a dialect is decoded by that dialect (R279). -/
theorem decodeUnit_adpcm {s : State} {V : Voice} {d : Dialect}
    (hd : dialectOf s.vd V.codec = some d) : decodeUnit s V = adpcmUnit s d V := by
  unfold decodeUnit
  cases hc : V.codec <;> rw [hc] at hd
  case adpcmA | adpcmB | adpcmC => rw [← Option.some.inj hd]
  case pcm8 | pcm16 | pcm12 => cases hd

/-- A unit of a linear codec is pushed with no decoder state involved (R270-R274). -/
theorem decodeUnit_linear {s : State} {V : Voice} (hd : dialectOf s.vd V.codec = none) :
    ∃ x, decodeUnit s V = V.push x := by
  unfold decodeUnit
  cases hc : V.codec <;> rw [hc] at hd
  case adpcmA | adpcmB | adpcmC => cases hd
  case pcm8 | pcm16 | pcm12 => exact ⟨_, rfl⟩

theorem decodeUnit_decodeSafe {s : State} {V : Voice} (h : V.decodeSafe s.vd) :
    (decodeUnit s V).decodeSafe s.vd := by
  cases hd : dialectOf s.vd V.codec with
  | none =>
    obtain ⟨x, e⟩ := decodeUnit_linear hd
    rw [e]
    exact h
  | some d =>
    obtain ⟨hnow, hsnap⟩ := (Voice.decodeSafe_adpcm hd).mp h
    rw [decodeUnit_adpcm hd]
    exact (Voice.decodeSafe_adpcm (V := adpcmUnit s d V) hd).mpr ⟨adpcmStep_inDialect hnow _, hsnap⟩

theorem takeSnapshot_decodeSafe {vd : Variant} {V : Voice} (h : V.decodeSafe vd) :
    (takeSnapshot vd V).decodeSafe vd := by
  rcases takeSnapshot_cases vd V with e | ⟨hsome, e⟩ <;> rw [e]
  · exact h
  · obtain ⟨d, hd⟩ := Option.isSome_iff_exists.mp hsome
    obtain ⟨hnow, -⟩ := (Voice.decodeSafe_adpcm hd).mp h
    refine (Voice.decodeSafe_adpcm ?_).mpr ⟨hnow, hnow⟩
    exact hd

theorem wrap_decodeSafe {vd : Variant} {V : Voice} (h : V.decodeSafe vd) :
    (V.wrap vd).decodeSafe vd := by
  rcases wrap_cases vd V with e | ⟨hsome, e⟩ <;> rw [e]
  · exact h
  · obtain ⟨d, hd⟩ := Option.isSome_iff_exists.mp hsome
    obtain ⟨-, hsnap⟩ := (Voice.decodeSafe_adpcm hd).mp h
    refine (Voice.decodeSafe_adpcm ?_).mpr ⟨hsnap, hsnap⟩
    exact hd

theorem fetchUnit_decodeSafe {s : State} {V : Voice} (h : V.decodeSafe s.vd) :
    (fetchUnit s V).decodeSafe s.vd := by
  rcases fetchUnit_cases s V with ⟨-, -, e⟩ | ⟨-, -, e⟩ | ⟨-, e⟩ <;> rw [e]
  · exact decodeUnit_decodeSafe (takeSnapshot_decodeSafe (wrap_decodeSafe h))
  · exact h
  · exact decodeUnit_decodeSafe (takeSnapshot_decodeSafe h)

/-! ## A voice of a descriptor without BLOCK -/

theorem voiceTick_decodeSafe {s : State} {V : Voice} (h : V.decodeSafe s.vd) :
    (voiceTick s V).decodeSafe s.vd :=
  voiceTick_induct (P := Voice.decodeSafe s.vd) (fun _ _ h => h) (fun _ => fetchUnit_decodeSafe)
    (fun V h => by rw [ramp_spec]; exact h)
    (fun V h => by rcases envelope_spec s V with e | e <;> rw [e] <;> exact h)
    (fun _ _ _ h => h) h

/-- A key-on starts the decoder of its codec at 0 (R238), which the dialect of a playable codec allows. -/
theorem startPlayback_decodeSafe {s : State} (hwf : s.vd.wf = true) (hb : isBlock s.vd = false)
    {m : Metadata} {c : Codec} (hc : playableCodec s.vd m.codec = some c) (V : Voice) :
    (startPlayback s m c V).decodeSafe s.vd := by
  have hcodec : (startPlayback s m c V).codec = c := rfl
  cases hd : dialectOf s.vd c with
  | none => exact (Voice.decodeSafe_linear (hcodec ▸ hd)).mpr ⟨rfl, rfl, rfl, rfl, rfl⟩
  | some d =>
    have h0 := inDialect_zero (playableCodec_dialect hwf hb hc hd)
    exact (Voice.decodeSafe_adpcm (hcodec ▸ hd)).mpr ⟨h0, h0⟩

theorem keyedVoice_decodeSafe {s : State} (hwf : s.vd.wf = true) (hb : isBlock s.vd = false)
    {V : Voice} (h : V.decodeSafe s.vd) : (keyedVoice s V).decodeSafe s.vd := by
  rcases keyedVoice_cases s V with e | ⟨m, c, hc, -, -, e | e⟩ <;> rw [e]
  · exact h
  · exact startPlayback_decodeSafe hwf hb hc V
  · exact startPlayback_decodeSafe hwf hb hc V

theorem powerOn_decodeSafe (vd : Variant) : Voice.powerOn.decodeSafe vd :=
  ⟨rfl, rfl, rfl, rfl, rfl⟩

theorem VoiceEffect.decodeSafe {s : State} {V W : Voice} (hwf : s.vd.wf = true)
    (hb : isBlock s.vd = false) (h : VoiceEffect s V W) (hV : V.decodeSafe s.vd) :
    W.decodeSafe s.vd :=
  h.keeps (P := Voice.decodeSafe s.vd) hV (powerOn_decodeSafe _)
    (fun _ => keyedVoice_decodeSafe hwf hb hV) (fun _ W e => by rw [e]; exact hV)
    (fun _ => voiceTick_decodeSafe hV) (fun hb' => by simp [hb] at hb')

/-! ## The BLOCK voice -/

/-- The decoder of the block stream is in the range of its dialect (R338). -/
def Voice.streamSafe (vd : Variant) (V : Voice) : Prop := inDialect (seqDialect vd) V.acc V.sidx

theorem powerOn_streamSafe {vd : Variant} (hwf : vd.wf = true) (hb : isBlock vd = true) :
    Voice.powerOn.streamSafe vd := inDialect_zero (seqDialect_wf hwf hb)

theorem VoiceEffect.streamSafe {s : State} {V W : Voice} (hwf : s.vd.wf = true)
    (hb : isBlock s.vd = true) (h : VoiceEffect s V W) (hV : V.streamSafe s.vd) :
    W.streamSafe s.vd := by
  cases h with
  | same => exact hV
  | reset => exact powerOn_streamSafe hwf hb
  | register hb' _ => simp [hb] at hb'
  | tick hb' _ => simp [hb] at hb'
  | seqStart _ => exact inDialect_zero (seqDialect_wf hwf hb)
  | seqStop _ => exact hV
  | seqTick _ hW run out _ _ =>
    rcases hW with rfl | rfl | ⟨x, rfl⟩
    · exact hV
    · exact hV
    · exact adpcmStep_inDialect hV x

/-- Settles O57: on the voices of a descriptor without BLOCK, and on the BLOCK voice. -/
theorem stepKeepsDecoderState : Obligations.StepKeepsDecoderState := by
  intro s t hwf hs h
  unfold DecodeSafe at *
  rw [step_keeps_vd h]
  cases hb : isBlock s.vd with
  | true =>
    rw [if_pos hb] at hs
    exact step_keeps_voices (P := Voice.streamSafe s.vd) h (powerOn_streamSafe hwf hb)
      (fun rest _ _ e => VoiceEffect.streamSafe (s := s.consumed rest) hwf hb e) hs
  | false =>
    rw [if_neg (by simp [hb])] at hs
    exact step_keeps_voices (P := Voice.decodeSafe s.vd) h (powerOn_decodeSafe _)
      (fun rest _ _ e => VoiceEffect.decodeSafe (s := s.consumed rest) hwf hb e) hs

end Sys2Proof.Machine
end

section
/-! PROOFS. The sequencer's handshake and runs, and the BLOCK voice's mirror of the FSM (R41, R333, R337, R339). -/
namespace Sys2Proof.Machine

/-! ## The handshake (R337) -/

/-- A request raises DRQ in the request-drop state (R334); a nibble state it returns to needs nibbles left. -/
theorem req_safe {next : SeqState} {c : Nat} {s : State} (hnext : next ≠ .dropDRQ)
    (hleft : next = .nibbleMSN ∨ next = .nibbleLSN → 1 ≤ s.seq.nibLeft)
    (hperiod : 1 ≤ s.seq.period) (hcount : s.seq.repCount ≤ 64) : (req next c s).seq.safe := by
  refine ⟨by simp, hnext, fun h => ?_, hperiod, hcount⟩
  rcases h with h | h | ⟨-, h⟩
  · simp at h
  · simp at h
  · exact hleft h

/-- Outside the request-drop state the FSM may enter another such state without a request. -/
theorem goto_safe {st : SeqState} {c : Nat} {s : State} (h : s.seq.safe) (hs : s.seq.st ≠ .dropDRQ)
    (hst : st ≠ .dropDRQ) (hleft : st = .nibbleMSN ∨ st = .nibbleLSN → 1 ≤ s.seq.nibLeft) :
    (goto st c s).seq.safe := by
  obtain ⟨hdrq, hret, -, hperiod, hcount⟩ := h
  refine ⟨by simp [hst, hdrq, hs], hret, fun h => ?_, hperiod, hcount⟩
  rcases h with h | h | ⟨h, -⟩
  · exact hleft (.inl h)
  · exact hleft (.inr h)
  · exact absurd h hst

/-- The three ways to Idle (R332, R343, R355): DRQ is lowered. -/
theorem halt_safe {q : Seq} (h : q.safe) (silent : Bool) :
    ({ q with st := .idle, cd := 0, drq := false, silent := silent } : Seq).safe := by
  obtain ⟨-, hret, -, hperiod, hcount⟩ := h
  exact ⟨by simp, hret, by simp, hperiod, hcount⟩

theorem seqStart_safe {s : State} (h : SeqSafe s) : SeqSafe (seqStart s) := by
  obtain ⟨-, hret, -⟩ := h
  exact ⟨by simp [seqStart], hret, by simp [seqStart], le_refl 1, Nat.zero_le 64⟩

theorem dropDRQ_safe {s : State} (h : SeqSafe s) (hst : s.seq.st = .dropDRQ) :
    SeqSafe (dropDRQ s) := by
  obtain ⟨-, hret, hleft, hperiod, hcount⟩ := h
  refine ⟨by simp [hret], hret, fun h => ?_, hperiod, hcount⟩
  rcases h with h | h | ⟨h, -⟩
  · exact hleft (.inr (.inr ⟨hst, .inl h⟩))
  · exact hleft (.inr (.inr ⟨hst, .inr h⟩))
  · exact absurd h hret

/-! ## Block headers (R350-R355) -/

/-- A marker sets at most 64 loop-backs, and reading it does not add to them (R354). -/
theorem repeat_repCount_le {q : Seq} (h : q.repCount ≤ 64) (addr : Nat) (a : BitVec 6) :
    (loopOrAdvance (enterRepeat addr a q)).repCount ≤ 64 := by
  have hq : (enterRepeat addr a q).repCount ≤ 64 := by
    unfold enterRepeat
    split
    · have := a.isLt
      simp only
      omega
    · exact h
  unfold loopOrAdvance
  split
  · simp only
    omega
  · exact hq

theorem repeat_period (q : Seq) (addr : Nat) (a : BitVec 6) :
    (loopOrAdvance (enterRepeat addr a q)).period = q.period := by
  unfold loopOrAdvance enterRepeat
  split <;> split <;> rfl

/-- The units of a valid BLOCK descriptor are positive (R24). -/
theorem wf_units {vd : Variant} (h : vd.wf = true) (hb : isBlock vd = true) :
    0 < vd.seqFixedNibbles ∧ 0 < vd.seqRateUnit := by
  have hw := wf_block h hb
  simp only [Variant.blockWf, Bool.and_eq_true, decide_eq_true_eq] at hw
  obtain ⟨⟨⟨-, hfixed⟩, hrate⟩, -⟩ := hw
  exact ⟨hfixed, hrate⟩

theorem headerAction_safe {s : State} (hwf : s.vd.wf = true) (hb : isBlock s.vd = true)
    (h : SeqSafe s) (addr : Nat) (hdr : Header) : SeqSafe (headerAction addr hdr s) := by
  obtain ⟨hfixed, hrate⟩ := wf_units hwf hb
  have hhalt := halt_safe h false
  obtain ⟨-, -, -, hperiod, hcount⟩ := h
  cases hdr with
  | stop => exact req_safe (by simp) (by simp) hperiod hcount
  | silence a => exact req_safe (by simp) (by simp) hperiod hcount
  | fixed a => exact req_safe (by simp) (fun _ => hfixed) (Nat.mul_pos (Nat.succ_pos _) hrate) hcount
  | counted a => exact req_safe (by simp) (by simp) (Nat.mul_pos (Nat.succ_pos _) hrate) hcount
  | loopBack a =>
    simp only [headerAction, hdrRepeat]
    split
    · exact req_safe (by simp) (by simp) ((repeat_period ..).symm ▸ hperiod)
        (repeat_repCount_le hcount addr a)
    · exact hhalt

/-! ## States (R336, R340-R346, R356-R358) -/

/-- With its run counted down the most significant nibble is followed by the least significant one, or by the next
header after the last (R357). -/
theorem nibbleMSNAct_safe {s : State} (h : SeqSafe s) : SeqSafe (nibbleMSNAct s) := by
  obtain ⟨-, -, -, hperiod, hcount⟩ := h
  refine req_safe ?_ (fun hn => ?_) hperiod hcount
  · split <;> simp
  · split at hn
    · simp at hn
    · omega

/-- The least significant nibble is followed by the next byte, or by the next header after the last (R358). -/
theorem nibbleLSNAct_safe {s : State} (h : SeqSafe s) (hst : s.seq.st = .nibbleLSN) :
    SeqSafe (nibbleLSNAct s) := by
  obtain ⟨hdrq, hret, -, hperiod, hcount⟩ := h
  refine ⟨?_, hret, fun hn => ?_, hperiod, hcount⟩
  · simp only [nibbleLSNAct, goto_seq_drq, goto_seq_st, countNibble_seq_drq, seqNibble_seq]
    split <;> simp [hdrq, hst]
  · simp only [nibbleLSNAct, goto_seq_st, goto_seq_nibLeft] at hn ⊢
    split at hn
    · simp at hn
    · omega

theorem addr2Act_safe {s : State} (h : SeqSafe s) : SeqSafe (addr2Act s) := by
  unfold addr2Act
  split
  · exact halt_safe h s.seq.silent
  · obtain ⟨-, -, -, hperiod, hcount⟩ := h
    exact req_safe (by simp) (by simp) hperiod hcount

theorem seqAct_safe {s : State} (hwf : s.vd.wf = true) (hb : isBlock s.vd = true) (h : SeqSafe s) :
    SeqSafe (seqAct s) := by
  have hs := h
  obtain ⟨-, -, -, hperiod, hcount⟩ := hs
  unfold seqAct
  cases hst : s.seq.st with
  | idle => exact h
  | start => exact goto_safe h (by simp [hst]) (by simp) (by simp)
  | addr1 => exact req_safe (by simp) (by simp) hperiod hcount
  | addr2 => exact addr2Act_safe h
  | dummy1 => exact goto_safe h (by simp [hst]) (by simp) (by simp)
  | dummy2 => exact goto_safe h (by simp [hst]) (by simp) (by simp)
  | blockHeader => exact headerAction_safe (s := rdNext s) hwf hb h s.seq.cursor _
  | nibbleCount => exact req_safe (by simp) (fun _ => Nat.succ_pos _) hperiod hcount
  | nibbleMSN => exact nibbleMSNAct_safe h
  | nibbleLSN => exact nibbleLSNAct_safe h hst
  | dropDRQ => exact dropDRQ_safe h hst

theorem seqAdvance_safe {s : State} (hwf : s.vd.wf = true) (hb : isBlock s.vd = true)
    (h : SeqSafe s) : SeqSafe (seqAdvance s) := by
  unfold seqAdvance
  split
  · exact h
  · split
    · exact h
    · exact seqAct_safe hwf hb h

theorem seqWrite_safe {s : State} (h : SeqSafe s) (sub d : Byte) : SeqSafe (seqWrite sub d s) := by
  rcases seqWrite_cases sub d s with e | e | e | e <;> rw [e]
  · exact h
  · exact h
  · exact seqStart_safe h
  · exact halt_safe h false

theorem powerOn_seqSafe : Seq.powerOn.safe := by
  decide

/-! ## The BLOCK voice (R333, R339) -/

/-- What is put in the BLOCK voice is there, if there is a voice 0 at all. -/
theorem setV0_v0 {s : State} (h : s.voices ≠ []) (V : Voice) : (s.setV0 V).v0 = V := by
  unfold State.v0 State.voice
  rw [State.setV0_voices]
  cases hv : s.voices with
  | nil => exact absurd hv h
  | cons x t => rfl

/-- The FSM's output depends on descriptor, FSM and accumulator alone (R339). -/
theorem seqOutput_congr {s t : State} (hvd : t.vd = s.vd) (hseq : t.seq = s.seq)
    (hacc : t.v0.acc = s.v0.acc) : seqOutput t = seqOutput s := by
  unfold seqOutput
  rw [hvd, hseq, hacc]

/-- The status bits and the output of the BLOCK voice are the FSM's. -/
def mirrorsFsm (s : State) : Prop :=
  s.v0.active = seqRunning s.seq ∧ s.v0.keyed = seqRunning s.seq ∧ s.v0.outL = seqOutput s

/-- The end of a tick publishes the FSM in its voice (R333). -/
theorem seqPublish_mirrorsFsm {s : State} (h : s.voices ≠ []) : mirrorsFsm (seqPublish s) := by
  have hv0 : (seqPublish s).v0 = { s.v0 with
      active := seqRunning s.seq, keyed := seqRunning s.seq, outL := seqOutput s, outR := 0 } :=
    setV0_v0 h _
  have hout : seqOutput (seqPublish s) = seqOutput s := seqOutput_congr rfl rfl (by rw [hv0])
  unfold mirrorsFsm
  rw [hv0, hout]
  exact ⟨rfl, rfl, rfl⟩

/-- The output of an accumulator at 0 is 0. -/
theorem adpcmOutput_zero (d : Dialect) : adpcmOutput d 0 = 0 := by
  simp [adpcmOutput, clamp16, clamp]

/-- A start runs the FSM with its accumulator, hence its output, at 0 (R332). -/
theorem seqStart_mirrorsFsm {s : State} (h : s.voices ≠ []) : mirrorsFsm (seqStart s) := by
  have hv0 : (seqStart s).v0 =
      { s.v0 with acc := 0, sidx := 0, err := 0, outL := 0, active := true, keyed := true } :=
    setV0_v0 h _
  have hout : seqOutput (seqStart s) = 0 := by
    unfold seqOutput
    rw [hv0, adpcmOutput_zero, ite_self]
  unfold mirrorsFsm
  rw [hv0, hout]
  exact ⟨rfl, rfl, rfl⟩

/-- A stop leaves the FSM Idle, hence its output at 0 (R332). -/
theorem seqStop_mirrorsFsm {s : State} (h : s.voices ≠ []) : mirrorsFsm (seqStop s) := by
  have hv0 : (seqStop s).v0 = { s.v0 with active := false, keyed := false, outL := 0 } :=
    setV0_v0 h _
  have hout : seqOutput (seqStop s) = 0 := seqOutput_idle rfl
  unfold mirrorsFsm
  rw [hv0, hout]
  exact ⟨rfl, rfl, rfl⟩

theorem seqWrite_mirrorsFsm {s : State} (hv : s.voices ≠ []) (h : mirrorsFsm s) (sub d : Byte) :
    mirrorsFsm (seqWrite sub d s) := by
  rcases seqWrite_cases sub d s with e | e | e | e <;> rw [e]
  · exact h
  · exact h
  · exact seqStart_mirrorsFsm hv
  · exact seqStop_mirrorsFsm hv

theorem seqAdvance_voices_ne_nil {s : State} (h : s.voices ≠ []) : (seqAdvance s).voices ≠ [] := by
  obtain ⟨W, -, e⟩ := seqAdvance_cases s
  rw [e]
  simpa using h

/-- After RESET the FSM is Idle and every voice inactive (R405). -/
theorem resetCore_mirrorsFsm {s : State} (hb : isBlock s.vd = true) : mirrorsFsm (resetCore s) := by
  have hseq : (resetCore s).seq = Seq.powerOn := if_pos hb
  have hv0 : (resetCore s).v0 = Voice.powerOn := by
    simp [State.v0, State.voice, resetCore]
  have hrun : seqRunning (resetCore s).seq = false := by rw [hseq]; rfl
  unfold mirrorsFsm
  rw [seqOutput_idle hrun, hrun, hv0]
  exact ⟨rfl, rfl, rfl⟩

/-! ## Steps -/

theorem HostEffect.seqSafe {s u : State} (h : HostEffect s u) (hwf : s.vd.wf = true)
    (hs : SeqSafe s) : SeqSafe u := by
  cases h with
  | blockWrite sub d _ => exact seqWrite_safe hs sub d
  | tick =>
    unfold ticked
    split
    · exact seqAdvance_safe hwf ‹_› hs
    · exact hs
  | reset =>
    unfold SeqSafe resetCore
    simp only
    split
    · exact powerOn_seqSafe
    · exact hs
  | nothing => exact hs
  | enable b => exact hs
  | bank b => exact hs
  | voice v W _ _ => exact hs
  | configure rate _ => exact hs
  | die => exact hs
  | load total offset length data => exact hs

theorem HostEffect.blockVoiceSafe {s u : State} (h : HostEffect s u) (hv : s.voices ≠ [])
    (hs : BlockVoiceSafe s) : BlockVoiceSafe u := by
  intro hbu
  have hb : isBlock s.vd = true := h.vd ▸ hbu
  have hs : mirrorsFsm s := hs hb
  cases h with
  | blockWrite sub d _ => exact seqWrite_mirrorsFsm hv hs sub d
  | tick =>
    have hpub : mirrorsFsm (seqTick s) := seqPublish_mirrorsFsm (seqAdvance_voices_ne_nil hv)
    unfold ticked
    rw [if_pos hb]
    exact hpub
  | reset => exact resetCore_mirrorsFsm hb
  | voice v W hb' _ => simp [hb] at hb'
  | nothing => exact hs
  | enable b => exact hs
  | bank b => exact hs
  | configure rate _ => exact hs
  | die => exact hs
  | load total offset length data => exact hs

/-- With a valid descriptor there is a voice (R8, R30). -/
theorem voices_ne_nil {s : State} (hwf : s.vd.wf = true) (hc : VoiceCount s) : s.voices ≠ [] := by
  have hpos := (wf_nVoices hwf).1
  rw [← List.length_pos_iff, hc]
  exact hpos

/-- The premises and the claims of the handshake together, which every step keeps. -/
def handshakeSafe (s : State) : Prop :=
  s.vd.wf = true ∧ VoiceCount s ∧ SeqSafe s ∧ BlockVoiceSafe s

theorem HostEffect.handshakeSafe {s u : State} (h : HostEffect s u) (hs : handshakeSafe s) :
    handshakeSafe u := by
  obtain ⟨hwf, hc, hseq, hvoice⟩ := hs
  exact ⟨h.vd ▸ hwf, h.voiceCount hc, h.seqSafe hwf hseq,
    h.blockVoiceSafe (voices_ne_nil hwf hc) hvoice⟩

/-- Settles O60: every effect of a host command keeps the FSM's invariant and publishes it in its voice. -/
theorem stepKeepsHandshake : Obligations.StepKeepsHandshake := by
  intro s t hwf hc hseq hvoice h
  obtain ⟨-, -, hseq', hvoice'⟩ := step_keeps (P := handshakeSafe) (fun _ _ _ hu => hu)
    (fun _ _ e => e.handshakeSafe) h ⟨hwf, hc, hseq, hvoice⟩
  exact ⟨hseq', hvoice'⟩

end Sys2Proof.Machine
end

section
/-! PROOFS. The power-on state (R32, R34, R36, R41, R530). -/
namespace Sys2Proof.Machine

/-- What a voice has at power-on, every voice of a state at power-on has. -/
theorem powerOn_voices {P : Voice → Prop} (vd : Variant) (h : P Voice.powerOn) :
    ∀ V ∈ (State.powerOn vd).voices, P V := by
  intro V hV
  rw [List.eq_of_mem_replicate hV]
  exact h

theorem powerOn_decodeState {vd : Variant} (hwf : vd.wf = true) : DecodeSafe (State.powerOn vd) := by
  unfold DecodeSafe
  split
  · exact powerOn_voices (P := Voice.streamSafe vd) vd (powerOn_streamSafe hwf ‹_›)
  · exact powerOn_voices (P := Voice.decodeSafe vd) vd (powerOn_decodeSafe vd)

theorem powerOn_quietSafe (vd : Variant) : QuietSafe (State.powerOn vd) :=
  powerOn_voices vd (by simp [Voice.powerOn])

theorem powerOn_pitchSafe (vd : Variant) : PitchSafe (State.powerOn vd) :=
  ⟨by simp [State.powerOn, Tables.absent],
    powerOn_voices (P := fun V => V.step < 2 ^ 31) vd (Nat.two_pow_pos 31)⟩

theorem powerOn_outputSafe (vd : Variant) : OutputSafe (State.powerOn vd) :=
  ⟨powerOn_voices vd (by decide), (by decide : inS32 0 ∧ inS32 0)⟩

theorem powerOn_blockVoiceSafe (vd : Variant) : BlockVoiceSafe (State.powerOn vd) := by
  intro _
  have hv0 : (State.powerOn vd).v0 = Voice.powerOn := by
    simp [State.v0, State.voice, State.powerOn]
  rw [hv0, seqOutput_idle rfl]
  exact ⟨rfl, rfl, rfl⟩

theorem powerOn_safe {vd : Variant} (hwf : vd.wf = true) : (State.powerOn vd).safe :=
  ⟨hwf, Memory.powerOn_wf vd.fill, List.length_replicate,
    powerOn_voices (P := Voice.cursorSafe) vd powerOn_cursorSafe,
    powerOn_voices (P := Voice.levelSafe) vd powerOn_levelSafe,
    powerOn_decodeState hwf, powerOn_quietSafe vd, powerOn_pitchSafe vd,
    powerOn_voices (P := Voice.codesSafe) vd powerOn_codesSafe,
    powerOn_outputSafe vd, powerOn_seqSafe, powerOn_blockVoiceSafe vd⟩

/-- The test descriptor VT is valid (95_test_vectors.md section 1.1). -/
theorem testVoices_wf : Config.testVoices.wf = true := by
  decide +kernel

/-- Settles O53: one invariant at a time. -/
theorem powerOnIsSafe : Obligations.PowerOnIsSafe :=
  ⟨fun _ => powerOn_safe, powerOn_safe testVoices_wf⟩

end Sys2Proof.Machine
end

section
/-! PROOFS. Who writes what lies outside the voices and the sequencer (10_state.md R32, R42; 20_memory.md R83). -/
namespace Sys2Proof.Machine

/-- The two states differ at most in the voices, the sequencer and what the last operation returned. -/
def State.sameShared (s t : State) : Prop :=
  t = { s with voices := t.voices, seq := t.seq, result := t.result }

/-- What an operation returns is not shared state (R500). -/
theorem State.sameShared.returning {s t : State} (h : s.sameShared t) (r : Result) :
    s.sameShared { t with result := r } := by
  unfold State.sameShared at *
  rw [h]

/-- What an instruction can make of the globals, the image and the tables, which voices and sequencer share
(R32, R42, R83). -/
inductive SharedUpdate (s : State) : Instr → State → Prop
  | nothing (i : Instr) : SharedUpdate s i s
  | image (total offset length : U32) (data : List Byte) (rom : Memory) :
      SharedUpdate s (.loadRom total offset length data) { s with rom := rom }
  | tables (clock : U32) (rate : Nat) (configured fatal : Bool) (tables : Tables) :
      SharedUpdate s (.configure clock)
        { s with
          g := { s.g with sampleRate := rate, configured := configured, fatal := fatal }
          tables := tables }
  | enable {i : Instr} (b : Bool) (hi : (∃ d, i = .writeGlobal 0 d) ∨ ∃ en, i = .enable en) :
      SharedUpdate s i { s with g := { s.g with enable := b } }
  | bank {i : Instr} (b : Byte) (hi : (∃ d, i = .writeGlobal 1 d) ∨ ∃ b, i = .bank b) :
      SharedUpdate s i { s with g := { s.g with bank := b } }
  | frame (left right : Int) :
      SharedUpdate s .tick { s with g := { s.g with frameL := left, frameR := right } }
  | reset : SharedUpdate s .reset { s with g := s.g.afterReset }

/-! ## Operations that write none of it -/

theorem seqWrite_sameShared (sub d : Byte) (s : State) : s.sameShared (seqWrite sub d s) := by
  rcases seqWrite_cases sub d s with h | h | h | h <;> rw [h] <;> rfl

/-- A register write reaches only a voice or the sequencer (R221). -/
theorem writeRegister_sameShared {sel sub d : Byte} {s t : State}
    (h : writeRegister sel sub d s = .next t) : s.sameShared t := by
  rcases writeRegister_cases h with rfl | ⟨-, rfl⟩ | ⟨-, v, W, -, rfl⟩
  · rfl
  · exact (seqWrite_sameShared sub d s).returning .void
  · rfl

/-- A block header acts on the sequencer and its voice (R346). -/
theorem runHeader_sameShared {hd : Header} {s t : State} (h : runHeader hd s = .next t) :
    s.sameShared t := by
  unfold runHeader at h
  split at h
  · obtain ⟨W, -, hW⟩ := readHeader_cases hd s
    cases h
    unfold State.seqOnly State.sameShared at *
    rw [hW]
  · cases h

/-- A read only returns (R386, R410). -/
theorem read_sameShared {r : Result} {s t : State} (h : unlessFatal s (s.returns r) = .next t) :
    s.sameShared t := by
  rw [returns_next.mp (unlessFatal_next.mp h).2]
  rfl

/-! ## The writers -/

/-- Voice ticks, or the sequencer's tick, leave everything but voices and sequencer to the mixer (R380). -/
theorem ticked_sameShared (s : State) :
    ∃ left right,
      { s with g := { s.g with frameL := left, frameR := right } }.sameShared (ticked s) := by
  unfold ticked
  split
  · obtain ⟨W, hW⟩ := seqTick_frame s
    unfold State.seqOnly at hW
    rw [hW]
    exact ⟨_, _, rfl⟩
  · exact ⟨_, _, rfl⟩

theorem writeRegister_shared {sel sub d : Byte} {i : Instr} {s t : State}
    (h : writeRegister sel sub d s = .next t) : ∃ u, SharedUpdate s i u ∧ u.sameShared t :=
  ⟨s, .nothing i, writeRegister_sameShared h⟩

theorem runHeader_shared {hd : Header} {i : Instr} {s t : State} (h : runHeader hd s = .next t) :
    ∃ u, SharedUpdate s i u ∧ u.sameShared t :=
  ⟨s, .nothing i, runHeader_sameShared h⟩

theorem read_shared {r : Result} {i : Instr} {s t : State}
    (h : unlessFatal s (s.returns r) = .next t) : ∃ u, SharedUpdate s i u ∧ u.sameShared t :=
  ⟨s, .nothing i, read_sameShared h⟩

theorem writeGlobalRegister_shared {reg d : Byte} {i : Instr} {s t : State}
    (henable : reg = 0 → (∃ d, i = .writeGlobal 0 d) ∨ ∃ en, i = .enable en)
    (hbank : reg = 1 → (∃ d, i = .writeGlobal 1 d) ∨ ∃ b, i = .bank b)
    (h : writeGlobalRegister reg d s = .next t) : ∃ u, SharedUpdate s i u ∧ u.sameShared t := by
  rcases writeGlobalRegister_cases h with ⟨hr, rfl⟩ | ⟨hr, rfl⟩ | rfl
  · exact ⟨_, .enable (d.getLsbD 0) (henable hr), rfl⟩
  · exact ⟨_, .bank d (hbank hr), rfl⟩
  · exact ⟨s, .nothing i, rfl⟩

theorem execConfigure_shared {clock : U32} {s t : State} (h : execConfigure clock s = .next t) :
    ∃ u, SharedUpdate s (.configure clock) u ∧ u.sameShared t := by
  obtain ⟨-, h⟩ := unlessFatal_next.mp h
  split at h
  · rw [returns_next.mp h]
    exact ⟨_, .tables clock s.g.sampleRate s.g.configured true s.tables, rfl⟩
  · rw [returns_next.mp h]
    exact ⟨_, .tables clock _ true s.g.fatal _, rfl⟩

theorem execLoadRom_shared {total offset length : U32} {data : List Byte} {s t : State}
    (h : execLoadRom total offset length data s = .next t) :
    ∃ u, SharedUpdate s (.loadRom total offset length data) u ∧ u.sameShared t := by
  rw [returns_next.mp (unlessFatal_next.mp h).2]
  exact ⟨_, .image total offset length data _, rfl⟩

theorem execTick_shared {s t : State} (h : execTick s = .next t) :
    ∃ u, SharedUpdate s .tick u ∧ u.sameShared t := by
  obtain ⟨left, right, hticked⟩ := ticked_sameShared s
  refine ⟨_, .frame left right, ?_⟩
  rw [returns_next.mp (ifConfigured_next.mp (unlessFatal_next.mp h).2).2]
  exact hticked.returning .void

theorem execReset_shared {s t : State} (h : execReset s = .next t) :
    ∃ u, SharedUpdate s .reset u ∧ u.sameShared t := by
  rw [returns_next.mp (unlessFatal_next.mp h).2]
  exact ⟨_, .reset, rfl⟩

/-- Every instruction that completes makes one update of the shared state, its own (R32, R42, R83). -/
theorem exec_shared {i : Instr} {s t : State} (h : exec i s = .next t) :
    ∃ u, SharedUpdate s i u ∧ u.sameShared t := by
  cases i with
  | configure clock => exact execConfigure_shared h
  | loadRom total offset length data => exact execLoadRom_shared h
  | tick => exact execTick_shared h
  | reset => exact execReset_shared h
  | readFrame => exact read_shared h
  | readStatus sel => exact read_shared h
  | writeGlobal reg d =>
    exact writeGlobalRegister_shared (fun hr => .inl ⟨d, by rw [hr]⟩) (fun hr => .inl ⟨d, by rw [hr]⟩) h
  | enable en => exact writeGlobalRegister_shared (fun _ => .inr ⟨en, rfl⟩) (fun hr => by cases hr) h
  | bank b => exact writeGlobalRegister_shared (fun hr => by cases hr) (fun _ => .inr ⟨b, rfl⟩) h
  | write sel sub d => exact writeRegister_shared h
  | pan sel p => exact writeRegister_shared h
  | smpl sel low => exact writeRegister_shared h
  | pitchL sel f b => exact writeRegister_shared h
  | pitchH sel o f => exact writeRegister_shared h
  | keyOn sel => exact writeRegister_shared h
  | keyOff sel => exact writeRegister_shared h
  | tl sel l b => exact writeRegister_shared h
  | lfo sel d => exact writeRegister_shared h
  | am sel d => exact writeRegister_shared h
  | seqIndex d => exact writeRegister_shared h
  | seqStart => exact writeRegister_shared h
  | seqStop => exact writeRegister_shared h
  | hdrEnd => exact runHeader_shared h
  | hdrSilence a => exact runHeader_shared h
  | hdrFixed a => exact runHeader_shared h
  | hdrCounted a => exact runHeader_shared h
  | hdrRepeat a => exact runHeader_shared h

/-- Settles O13: by the one update of the shared state each instruction makes. -/
theorem onlyTheirOwnersWrite : Obligations.OnlyTheirOwnersWrite := by
  intro s t i h
  obtain ⟨u, hu, ht⟩ := exec_shared h
  rw [ht]
  cases hu with
  | nothing => simp
  | image total offset length data rom => simp
  | tables clock rate configured fatal tables => simp
  | enable b hi =>
    exact ⟨rfl, rfl, .inl rfl, .inl ⟨rfl, rfl, rfl, rfl⟩, .inr (.inr hi), .inl rfl, .inl ⟨rfl, rfl⟩⟩
  | bank b hi =>
    exact ⟨rfl, rfl, .inl rfl, .inl ⟨rfl, rfl, rfl, rfl⟩, .inl rfl, .inr (.inr hi), .inl ⟨rfl, rfl⟩⟩
  | frame left right => simp
  | reset => simp [Globals.afterReset]

end Sys2Proof.Machine
end

section
/-! PROOFS. LOAD_ROM (20_memory.md R81; 46_host_misc.md R400). -/
namespace Sys2Proof.Machine

/-- An offset beyond the total loads nothing (R400). -/
theorem Memory.load_beyond {fill : Byte} {m : Memory} {total offset : Nat} (length : Nat)
    (data : List Byte) (h : total < offset) : m.load fill total offset length data = m := by
  rw [Memory.load, if_pos h]

/-- A load with the offset within the total sizes the image (R400). -/
theorem Memory.load_len {fill : Byte} {m : Memory} {total offset : Nat} (length : Nat)
    (data : List Byte) (h : offset ≤ total) : (m.load fill total offset length data).len = total := by
  rw [Memory.load, if_neg (by omega), Memory.writeFrom_len, Memory.resize_len]

/-- Reading after a load: the data truncated to fit, around it the sized image (R81, R400). -/
theorem Memory.read_load {fill : Byte} {m : Memory} {total offset length : Nat} {data : List Byte}
    (hm : m.wf fill) (hdata : data.length = length) (h : offset ≤ total) (a : Nat) :
    (m.load fill total offset length data).read fill a =
      if offset ≤ a ∧ a < offset + min length (total - offset) then data.getD (a - offset) 0
      else if a < total then m.read fill a else fill := by
  have hcopied : (data.take (min length (total - offset))).length = min length (total - offset) := by
    rw [List.length_take]; omega
  rw [Memory.load, if_neg (by omega),
    Memory.read_writeFrom _ _ _ (Memory.resize_wf total hm) (by rw [hcopied, Memory.resize_len]; omega),
    hcopied, Memory.read_resize total a hm]
  refine if_ctx_congr Iff.rfl (fun hin => ?_) (fun _ => rfl)
  rw [List.getD_eq_getElem?_getD, List.getD_eq_getElem?_getD, List.getElem?_take_of_lt (by omega)]

/-- LOAD_ROM on a live instance completes, and changes the image alone (R400). -/
theorem loadRom_completes {s : State} (hlive : s.g.fatal = false) (total offset length : U32)
    (data : List Byte) :
    completes (.loadRom total offset length data) s
      { s with rom := s.rom.load s.vd.fill total.toNat offset.toNat length.toNat data } :=
  unlessFatal_live hlive

/-- Settles O51: the image is the loaded one, read by `Memory.read_load`. -/
theorem loadRomWritesItsBytes : Obligations.LoadRomWritesItsBytes := by
  intro s total offset length data hlive hmem hdata
  exact ⟨_, loadRom_completes hlive total offset length data, Memory.load_beyond _ data,
    fun h => ⟨Memory.load_len _ data h, Memory.read_load hmem hdata h⟩⟩

end Sys2Proof.Machine
end

section
/-!
PROOFS. The host command stream (30_encoding.md R110-R113, R115, R117, R119): the row a write spells, the
decoder command by command, and its reading of a longer stream.
-/
namespace Sys2Proof

/-! ## The row a write spells (R115, R117, R119) -/

@[simp] theorem registerRow_voice (sel sub d : Byte) :
    registerRow false sel sub d = voiceRegister sel sub d := rfl

@[simp] theorem registerRow_block (sel sub d : Byte) :
    registerRow true sel sub d = blockRegister sel sub d := rfl

theorem voiceRegister_pan (sel d : Byte) : voiceRegister sel 0 d = .pan sel (d.extractLsb' 4 4) := rfl

theorem voiceRegister_smpl (sel d : Byte) : voiceRegister sel 1 d = .smpl sel d := rfl

theorem voiceRegister_pitchL (sel d : Byte) :
    voiceRegister sel 2 d = .pitchL sel (d.extractLsb' 2 6) (d.extractLsb' 0 1) := rfl

theorem voiceRegister_pitchH (sel d : Byte) :
    voiceRegister sel 3 d = .pitchH sel (d.extractLsb' 4 4) (d.extractLsb' 0 4) := rfl

theorem voiceRegister_key (sel d : Byte) :
    voiceRegister sel 4 d = if d.getLsbD 7 then .keyOn sel else .keyOff sel := rfl

theorem voiceRegister_tl (sel d : Byte) :
    voiceRegister sel 5 d = .tl sel (d.extractLsb' 1 7) (d.extractLsb' 0 1) := rfl

theorem voiceRegister_lfo (sel d : Byte) : voiceRegister sel 6 d = .lfo sel d := rfl

theorem voiceRegister_am (sel d : Byte) : voiceRegister sel 7 d = .am sel d := rfl

/-- A reserved sub_address of a voice names no row (R233). -/
theorem voiceRegister_reserved {sub : Byte} (h : 8 ≤ sub.toNat) (sel d : Byte) :
    voiceRegister sel sub d = .write sel sub d := by
  have hne : ∀ k : Byte, k.toNat < 8 → sub ≠ k := by rintro k hk rfl; omega
  simp [voiceRegister, hne]

theorem blockRegister_index (d : Byte) : blockRegister 0 0 d = .seqIndex d := rfl

theorem blockRegister_control (d : Byte) :
    blockRegister 0 1 d = if d.getLsbD 0 then .seqStart else .seqStop := rfl

/-- Every other selector or sub_address of a BLOCK variant names no row (R119). -/
theorem blockRegister_other {sel sub : Byte} (h : ¬(sel = 0 ∧ (sub = 0 ∨ sub = 1))) (d : Byte) :
    blockRegister sel sub d = .write sel sub d := by
  rw [blockRegister, if_neg (fun hz => h ⟨hz.1, .inl hz.2⟩), if_neg (fun hz => h ⟨hz.1, .inr hz.2⟩)]

theorem globalRegister_enable (d : Byte) : globalRegister 0 d = .enable (d.extractLsb' 0 1) := rfl

theorem globalRegister_bank (d : Byte) : globalRegister 1 d = .bank d := rfl

/-- A reserved global register names no row (R235). -/
theorem globalRegister_reserved {reg : Byte} (h : 2 ≤ reg.toNat) (d : Byte) :
    globalRegister reg d = .writeGlobal reg d := by
  have hne : ∀ k : Byte, k.toNat < 2 → reg ≠ k := by rintro k hk rfl; omega
  simp [globalRegister, hne]

/-! ## One command (R111) -/

theorem decode_write (block : Bool) (sel sub d : Byte) (rest : List Byte) :
    decode block (0x01 :: sel :: sub :: d :: rest) = .command (registerRow block sel sub d) rest := rfl

theorem decode_writeGlobal (block : Bool) (reg d : Byte) (rest : List Byte) :
    decode block (0x02 :: reg :: d :: rest) = .command (globalRegister reg d) rest := rfl

theorem decode_configure (block : Bool) (clock : U32) (rest : List Byte) :
    decode block (0x03 :: (bytesOfU32 clock ++ rest)) = .command (.configure clock) rest := by
  change Decoded.command (.configure (u32OfBytes ..)) rest = _
  rw [u32OfBytes_bytes]

theorem decode_loadRomOpcode (block : Bool) (operands : List Byte) :
    decode block (0x04 :: operands) = decodeLoadRom operands := rfl

/-- LOAD_ROM takes its three operands and the `length` data bytes behind them. -/
theorem decode_loadRom (block : Bool) (total offset : U32) {length : U32} {data : List Byte}
    (hdata : data.length = length.toNat) (rest : List Byte) :
    decode block (0x04 :: (bytesOfU32 total ++ bytesOfU32 offset ++ bytesOfU32 length ++ data ++ rest))
      = .command (.loadRom total offset length data) rest := by
  rw [decode_loadRomOpcode]
  simp [bytesOfU32, decodeLoadRom, u32OfBytes_bytes, ← hdata]

/-- An instruction encoded as a WRITE is decoded to the row its bytes spell. -/
theorem decode_of_write {block : Bool} {i : Instr} {sel sub d : Byte} (henc : encode i = [0x01, sel, sub, d])
    (hrow : registerRow block sel sub d = i) {rest : List Byte} :
    decode block (encode i ++ rest) = .command i rest := by
  rw [henc, ← hrow]
  exact decode_write ..

theorem decode_of_voiceWrite {block : Bool} {i : Instr} {sel sub d : Byte} (hb : block = false)
    (henc : encode i = [0x01, sel, sub, d]) (hrow : voiceRegister sel sub d = i) {rest : List Byte} :
    decode block (encode i ++ rest) = .command i rest :=
  decode_of_write henc (by rw [hb, registerRow_voice, hrow])

theorem decode_of_blockWrite {block : Bool} {i : Instr} {sel sub d : Byte} (hb : block = true)
    (henc : encode i = [0x01, sel, sub, d]) (hrow : blockRegister sel sub d = i) {rest : List Byte} :
    decode block (encode i ++ rest) = .command i rest :=
  decode_of_write henc (by rw [hb, registerRow_block, hrow])

/-- An instruction encoded as a WRITE_GLOBAL is decoded to the row its bytes spell. -/
theorem decode_of_writeGlobal {i : Instr} {reg d : Byte} (henc : encode i = [0x02, reg, d])
    (hrow : globalRegister reg d = i) {block : Bool} {rest : List Byte} :
    decode block (encode i ++ rest) = .command i rest := by
  rw [henc, ← hrow]
  exact decode_writeGlobal ..

/-- A well-formed WRITE names no row of its variant (log 5). -/
theorem registerRow_of_wf {block : Bool} {sel sub d : Byte} (h : (Instr.write sel sub d).wf block = true) :
    registerRow block sel sub d = .write sel sub d := by
  cases block with
  | false => exact voiceRegister_reserved (by simpa [Instr.wf] using h) sel d
  | true => exact blockRegister_other (by simpa [Instr.wf, or_iff_not_imp_left] using h) d

/-- Settles O1: the cases of `decode` that the opcode bytes of `encode` select. -/
theorem commandRoundTrip : Obligations.CommandRoundTrip := by
  intro block i rest hwf hhost
  have hvoice : i.wf block = !block → block = false := fun h => by simpa [h] using hwf
  have hblock : i.wf block = block → block = true := fun h => by rwa [h] at hwf
  cases i with
  | write sel sub d => exact decode_of_write rfl (registerRow_of_wf hwf)
  | writeGlobal reg d =>
    exact decode_of_writeGlobal rfl (globalRegister_reserved (by simpa [Instr.wf] using hwf) d)
  | configure clock => exact decode_configure block clock rest
  | loadRom total offset length data =>
    exact decode_loadRom block total offset (by simpa [Instr.wf] using hwf) rest
  | tick | readFrame | reset | readStatus sel => rfl
  | pan sel p => exact decode_of_voiceWrite (hvoice rfl) rfl (by rw [voiceRegister_pan, panByte_code])
  | smpl sel low => exact decode_of_voiceWrite (hvoice rfl) rfl (voiceRegister_smpl sel low)
  | pitchL sel fnLow sampleHigh =>
    exact decode_of_voiceWrite (hvoice rfl) rfl (by rw [voiceRegister_pitchL, pitchLByte_fn, pitchLByte_sample])
  | pitchH sel oct fnHigh =>
    exact decode_of_voiceWrite (hvoice rfl) rfl (by rw [voiceRegister_pitchH, pitchHByte_oct, pitchHByte_fn])
  | keyOn sel => exact decode_of_voiceWrite (hvoice rfl) rfl (voiceRegister_key sel 0x80)
  | keyOff sel => exact decode_of_voiceWrite (hvoice rfl) rfl (voiceRegister_key sel 0x00)
  | tl sel level ld =>
    exact decode_of_voiceWrite (hvoice rfl) rfl (by rw [voiceRegister_tl, tlByte_level, tlByte_ld])
  | lfo sel d => exact decode_of_voiceWrite (hvoice rfl) rfl (voiceRegister_lfo sel d)
  | am sel d => exact decode_of_voiceWrite (hvoice rfl) rfl (voiceRegister_am sel d)
  | enable en => exact decode_of_writeGlobal rfl (by rw [globalRegister_enable, bitByte_bit])
  | bank b => exact decode_of_writeGlobal rfl (globalRegister_bank b)
  | seqIndex index => exact decode_of_blockWrite (hblock rfl) rfl (blockRegister_index index)
  | seqStart => exact decode_of_blockWrite (hblock rfl) rfl (blockRegister_control 0x01)
  | seqStop => exact decode_of_blockWrite (hblock rfl) rfl (blockRegister_control 0x00)
  | hdrEnd | hdrSilence a | hdrFixed a | hdrCounted a | hdrRepeat a => cases hhost

/-! ## A longer stream (R112) -/

/-- What the decoder found, with further bytes behind it. -/
def Decoded.extend (back : List Byte) : Decoded → Decoded
  | .command i rest => .command i (rest ++ back)
  | .illegalCommand op => .illegalCommand op
  | .truncated => .truncated
  | .endOfStream => .endOfStream

theorem decodeWrite_append {block : Bool} {bs : List Byte} (h : decodeWrite block bs ≠ .truncated)
    (back : List Byte) : decodeWrite block (bs ++ back) = (decodeWrite block bs).extend back := by
  unfold decodeWrite at h ⊢
  split at h
  · rfl
  · exact absurd rfl h

theorem decodeWriteGlobal_append {bs : List Byte} (h : decodeWriteGlobal bs ≠ .truncated)
    (back : List Byte) : decodeWriteGlobal (bs ++ back) = (decodeWriteGlobal bs).extend back := by
  unfold decodeWriteGlobal at h ⊢
  split at h
  · rfl
  · exact absurd rfl h

theorem decodeConfigure_append {bs : List Byte} (h : decodeConfigure bs ≠ .truncated)
    (back : List Byte) : decodeConfigure (bs ++ back) = (decodeConfigure bs).extend back := by
  unfold decodeConfigure at h ⊢
  split at h
  · rfl
  · exact absurd rfl h

theorem decodeReadStatus_append {bs : List Byte} (h : decodeReadStatus bs ≠ .truncated)
    (back : List Byte) : decodeReadStatus (bs ++ back) = (decodeReadStatus bs).extend back := by
  unfold decodeReadStatus at h ⊢
  split at h
  · rfl
  · exact absurd rfl h

theorem decodeLoadRom_append {bs : List Byte} (h : decodeLoadRom bs ≠ .truncated)
    (back : List Byte) : decodeLoadRom (bs ++ back) = (decodeLoadRom bs).extend back := by
  unfold decodeLoadRom at h ⊢
  split at h
  · simp only [ne_eq, ite_eq_left_iff, reduceCtorEq, imp_false, not_not, not_lt] at h
    simp only [List.cons_append, List.length_append]
    rw [if_neg (by omega), if_neg (by omega), List.take_append_of_le_length h,
      List.drop_append_of_le_length h, Decoded.extend]
  · exact absurd rfl h

/-- Bytes behind a command, or behind an illegal opcode, do not change how it is read. -/
theorem decode_append {block : Bool} {bs : List Byte} (hne : bs ≠ []) (h : decode block bs ≠ .truncated)
    (back : List Byte) : decode block (bs ++ back) = (decode block bs).extend back := by
  cases bs with
  | nil => exact absurd rfl hne
  | cons op operands =>
    simp only [decode, List.cons_append] at h ⊢
    split_ifs at h ⊢
    · exact decodeWrite_append h back
    · exact decodeWriteGlobal_append h back
    · exact decodeConfigure_append h back
    · exact decodeLoadRom_append h back
    · rfl
    · rfl
    · rfl
    · exact decodeReadStatus_append h back
    · rfl

/-- A beginning of a command's bytes that is neither empty nor the whole is truncated (R112): were it read as
anything else, the whole would be read as the same with bytes left over. -/
theorem decode_front {block : Bool} {front back : List Byte} {i : Instr}
    (h : decode block (front ++ back) = .command i []) (hfront : front ≠ []) (hback : back ≠ []) :
    decode block front = .truncated := by
  by_contra htrunc
  rw [decode_append hfront htrunc] at h
  cases hd : decode block front with
  | command j rest =>
    rw [hd] at h
    obtain ⟨-, hrest⟩ := Decoded.command.inj h
    exact hback (List.append_eq_nil_iff.mp hrest).2
  | illegalCommand op | truncated | endOfStream => rw [hd] at h; cases h

/-- An opcode byte outside 0x01..0x08 spells no command, whatever follows it (R113). -/
theorem decode_illegal {op : Byte} (h : op = 0 ∨ 9 ≤ op.toNat) (block : Bool) (operands : List Byte) :
    decode block (op :: operands) = .illegalCommand op := by
  have hne : ∀ k : Byte, 1 ≤ k.toNat → k.toNat ≤ 8 → op ≠ k := by
    rintro k hlow hhigh rfl
    rcases h with rfl | h
    · cases hlow
    · omega
  simp [decode, hne]

/-- Settles O4: each word by the decoder's case for its opcode and the row of its register. -/
theorem writtenOutWordsDecode : Obligations.WrittenOutWordsDecode :=
  ⟨decode_configure false 384000 [], decode_write false 0 4 0x80 [], decode_write false 0 2 0x4D [],
    decode_write false 2 5 0x06 [], decode_write true 0 1 0x01 [], rfl, rfl, rfl⟩

end Sys2Proof
end

section
/-! PROOFS. The step on what the decoder finds (30_encoding.md R110-R113; 60_exceptions.md R506). -/
namespace Sys2Proof.Machine

theorem step_of_command {s : State} {i : Instr} {rest : List Byte}
    (h : decode (isBlock s.vd) s.input = .command i rest) : step s = exec i (s.consumed rest) := by
  rw [step, h]

theorem step_of_illegal {s : State} {op : Byte} (h : decode (isBlock s.vd) s.input = .illegalCommand op) :
    step s = .refused (.illegalCommand op) := by
  rw [step, h]

theorem step_of_truncated {s : State} (h : decode (isBlock s.vd) s.input = .truncated) :
    step s = .refused .truncated := by
  rw [step, h]

/-- With no byte pending the core waits (log 3). -/
theorem step_of_nil {s : State} (h : s.input = []) : step s = .next s := by
  rw [step, h, decode]

/-- Settles O3: the whole command decodes (O1), so its beginning is truncated. -/
theorem cutCommandIsTruncated : Obligations.CutCommandIsTruncated := by
  intro s i front back hwf hhost henc hfront hback hinput
  have hwhole : decode (isBlock s.vd) (front ++ back) = .command i [] := by
    rw [← henc, ← List.append_nil (encode i)]
    exact commandRoundTrip _ i [] hwf hhost
  exact step_of_truncated (hinput ▸ decode_front hwhole hfront hback)

/-- Settles O5: the cases of `step`. -/
theorem stepRunsDecodedCommand : Obligations.StepRunsDecodedCommand :=
  ⟨fun _ _ _ h => step_of_command h,
    fun _ _ rest hinput hop => step_of_illegal (hinput ▸ decode_illegal hop _ rest),
    fun _ h => step_of_truncated h, fun _ h => step_of_nil h⟩

end Sys2Proof.Machine
end

section
/-! PROOFS. Block headers (30_encoding.md R140, R142). -/
namespace Sys2Proof

/-- A control byte is its type above its argument. -/
theorem header_split (h : Byte) : h.extractLsb' 6 2 ++ h.extractLsb' 0 6 = h := by
  ext k hk
  grind

theorem header_type (y : BitVec 2) (a : BitVec 6) : (y ++ a : Byte).extractLsb' 6 2 = y := by
  ext k hk
  grind

theorem header_arg (y : BitVec 2) (a : BitVec 6) : (y ++ a : Byte).extractLsb' 0 6 = a := by
  ext k hk
  grind

theorem header_ne_zero {y : BitVec 2} {a : BitVec 6} (h : y ≠ 0 ∨ a ≠ 0) : (y ++ a : Byte) ≠ 0 := by
  intro hzero
  rcases h with hy | ha
  · exact hy (by rw [← header_type y a, hzero]; rfl)
  · exact ha (by rw [← header_arg y a, hzero]; rfl)

/-- A control byte other than 0 is dispatched by its type (R346). -/
theorem decodeHeader_typed {y : BitVec 2} {a : BitVec 6} (h : y ≠ 0 ∨ a ≠ 0) :
    decodeHeader (y ++ a) =
      if y = 0 then .silence a else if y = 1 then .fixed a else if y = 2 then .counted a else .loopBack a := by
  rw [decodeHeader, if_neg (header_ne_zero h), header_type, header_arg]

theorem headerType_cases : ∀ y : BitVec 2, y = 0 ∨ y = 1 ∨ y = 2 ∨ y = 3 := by decide

/-- Every control byte is the encoding of the header it decodes to (R142). -/
theorem encode_decodeHeader (h : Byte) : encode (Instr.ofHeader (decodeHeader h)) = [h] := by
  by_cases hzero : h = 0
  · rw [hzero]; rfl
  rw [← header_split h] at hzero ⊢
  generalize h.extractLsb' 6 2 = y at hzero ⊢
  generalize h.extractLsb' 0 6 = a at hzero ⊢
  have hya : y ≠ 0 ∨ a ≠ 0 := by
    by_contra hboth
    push Not at hboth
    obtain ⟨rfl, rfl⟩ := hboth
    exact hzero rfl
  rw [decodeHeader_typed hya]
  rcases headerType_cases y with rfl | rfl | rfl | rfl <;> rfl

/-- Settles O2: the four types of a control byte, and the byte 0. -/
theorem headerRoundTrip : Obligations.HeaderRoundTrip := by
  refine ⟨fun i hwf hheader => ?_, encode_decodeHeader⟩
  cases i with
  | hdrEnd => exact ⟨_, rfl, rfl⟩
  | hdrSilence a =>
    have ha : a ≠ 0 := by simpa [Instr.wf] using hwf
    exact ⟨_, rfl, by rw [encodeHeader, decodeHeader_typed (.inr ha)]; rfl⟩
  | hdrFixed a => exact ⟨_, rfl, by rw [encodeHeader, decodeHeader_typed (.inl (by decide))]; rfl⟩
  | hdrCounted a => exact ⟨_, rfl, by rw [encodeHeader, decodeHeader_typed (.inl (by decide))]; rfl⟩
  | hdrRepeat a => exact ⟨_, rfl, by rw [encodeHeader, decodeHeader_typed (.inl (by decide))]; rfl⟩
  | _ => cases hheader

end Sys2Proof
end

section
/-!
PROOFS. Register writes (30_encoding.md R115, R117, R119, R120, R143): what a write of each register reads of its
data byte, and the row the byte spells.
-/
namespace Sys2Proof.Machine

/-! ## The rows with reserved or split bits, as writes (log 6) -/

theorem exec_pan (sel : Byte) (p : BitVec 4) (s : State) :
    exec (.pan sel p) s = writeRegister sel 0 (panByte p) s := rfl

theorem exec_pitchL (sel : Byte) (f : BitVec 6) (h : BitVec 1) (s : State) :
    exec (.pitchL sel f h) s = writeRegister sel 2 (pitchLByte f h) s := rfl

theorem exec_pitchH (sel : Byte) (o f : BitVec 4) (s : State) :
    exec (.pitchH sel o f) s = writeRegister sel 3 (pitchHByte o f) s := rfl

theorem exec_tl (sel : Byte) (l : BitVec 7) (b : BitVec 1) (s : State) :
    exec (.tl sel l b) s = writeRegister sel 5 (tlByte l b) s := rfl

theorem exec_enable (b : BitVec 1) (s : State) :
    exec (.enable b) s = writeGlobalRegister 0 (bitByte b) s := rfl

/-! ## What a write reads of its data byte -/

/-- Two data bytes do the same in a voice register if they do the same in every voice (R221). -/
theorem writeRegister_congr_voice {s : State} (hb : isBlock s.vd = false) {sel sub d e : Byte}
    (h : ∀ v, voiceWrite v sub d s = voiceWrite v sub e s) :
    writeRegister sel sub d s = writeRegister sel sub e s := by
  simp only [writeRegister, hb, Bool.false_eq_true, if_false, h]

/-- Two data bytes do the same in a register of the BLOCK voice if they do the same in the sequencer (R221). -/
theorem writeRegister_congr_block {s : State} (hb : isBlock s.vd = true) {sel sub d e : Byte}
    (h : seqWrite sub d s = seqWrite sub e s) :
    writeRegister sel sub d s = writeRegister sel sub e s := by
  simp only [writeRegister, hb, if_true, h]

/-- PAN reads bits 7..4 (R225). -/
theorem voiceWrite_pan_congr {d e : Byte} (h : d.extractLsb' 4 4 = e.extractLsb' 4 4) (v : Nat) (s : State) :
    voiceWrite v 0 d s = voiceWrite v 0 e s := by
  change putVoice s v (panWrite _ d) = putVoice s v (panWrite _ e)
  rw [panWrite, h, panWrite]

/-- PITCHL reads bits 7..2 and bit 0 (R227). -/
theorem voiceWrite_pitchL_congr {d e : Byte} (hfn : d.extractLsb' 2 6 = e.extractLsb' 2 6)
    (hsample : d.extractLsb' 0 1 = e.extractLsb' 0 1) (v : Nat) (s : State) :
    voiceWrite v 2 d s = voiceWrite v 2 e s := by
  change ifConfigured s (putVoice s v ((pitchLFields _ d).retune _))
    = ifConfigured s (putVoice s v ((pitchLFields _ e).retune _))
  rw [pitchLFields, hfn, hsample, pitchLFields]

/-- PITCHH reads both halves (R228). -/
theorem voiceWrite_pitchH_congr {d e : Byte} (hoct : d.extractLsb' 4 4 = e.extractLsb' 4 4)
    (hfn : d.extractLsb' 0 4 = e.extractLsb' 0 4) (v : Nat) (s : State) :
    voiceWrite v 3 d s = voiceWrite v 3 e s := by
  change ifConfigured s (putVoice s v ((pitchHFields _ d).retune _))
    = ifConfigured s (putVoice s v ((pitchHFields _ e).retune _))
  rw [pitchHFields, hoct, hfn, pitchHFields]

/-- KEY reads bit 7 (R230). -/
theorem voiceWrite_key_congr {d e : Byte} (h : d.getLsbD 7 = e.getLsbD 7) (v : Nat) (s : State) :
    voiceWrite v 4 d s = voiceWrite v 4 e s := by
  change (if d.getLsbD 7 then _ else _) = if e.getLsbD 7 then _ else _
  rw [h]

/-- TL reads bits 7..1 and bit 0 (R231). -/
theorem voiceWrite_tl_congr {d e : Byte} (hlevel : d.extractLsb' 1 7 = e.extractLsb' 1 7)
    (hld : d.getLsbD 0 = e.getLsbD 0) (v : Nat) (s : State) :
    voiceWrite v 5 d s = voiceWrite v 5 e s := by
  change putVoice s v (tlWrite _ d) = putVoice s v (tlWrite _ e)
  rw [tlWrite, hlevel, hld, tlWrite]

/-- SEQ_CTRL reads bit 0 (R331). -/
theorem seqWrite_control_congr {d e : Byte} (h : d.getLsbD 0 = e.getLsbD 0) (s : State) :
    seqWrite 1 d s = seqWrite 1 e s := by
  change (if d.getLsbD 0 then _ else _) = if e.getLsbD 0 then _ else _
  rw [h]

/-- ENABLE reads bit 0 (R236). -/
theorem writeGlobalRegister_enable_congr {d e : Byte} (h : d.getLsbD 0 = e.getLsbD 0) (s : State) :
    writeGlobalRegister 0 d s = writeGlobalRegister 0 e s := by
  change unlessFatal s (State.returns { s with g := { s.g with enable := d.getLsbD 0 } } .void)
    = unlessFatal s (State.returns { s with g := { s.g with enable := e.getLsbD 0 } } .void)
  rw [h]

/-! ## The row a write spells -/

theorem getLsbD_tlByte (d : Byte) :
    (tlByte (d.extractLsb' 1 7) (d.extractLsb' 0 1)).getLsbD 0 = d.getLsbD 0 := by
  rw [tlByte, BitVec.getLsbD_append, if_pos Nat.one_pos]
  simp

theorem getLsbD_bitByte (d : Byte) : (bitByte (d.extractLsb' 0 1)).getLsbD 0 = d.getLsbD 0 := by
  rw [bitByte, BitVec.getLsbD_append, if_pos Nat.one_pos]
  simp

theorem subAddress_cases (sub : Byte) :
    sub = 0 ∨ sub = 1 ∨ sub = 2 ∨ sub = 3 ∨ sub = 4 ∨ sub = 5 ∨ sub = 6 ∨ sub = 7 ∨ 8 ≤ sub.toNat := by
  bv_omega

/-- A write to a non-BLOCK voice does what its row does (R115, R143). -/
theorem exec_voiceRegister {s : State} (hb : isBlock s.vd = false) (sel sub d : Byte) :
    exec (.write sel sub d) s = exec (voiceRegister sel sub d) s := by
  rcases subAddress_cases sub with rfl | rfl | rfl | rfl | rfl | rfl | rfl | rfl | h
  · rw [voiceRegister_pan, exec_pan]
    exact writeRegister_congr_voice hb fun v => voiceWrite_pan_congr (panByte_code _).symm v s
  · rfl
  · rw [voiceRegister_pitchL, exec_pitchL]
    exact writeRegister_congr_voice hb fun v =>
      voiceWrite_pitchL_congr (pitchLByte_fn _ _).symm (pitchLByte_sample _ _).symm v s
  · rw [voiceRegister_pitchH, exec_pitchH]
    exact writeRegister_congr_voice hb fun v =>
      voiceWrite_pitchH_congr (pitchHByte_oct _ _).symm (pitchHByte_fn _ _).symm v s
  · rw [voiceRegister_key]
    split
    case isTrue hkey => exact writeRegister_congr_voice hb fun v => voiceWrite_key_congr hkey v s
    case isFalse hkey =>
      exact writeRegister_congr_voice hb fun v => voiceWrite_key_congr (Bool.eq_false_of_not_eq_true hkey) v s
  · rw [voiceRegister_tl, exec_tl]
    exact writeRegister_congr_voice hb fun v =>
      voiceWrite_tl_congr (tlByte_level _ _).symm (getLsbD_tlByte d).symm v s
  · rfl
  · rfl
  · rw [voiceRegister_reserved h]

/-- A write to the BLOCK voice does what its row does (R119, R143). -/
theorem exec_blockRegister {s : State} (hb : isBlock s.vd = true) (sel sub d : Byte) :
    exec (.write sel sub d) s = exec (blockRegister sel sub d) s := by
  by_cases h : sel = 0 ∧ (sub = 0 ∨ sub = 1)
  · obtain ⟨rfl, rfl | rfl⟩ := h
    · rfl
    · rw [blockRegister_control]
      split
      case isTrue hrun => exact writeRegister_congr_block hb (seqWrite_control_congr hrun s)
      case isFalse hrun =>
        exact writeRegister_congr_block hb (seqWrite_control_congr (Bool.eq_false_of_not_eq_true hrun) s)
  · rw [blockRegister_other h]

/-- A global write does what its row does (R117). -/
theorem exec_globalRegister (reg d : Byte) (s : State) :
    exec (.writeGlobal reg d) s = exec (globalRegister reg d) s := by
  have hreg : reg = 0 ∨ reg = 1 ∨ 2 ≤ reg.toNat := by bv_omega
  rcases hreg with rfl | rfl | h
  · rw [globalRegister_enable, exec_enable]
    exact writeGlobalRegister_enable_congr (getLsbD_bitByte d).symm s
  · rfl
  · rw [globalRegister_reserved h]

/-- Settles O7: row by row, the write of the row's byte reads the same fields of it. -/
theorem writeIsItsRegisterRow : Obligations.WriteIsItsRegisterRow := by
  intro s sel sub d
  refine ⟨?_, exec_globalRegister sub d s⟩
  cases hb : isBlock s.vd with
  | false => exact exec_voiceRegister hb sel sub d
  | true => exact exec_blockRegister hb sel sub d

/-- A mask that covers a field leaves it alone (R120). -/
theorem extractLsb'_masked {m : Byte} {start len : Nat} (h : m.extractLsb' start len = BitVec.allOnes len)
    (d : Byte) : (d &&& m).extractLsb' start len = d.extractLsb' start len := by
  rw [BitVec.extractLsb'_and, h, BitVec.and_allOnes]

/-- A mask that covers a bit leaves it alone (R120). -/
theorem getLsbD_masked {m : Byte} {i : Nat} (h : m.getLsbD i = true) (d : Byte) :
    (d &&& m).getLsbD i = d.getLsbD i := by
  rw [BitVec.getLsbD_and, h, Bool.and_true]

/-- Settles O8: each mask covers what the register reads of the byte. -/
theorem reservedBitsIgnored : Obligations.ReservedBitsIgnored := by
  intro s sel d
  refine ⟨fun hb => ⟨?pan, ?pitchL, ?key⟩, fun hb => ?control, ?enable⟩
  case pan =>
    exact writeRegister_congr_voice hb (voiceWrite_pan_congr (extractLsb'_masked (by decide) d).symm · s)
  case pitchL =>
    exact writeRegister_congr_voice hb (voiceWrite_pitchL_congr (extractLsb'_masked (by decide) d).symm
      (extractLsb'_masked (by decide) d).symm · s)
  case key => exact writeRegister_congr_voice hb (voiceWrite_key_congr (getLsbD_masked rfl d).symm · s)
  case control => exact writeRegister_congr_block hb (seqWrite_control_congr (getLsbD_masked rfl d).symm s)
  case enable => exact writeGlobalRegister_enable_congr (getLsbD_masked rfl d).symm s

end Sys2Proof.Machine
end

section
/-!
PROOFS. The bytes of the image as numbers (20_memory.md R84, R85; 30_encoding.md R125-R130): metadata records, linear
units, ADPCM units, the sequencer's pointer.
-/
namespace Sys2Proof.Machine

/-! ## Fields and bytes as numbers -/

/-- Bits put above others count as many times their place. -/
theorem toNat_append_place {m n : Nat} (x : BitVec m) (y : BitVec n) :
    (x ++ y).toNat = x.toNat * 2 ^ n + y.toNat := by
  rw [BitVec.toNat_append, ← Nat.shiftLeft_add_eq_or_of_lt y.isLt, Nat.shiftLeft_eq]

/-- Three bytes, most significant first. -/
theorem toNat_append3 (b2 b1 b0 : Byte) :
    (b2 ++ b1 ++ b0).toNat = b2.toNat * 65536 + b1.toNat * 256 + b0.toNat := by
  rw [toNat_append_place, toNat_append_place]
  omega

theorem toNat_extractLsb'_div {w : Nat} (x : BitVec w) (start len : Nat) :
    (x.extractLsb' start len).toNat = x.toNat / 2 ^ start % 2 ^ len := by
  rw [BitVec.extractLsb'_toNat, Nat.shiftRight_eq_div_pow]

theorem toNat_extractLsb'_zero {w : Nat} (x : BitVec w) (len : Nat) :
    (x.extractLsb' 0 len).toNat = x.toNat % 2 ^ len := by
  rw [toNat_extractLsb'_div, pow_zero, Nat.div_one]

theorem getLsbD_iff_div {w : Nat} (x : BitVec w) (i : Nat) :
    x.getLsbD i = true ↔ x.toNat / 2 ^ i % 2 = 1 := by
  rw [BitVec.getLsbD, Nat.testBit_eq_decide_div_mod_eq, decide_eq_true_iff]

theorem toNat_lowNibble (b : Byte) : (b.extractLsb' 0 4).toNat = b.toNat % 16 :=
  toNat_extractLsb'_zero b 4

theorem toNat_highNibble (b : Byte) : (b.extractLsb' 4 4).toNat = b.toNat / 16 := by
  have := b.isLt
  rw [toNat_extractLsb'_div]
  omega

/-- A sample as two's complement (R26). -/
theorem toInt_twosComplement {w : Nat} (x : BitVec (w + 1)) :
    x.toInt = if (x.toNat : Int) < 2 ^ w then (x.toNat : Int) else x.toNat - 2 ^ (w + 1) := by
  have hiff : 2 * x.toNat < 2 ^ (w + 1) ↔ (x.toNat : Int) < 2 ^ w := by
    rw [pow_succ]; norm_cast; omega
  rw [BitVec.toInt_eq_toNat_cond, if_congr hiff rfl rfl]
  push_cast
  rfl

/-! ## Metadata records (R125, R126) -/

/-- The codecs in the order of their codes (R126). -/
theorem codecOf_eq_getElem : ∀ code : BitVec 3,
    codecOf code = [Codec.pcm8, .pcm16, .pcm12, .adpcmA, .adpcmB, .adpcmC][code.toNat]? := by
  decide

/-- A codec is playable if its code names it and the variant has it (R126, R239). -/
theorem playableCodec_eq_some {vd : Variant} {code : BitVec 3} {c : Codec} :
    playableCodec vd code = some c ↔ codecOf code = some c ∧ Capability.voice c ∈ vd.codecs := by
  unfold playableCodec
  cases codecOf code with
  | none => simp
  | some c' => grind

/-- Settles O24: the record's fields, each as its bits of its bytes. -/
theorem metadataRecordFields : Obligations.MetadataRecordFields := by
  refine ⟨fun s i => ?_, fun vd code c => by rw [playableCodec_eq_some, codecOf_eq_getElem]⟩
  refine ⟨toNat_extractLsb'_zero _ 3, getLsbD_iff_div _ 3, toNat_append3 _ _ _, toNat_append_place _ _, toNat_append_place _ _,
    toNat_highNibble _, toNat_lowNibble _, toNat_highNibble _, toNat_lowNibble _, toNat_highNibble _,
    toNat_lowNibble _⟩

/-! ## Linear units (R127, R128, R270-R272) -/

theorem pcm8Unit_value (s : State) (start p : Nat) :
    pcm8Unit s start p = 256 * (if ((romRead s (start + p)).toNat : Int) < 128 then
      ((romRead s (start + p)).toNat : Int) else (romRead s (start + p)).toNat - 256) := by
  rw [pcm8Unit, toInt_twosComplement, mul_comm]
  rfl

theorem toNat_romRead16 (s : State) (a : Nat) :
    (romRead16 s a).toNat = (romRead s a).toNat + 256 * (romRead s (a + 1)).toNat := by
  rw [romRead16, toNat_append_place]
  omega

theorem pcm16Unit_value (s : State) (start p : Nat) :
    pcm16Unit s start p =
      if ((romRead16 s (start + 2 * p)).toNat : Int) < 32768 then ((romRead16 s (start + 2 * p)).toNat : Int)
      else (romRead16 s (start + 2 * p)).toNat - 65536 := by
  rw [pcm16Unit, toInt_twosComplement]
  rfl

/-- The six bytes of a super-frame of four 12-bit samples, as one number (R128). -/
def superFrame (s : State) (f : Nat) : Nat :=
  (romRead s f).toNat + 256 * (romRead s (f + 1)).toNat + 65536 * (romRead s (f + 2)).toNat
    + 16777216 * (romRead s (f + 3)).toNat + 4294967296 * (romRead s (f + 4)).toNat
    + 1099511627776 * (romRead s (f + 5)).toNat

/-- Unit `p` is the twelve bits of the super-frame at place `p mod 4` (R128, R272). -/
theorem toNat_pcm12Bits (s : State) (start p : Nat) :
    (pcm12Bits s start p).toNat = superFrame s (start + 6 * (p / 4)) / 2 ^ (12 * (p % 4)) % 4096 := by
  unfold pcm12Bits superFrame
  generalize start + 6 * (p / 4) = f
  have hplace : p % 4 = 0 ∨ p % 4 = 1 ∨ p % 4 = 2 ∨ p % 4 = 3 := by omega
  rcases hplace with h | h | h | h
  · rw [if_pos h, toNat_append_place, toNat_lowNibble, h]
    omega
  · rw [if_neg (by omega), if_pos h, toNat_append_place, toNat_highNibble, h]
    omega
  · rw [if_neg (by omega), if_neg (by omega), if_pos h, toNat_append_place, toNat_lowNibble, h]
    omega
  · rw [if_neg (by omega), if_neg (by omega), if_neg (by omega), toNat_append_place, toNat_highNibble, h]
    omega

theorem pcm12Unit_value (s : State) (start p : Nat) :
    pcm12Unit s start p = 16 * (if ((pcm12Bits s start p).toNat : Int) < 2048 then
      ((pcm12Bits s start p).toNat : Int) else (pcm12Bits s start p).toNat - 4096) := by
  rw [pcm12Unit, toInt_twosComplement, mul_comm]
  rfl

theorem decodeUnit_pcm8 {s : State} {V : Voice} (h : V.codec = .pcm8) :
    decodeUnit s V = V.push (pcm8Unit s V.start V.pos) := by
  rw [decodeUnit, h]

theorem decodeUnit_pcm16 {s : State} {V : Voice} (h : V.codec = .pcm16) :
    decodeUnit s V = V.push (pcm16Unit s V.start V.pos) := by
  rw [decodeUnit, h]

theorem decodeUnit_pcm12 {s : State} {V : Voice} (h : V.codec = .pcm12) :
    decodeUnit s V = V.push (pcm12Unit s V.start V.pos) := by
  rw [decodeUnit, h]

/-- Settles O31: the values of the three codecs as numbers, and the codec's case of `decodeUnit`. -/
theorem linearUnitValues : Obligations.LinearUnitValues := by
  refine ⟨fun s start p => ⟨pcm8Unit_value s start p, ?pcm16, ?pcm12⟩,
    fun _ _ => ⟨decodeUnit_pcm8, decodeUnit_pcm16, decodeUnit_pcm12⟩⟩
  case pcm16 =>
    rw [pcm16Unit_value, toNat_romRead16]
    push_cast
    rfl
  case pcm12 =>
    rw [pcm12Unit_value, toNat_pcm12Bits, superFrame]
    push_cast
    rfl

/-! ## ADPCM units (R129, R275-R279) -/

/-- The dialect of the block stream is the one the descriptor names (R338). -/
theorem seqDialect_eq {vd : Variant} {id : DialectId} (h : vd.seqDialect = id) :
    seqDialect vd = vd.dialect id := by
  rw [seqDialect, h]

/-- A linear codec has no dialect. -/
theorem dialectOf_linear (vd : Variant) {c : Codec} (h : c ∈ [Codec.pcm8, .pcm16, .pcm12]) :
    dialectOf vd c = none := by
  cases c with
  | pcm8 | pcm16 | pcm12 => rfl
  | adpcmA | adpcmB | adpcmC => exact absurd h (by decide)

/-- The sign of a code is its top bit (R275). -/
theorem adpcmCode_negative {d : Dialect} (h : d.codeBits = 3 ∨ d.codeBits = 4) (nib : BitVec 4) :
    (adpcmCode d nib).negative = true ↔ 2 ^ (d.codeBits - 1) ≤ nib.toNat % 2 ^ d.codeBits := by
  rw [adpcmCode, beq_iff_eq]
  rcases h with h | h <;> rw [h] <;> omega

theorem adpcmMagnitude_eq (d : Dialect) (sidx m : Nat) :
    adpcmMagnitude d sidx m = if d.magMode = .table then (d.diff.getD sidx []).getD m 0 else d.direct.getD m 0 := by
  unfold adpcmMagnitude
  cases d.magMode <;> rfl

/-- The differential update with its code written out (R275-R278). -/
theorem adpcmStep_eq {d : Dialect} (h : d.codeBits = 3 ∨ d.codeBits = 4) {nib : BitVec 4} {m : Nat}
    (hm : (adpcmCode d nib).m = m) (V : Voice) :
    V.adpcmStep d nib = { V with
      acc := clamp
        (if 2 ^ (d.codeBits - 1) ≤ nib.toNat % 2 ^ d.codeBits then
          adpcmDamp d V.acc - adpcmMagnitude d V.sidx m
        else adpcmDamp d V.acc + adpcmMagnitude d V.sidx m) d.accMin d.accMax
      sidx := adpcmIndex d V.sidx m } := by
  rw [Voice.adpcmStep, adpcmAccumulate, if_congr (adpcmCode_negative h nib) rfl rfl, hm]

/-- The nibble of a unit, by order and parity (R129). -/
theorem toNat_nibbleAt (d : Dialect) (byte : Byte) (pos : Nat) :
    (nibbleAt d byte pos).toNat =
      if (pos % 2 = 0 ↔ d.nibOrder = .highFirst) then byte.toNat / 16 else byte.toNat % 16 := by
  have hiff : (((pos % 2 == 0) == (d.nibOrder == .highFirst)) = true)
      ↔ (pos % 2 = 0 ↔ d.nibOrder = .highFirst) := by
    rw [beq_iff_eq, Bool.eq_iff_iff, beq_iff_eq, beq_iff_eq]
  rw [nibbleAt, apply_ite BitVec.toNat, if_congr hiff (toNat_highNibble byte) (toNat_lowNibble byte)]

/-- Settles O32: the dialects by definition; the update with its code written out; the unit by its nibble. -/
theorem adpcmUnitUpdate : Obligations.AdpcmUnitUpdate := by
  refine ⟨fun vd => ⟨rfl, rfl, rfl, fun _ => dialectOf_linear vd, seqDialect_eq, seqDialect_eq, seqDialect_eq⟩,
    fun d V nib hbits => ?update, fun s V d nib hd => ?unit⟩
  case update =>
    intro c m mag damped moved
    have hdamped : adpcmDamp d V.acc = damped := rfl
    have hmag : (adpcmMagnitude d V.sidx m : Int) = mag := by rw [adpcmMagnitude_eq, Nat.cast_ite]
    rw [adpcmStep_eq hbits (m := m) rfl, hdamped, hmag]
    rfl
  case unit =>
    intro byte hnib U
    have hnibble : adpcmNibble s d V = nib :=
      BitVec.eq_of_toNat_eq ((toNat_nibbleAt ..).trans hnib.symm)
    rw [decodeUnit_adpcm hd, adpcmUnit, hnibble]
    rfl

end Sys2Proof.Machine
end

section
/-! PROOFS. The address fetch of the sequencer (30_encoding.md R130; 44_sequencer.md R334, R342, R343). -/
namespace Sys2Proof.Machine

/-- On a configured BLOCK core whose FSM is to act, TICK does the action of its state (R333, R380). -/
theorem tick_seqAct {s : State} (hlive : s.g.fatal = false) (hconf : s.g.configured = true)
    (hb : isBlock s.vd = true) (hcd : s.seq.cd = 0) (hst : s.seq.st ≠ .idle) :
    completes .tick s (mix (seqPublish (seqAct s))) := by
  have hadvance : seqAdvance s = seqAct s := by
    rw [seqAdvance, if_neg hst, if_neg (by omega)]
  change execTick s = _
  rw [execTick, unlessFatal_live hlive, ifConfigured_true hconf, ticked, if_pos hb, seqTick, hadvance]
  rfl

theorem seqAct_addr1 {s : State} (h : s.seq.st = .addr1) : seqAct s = addr1Act s := by rw [seqAct, h]

theorem seqAct_addr2 {s : State} (h : s.seq.st = .addr2) : seqAct s = addr2Act s := by rw [seqAct, h]

/-- The pointer is most significant byte first, in units of the descriptor's scale (R130, R343). -/
theorem pointerAddr_eq (s : State) :
    pointerAddr s
      = (s.seq.ptrHi.toNat * 256 + (romRead s s.seq.cursor).toNat) * s.vd.seqPtrScale := by
  rw [pointerAddr, toNat_append_place]
  rfl

/-- Settles O46: the two states' actions, Addr2 by its sanity check. -/
theorem pointerFetch : Obligations.PointerFetch := by
  intro s hlive hconf hb hcd
  have htick := tick_seqAct hlive hconf hb hcd
  refine ⟨fun hst => ?addr1, fun hst => ?addr2⟩
  case addr1 =>
    have h := htick (by rw [hst]; decide)
    rwa [seqAct_addr1 hst] at h
  case addr2 =>
    have h := htick (by rw [hst]; decide)
    rw [seqAct_addr2 hst, addr2Act, pointerAddr_eq] at h
    intro a
    refine ⟨fun hinside => ?_, fun houtside => ?_⟩
    · rwa [if_neg (by omega)] at h
    · rwa [if_pos houtside] at h

end Sys2Proof.Machine
end

section
/-! PROOFS. The reads (30_encoding.md R118; 45_mixer_tick.md R386; 46_host_misc.md R410). -/
namespace Sys2Proof.Machine

/-- The status byte as a number (R118). -/
theorem toNat_statusByte (err : BitVec 4) (drq keyed active : Bool) :
    (statusByte err drq keyed active).toNat
      = 16 * err.toNat + 4 * drq.toNat + 2 * keyed.toNat + active.toNat := by
  have hbit3 : (0 : BitVec 1).toNat = 0 := rfl
  simp only [statusByte, toNat_append_place, BitVec.toNat_ofBool, hbit3]
  omega

/-- A read on a live core returns its value and changes nothing else (R500). -/
theorem readFrame_live {s : State} (h : s.g.fatal = false) :
    exec .readFrame s = .next { s with
      result := if s.vd.stereo then .frameStereo s.g.frameL s.g.frameR else .frameMono s.g.frameL } :=
  unlessFatal_live h

theorem readStatus_live {s : State} (h : s.g.fatal = false) (sel : Byte) :
    exec (.readStatus sel) s = .next { s with result := .status (statusOf s sel) } :=
  unlessFatal_live h

theorem statusOf_none {s : State} {sel : Byte} (h : voiceOf s.vd sel = none) : statusOf s sel = 0 := by
  rw [statusOf, h]

theorem statusOf_voice {s : State} {sel : Byte} {v : Nat} (h : voiceOf s.vd sel = some v)
    (hb : isBlock s.vd = false) : statusOf s sel = voiceStatus (s.voice v) := by
  rw [statusOf, h]
  simp only [hb, Bool.false_eq_true, if_false]

theorem statusOf_block {s : State} {sel : Byte} {v : Nat} (h : voiceOf s.vd sel = some v)
    (hb : isBlock s.vd = true) : statusOf s sel = blockStatus (s.voice 0) s.seq := by
  rw [statusOf, h]
  simp only [hb, if_true]

theorem toNat_voiceStatus (V : Voice) :
    (voiceStatus V).toNat = 16 * V.err.toNat + 2 * V.keyed.toNat + V.active.toNat :=
  toNat_statusByte ..

/-- A running sequencer shows as both KEYED and ACTIVE (R410). -/
theorem toNat_blockStatus (V : Voice) (q : Seq) :
    (blockStatus V q).toNat = 16 * V.err.toNat + 4 * q.drq.toNat + if q.st = .idle then 0 else 3 := by
  rw [blockStatus, toNat_statusByte]
  split
  case isTrue hidle =>
    have hrun : seqRunning q = false := by simp [seqRunning, hidle]
    simp [hrun]
  case isFalse hidle =>
    have hrun : seqRunning q = true := by simp [seqRunning, hidle]
    simp [hrun, add_assoc]

/-- Settles O50: the frame by definition, the status byte as a number. -/
theorem readsReturnAndChangeNothing : Obligations.ReadsReturnAndChangeNothing := by
  intro s sel hlive
  refine ⟨readFrame_live hlive, fun hnone => ?_,
    fun v hv => ⟨_, readStatus_live hlive sel, fun hb => ?_, fun hb => ?_⟩⟩
  · rw [readStatus_live hlive, statusOf_none hnone]
  · rw [statusOf_voice hv hb, toNat_voiceStatus]
  · rw [statusOf_block hv hb, toNat_blockStatus]

end Sys2Proof.Machine
end

section
/-!
PROOFS. The table precomputer (40_table_precomputer.md R200-R209): the tables entry by entry, the phase step octave
by octave, what CONFIGURE answers for an accepted and a rejected rate, and the register writes that retune.
-/
namespace Sys2Proof.Machine

/-! ## Tables (R203, R205, R206) -/

/-- An entry of a table built code by code is the formula at its code. -/
theorem getD_map_range {α : Type} (f : Nat → α) (default : α) {n code : Nat} (h : code < n) :
    ((List.range n).map f).getD code default = f code := by
  rw [List.getD_eq_getElem _ _ (by simpa using h), List.getElem_map, List.getElem_range]

theorem buildFreq_getD (vd : Variant) (rate : Nat) {code : Nat} (h : code < 1024) :
    (buildFreq vd rate).getD code 0 = freqEntry vd rate code :=
  getD_map_range _ _ h

theorem buildAtk_getD (vd : Variant) (rate : Nat) {e : Nat} (h : e < 64) :
    (buildAtk vd rate).getD e none = (vd.base.getD e none).map (swingEntry · rate) :=
  getD_map_range _ _ h

theorem buildDec_getD (vd : Variant) (rate : Nat) {e : Nat} (h : e < 64) :
    (buildDec vd rate).getD e none = (vd.base.getD e none).map fun ms =>
      swingEntry ⟨ms.num * vd.ratio.num, ms.den * vd.ratio.den⟩ rate :=
  getD_map_range _ _ h

theorem buildTables_envelope {vd : Variant} (h : vd.env = .adsrRamp) (rate : Nat) (old : Tables) :
    (buildTables vd rate old).atk = buildAtk vd rate ∧ (buildTables vd rate old).dec = buildDec vd rate :=
  ⟨if_pos h, if_pos h⟩

theorem degenerate_eq_true {vd : Variant} {e : Nat} :
    degenerate vd e = true ↔ vd.base.getD e none = none := by
  rw [degenerate, Option.isNone_iff_eq_none]

theorem degenerate_eq_false {vd : Variant} {e : Nat} :
    degenerate vd e = false ↔ ∃ ms, vd.base.getD e none = some ms := by
  rw [degenerate, Option.isNone_eq_false_iff, Option.isSome_iff_exists]

/-- A rate whose table entry is a full-swing increment moves the level (R207). -/
theorem one_le_rateOf {table : List (Option Nat)} {e : Nat} {ms : Ratio} {rate : Nat}
    (h : table.getD e none = some (swingEntry ms rate)) : 1 ≤ rateOf table e := by
  rw [rateOf, h]
  exact one_le_swingEntry ms rate

/-! ## The phase step (R204) -/

theorem stepOf_of_nonneg {oct : BitVec 4} (h : 0 ≤ oct.toInt) (t : Tables) (fn : BitVec 10) :
    stepOf t fn oct = freqOf t fn * 2 ^ oct.toInt.toNat :=
  if_pos h

/-- At octave 0 both shifts are by nothing, so the right shift also gives the step there. -/
theorem stepOf_of_nonpos {oct : BitVec 4} (h : oct.toInt ≤ 0) (t : Tables) (fn : BitVec 10) :
    stepOf t fn oct = freqOf t fn / 2 ^ (-oct.toInt).toNat := by
  rcases h.lt_or_eq with hneg | hzero
  · exact if_neg hneg.not_ge
  · rw [stepOf_of_nonneg hzero.ge, hzero]
    simp

theorem stepOf_octave_up {o o' : BitVec 4} (ho : 0 ≤ o.toInt) (hup : o'.toInt = o.toInt + 1)
    (t : Tables) (fn : BitVec 10) : stepOf t fn o' = 2 * stepOf t fn o := by
  have hshift : o'.toInt.toNat = o.toInt.toNat + 1 := by omega
  rw [stepOf_of_nonneg (by omega), stepOf_of_nonneg ho, hshift, pow_succ]
  ring

theorem stepOf_octave_down {o o' : BitVec 4} (ho : o.toInt ≤ 0) (hdown : o'.toInt = o.toInt - 1)
    (t : Tables) (fn : BitVec 10) : stepOf t fn o' = stepOf t fn o / 2 := by
  have hshift : (-o'.toInt).toNat = (-o.toInt).toNat + 1 := by omega
  rw [stepOf_of_nonpos (by omega), stepOf_of_nonpos ho, hshift, pow_succ, Nat.div_div_eq_div_mul]

/-- Settles O16: the entries grow with the code, and an octave is one more place of the shift. -/
theorem frequencyTableShape : Obligations.FrequencyTableShape := by
  refine ⟨fun vd rate code code' hle hlt => ?monotone, fun t fn o o' ho hup => stepOf_octave_up ho hup t fn,
    fun t fn o o' ho hdown => stepOf_octave_down ho hdown t fn⟩
  case monotone =>
    rw [buildFreq_getD vd rate (by omega), buildFreq_getD vd rate hlt]
    exact freqEntry_mono vd rate hle

/-! ## CONFIGURE (R200, R201) -/

theorem rateRejected_iff {vd : Variant} {rate : Nat} :
    rateRejected vd rate = true ↔ rate = 0 ∨ 2 ^ 24 ≤ freqEntry vd rate 1023 := by
  rw [rateRejected, Bool.or_eq_true, beq_iff_eq, decide_eq_true_iff]

theorem configure_accepted {s : State} {clock : U32} (hlive : s.g.fatal = false)
    (h : rateRejected s.vd (sampleRateOf s.vd clock) = false) :
    exec (.configure clock) s
      = (configured s (sampleRateOf s.vd clock)).returns (.rate (sampleRateOf s.vd clock)) := by
  change execConfigure clock s = _
  rw [execConfigure, unlessFatal_live hlive, h, if_neg Bool.false_ne_true]

theorem configure_rejected {s : State} {clock : U32} (hlive : s.g.fatal = false)
    (h : rateRejected s.vd (sampleRateOf s.vd clock) = true) :
    exec (.configure clock) s = raiseConfigurationError clock s := by
  change execConfigure clock s = _
  rw [execConfigure, unlessFatal_live hlive, if_pos h]

/-- A CONFIGURE that returns a rate has built the tables of that rate. -/
theorem tables_of_configure {s t : State} {clock : U32} {rate : Nat} (h : exec (.configure clock) s = .next t)
    (hrate : t.result = .rate rate) : t.tables = buildTables s.vd rate s.tables := by
  have hlive : s.g.fatal = false := (unlessFatal_next.mp h).1
  cases hr : rateRejected s.vd (sampleRateOf s.vd clock) with
  | true =>
    rw [configure_rejected hlive hr] at h
    rw [returns_next.mp h] at hrate
    cases hrate
  | false =>
    rw [configure_accepted hlive hr] at h
    rw [returns_next.mp h] at hrate ⊢
    cases hrate
    rfl

/-- Settles O17: an entry of either envelope table is a full-swing increment, at least 1, where the descriptor has a
base time, and absent where it has none. -/
theorem nonDegenerateRatesMove : Obligations.NonDegenerateRatesMove := by
  intro s t clock rate hadsr h hrate e he
  obtain ⟨hatk, hdec⟩ := buildTables_envelope hadsr rate s.tables
  rw [tables_of_configure h hrate, hatk, hdec]
  constructor
  · intro hmoves
    obtain ⟨ms, hms⟩ := degenerate_eq_false.mp hmoves
    exact ⟨one_le_rateOf (by rw [buildAtk_getD s.vd rate he, hms, Option.map_some]),
      one_le_rateOf (by rw [buildDec_getD s.vd rate he, hms, Option.map_some])⟩
  · intro hinstant
    have hbase := degenerate_eq_true.mp hinstant
    rw [buildAtk_getD s.vd rate he, buildDec_getD s.vd rate he, hbase]
    exact ⟨rfl, rfl⟩

/-- Settles O14: the rate is not rejected, and the entries are the formulas by definition. -/
theorem configureBuildsTables : Obligations.ConfigureBuildsTables := by
  intro s clock rate hlive hrate hne hlt
  have hr : rateRejected s.vd (sampleRateOf s.vd clock) = false := by
    rw [← Bool.not_eq_true, rateRejected_iff, sampleRateOf, ← hrate]
    exact not_or.mpr ⟨hne, hlt.not_ge⟩
  rw [configure_accepted hlive hr, sampleRateOf, ← hrate]
  rfl

/-- Settles O15: either cause rejects the rate. -/
theorem badRateIsConfigurationError : Obligations.BadRateIsConfigurationError := by
  intro s clock hlive hbad
  exact configure_rejected hlive (rateRejected_iff.mpr hbad)

/-! ## Retuning (R204, R227, R228) -/

theorem writeRegister_reaches {s : State} {sel : Byte} {v : Nat} (h : reaches s sel v) (sub d : Byte) :
    writeRegister sel sub d s = voiceWrite v sub d s := by
  obtain ⟨hlive, hb, hv⟩ := h
  simp only [writeRegister, unlessFatal_live hlive, hv, hb, Bool.false_eq_true, if_false]

theorem voiceWrite_pitchL {s : State} (h : s.g.configured = true) (v : Nat) (d : Byte) :
    voiceWrite v 2 d s = putVoice s v ((pitchLFields (s.voice v) d).retune s.tables) :=
  ifConfigured_true h

theorem voiceWrite_pitchH {s : State} (h : s.g.configured = true) (v : Nat) (d : Byte) :
    voiceWrite v 3 d s = putVoice s v ((pitchHFields (s.voice v) d).retune s.tables) :=
  ifConfigured_true h

/-- Settles O19: the shift by the octave's sign, and each pitch write with the fields of its row's data byte. -/
theorem pitchWritesRetune : Obligations.PitchWritesRetune := by
  refine ⟨fun t fn oct => ⟨fun h => stepOf_of_nonneg h t fn, fun h => stepOf_of_nonpos h.le t fn⟩,
    fun s sel v hreach hconf => ⟨fun f h => ?pitchL, fun o f => ?pitchH⟩⟩
  case pitchL =>
    rw [completes, exec_pitchL, writeRegister_reaches hreach, voiceWrite_pitchL hconf, pitchLFields,
      pitchLByte_fn, pitchLByte_sample]
    rfl
  case pitchH =>
    rw [completes, exec_pitchH, writeRegister_reaches hreach, voiceWrite_pitchH hconf, pitchHFields,
      pitchHByte_oct, pitchHByte_fn]
    rfl

end Sys2Proof.Machine
end

section
/-!
PROOFS. The operands of the register decoder (41_register_decoder.md R220, R240, R242): the selector maps, the bank
remap, the effective rate code.
-/
namespace Sys2Proof.Machine

/-! ## Selectors (R220) -/

theorem inRange_eq_some {vd : Variant} {v w : Nat} : inRange vd v = some w ↔ w = v ∧ w < vd.nVoices :=
  inRange_some.trans (and_congr_right fun h => by rw [h])

theorem voiceOf_direct {vd : Variant} (h : vd.selMap = .direct) {sel : Byte} {v : Nat} :
    voiceOf vd sel = some v ↔ v = sel.toNat ∧ v < vd.nVoices := by
  rw [voiceOf, h, inRange_eq_some]

/-- Every eighth selector reaches no voice. -/
theorem voiceOf_skip8 {vd : Variant} (h : vd.selMap = .skip8) {sel : Byte} {v : Nat} :
    voiceOf vd sel = some v ↔
      sel.toNat % 8 ≠ 7 ∧ v = 7 * (sel.toNat / 8) + sel.toNat % 8 ∧ v < vd.nVoices := by
  rw [voiceOf, h]
  by_cases hgap : sel.toNat % 8 = 7
  · simp [hgap]
  · simp [hgap, inRange_eq_some]

/-- A selector is found again from its voice: the identity, or quotient and remainder by 7. -/
theorem voiceOf_injective {vd : Variant} {sel sel' : Byte} {v : Nat} (h : voiceOf vd sel = some v)
    (h' : voiceOf vd sel' = some v) : sel = sel' := by
  apply BitVec.eq_of_toNat_eq
  cases hmap : vd.selMap with
  | direct =>
    rw [voiceOf_direct hmap] at h h'
    omega
  | skip8 =>
    rw [voiceOf_skip8 hmap] at h h'
    omega

/-- Settles O11: one equivalence for each map, and the injectivity both give. -/
theorem selectorMap : Obligations.SelectorMap :=
  ⟨fun _ _ _ h => voiceOf_direct h, fun _ _ _ h => voiceOf_skip8 h, fun _ _ _ _ => voiceOf_injective⟩

/-! ## The effective rate code (R242) -/

/-- Bit 9 of a pitch code as a number. -/
theorem toNat_fnTopBit (fn : BitVec 10) : (fn.getLsbD 9).toNat = fn.toNat / 512 := by
  have hlt := fn.isLt
  have hbit := getLsbD_iff_div fn 9
  cases hb : fn.getLsbD 9 with
  | false =>
    have hne : fn.toNat / 2 ^ 9 % 2 ≠ 1 := fun h => absurd (hbit.mpr h) (by rw [hb]; decide)
    rw [Bool.toNat_false]
    omega
  | true =>
    have hone := hbit.mp hb
    rw [Bool.toNat_true]
    omega

theorem keyScale_eq (krs : BitVec 4) (fn : BitVec 10) (oct : BitVec 4) :
    keyScale krs fn oct = if krs = 15 then 0 else 2 * (oct.toInt + krs.toNat) + fn.toNat / 512 := by
  rw [keyScale, toNat_fnTopBit]
  push_cast
  rfl

theorem effRate_zero (krs : BitVec 4) (fn : BitVec 10) (oct : BitVec 4) : effRate 0 krs fn oct = 0 := rfl

theorem effRate_fifteen (krs : BitVec 4) (fn : BitVec 10) (oct : BitVec 4) : effRate 15 krs fn oct = 63 := rfl

/-- The scaled code of a rate that is not degenerate, cut to 4..63. -/
theorem effRate_scaled {r : BitVec 4} (hzero : r ≠ 0) (hfifteen : r ≠ 15) (krs : BitVec 4)
    (fn : BitVec 10) (oct : BitVec 4) :
    (effRate r krs fn oct : Int) = min (max (4 * r.toNat + keyScale krs fn oct) 4) 63 := by
  rw [effRate, if_neg hzero, if_neg hfifteen, clamp]
  omega

/-- Settles O27: the two degenerate codes, and the cut of the others. -/
theorem effectiveRateCode : Obligations.EffectiveRateCode := by
  intro r krs fn oct ks
  have hks : keyScale krs fn oct = ks := keyScale_eq krs fn oct
  refine ⟨fun h => ?zero, fun h => ?fifteen, fun hzero hfifteen => ?scaled⟩
  case zero => rw [h, effRate_zero]
  case fifteen => rw [h, effRate_fifteen]
  case scaled =>
    have heq := effRate_scaled hzero hfifteen krs fn oct
    rw [hks] at heq
    exact ⟨heq, by omega, by omega⟩

/-! ## The bank remap (R240) -/

theorem bankRemap_window {vd : Variant} (hbanked : vd.banked = true) {a : Nat} (h : vd.bankThreshold ≤ a)
    (bank : Byte) : bankRemap vd bank a = bank.toNat * vd.bankThreshold + a % vd.bankThreshold :=
  if_pos ⟨hbanked, h⟩

theorem bankRemap_unmapped {vd : Variant} {a : Nat} (h : vd.banked = false ∨ a < vd.bankThreshold)
    (bank : Byte) : bankRemap vd bank a = a := by
  apply if_neg
  rintro ⟨hbanked, hle⟩
  rcases h with h | h
  · rw [hbanked] at h; cases h
  · omega

/-- The window of a banked descriptor with voices is not empty and at most 2^23 long (R16). -/
theorem wf_bankThreshold {vd : Variant} (h : vd.wf = true) (hb : isBlock vd = false)
    (hbanked : vd.banked = true) : 0 < vd.bankThreshold ∧ vd.bankThreshold ≤ 2 ^ 23 := by
  have hv := wf_voices h hb
  simp only [Variant.voicesWf, hbanked, Bool.not_true, Bool.false_or, Bool.and_eq_true, beq_iff_eq,
    decide_eq_true_eq] at hv
  obtain ⟨⟨⟨⟨-, hpow, hle⟩, -⟩, -⟩, -⟩ := hv
  exact ⟨hpow ▸ Nat.two_pow_pos _, hle⟩

/-- A remapped address lies in one of 256 windows (R91, R240). -/
theorem bankRemap_lt {vd : Variant} (hpos : 0 < vd.bankThreshold) (hle : vd.bankThreshold ≤ 2 ^ 23)
    (bank : Byte) {a : Nat} (ha : a < 2 ^ 24) : bankRemap vd bank a < 2 ^ 31 := by
  unfold bankRemap
  split
  · have hmod : a % vd.bankThreshold < vd.bankThreshold := Nat.mod_lt _ hpos
    have hbank : bank.toNat * vd.bankThreshold ≤ 255 * vd.bankThreshold :=
      Nat.mul_le_mul_right _ (by have := bank.isLt; omega)
    omega
  · omega

/-- Settles O28: the two sides of the threshold, and the size of a valid window. -/
theorem bankRemapWindow : Obligations.BankRemapWindow := by
  intro vd bank a
  refine ⟨fun hbanked hle => bankRemap_window hbanked hle bank, fun h => bankRemap_unmapped h bank,
    fun hwf hb ha => ?bound⟩
  case bound =>
    cases hbanked : vd.banked with
    | true =>
      obtain ⟨hpos, hle⟩ := wf_bankThreshold hwf hb hbanked
      exact bankRemap_lt hpos hle bank ha
    | false =>
      rw [bankRemap_unmapped (.inl hbanked)]
      omega

end Sys2Proof.Machine
end

section
/-!
PROOFS. What a write does to a voice or a global (41_register_decoder.md R220-R243): one equation per register, and
the three cases of key-on and key-off.
-/
namespace Sys2Proof.Machine

/-! ## One equation per register (R225-R233) -/

theorem voiceWrite_pan (v : Nat) (d : Byte) (s : State) :
    voiceWrite v 0 d s = putVoice s v (panWrite (s.voice v) d) := rfl

theorem voiceWrite_smpl (v : Nat) (d : Byte) (s : State) :
    voiceWrite v 1 d s = putVoice s v (smplWrite (s.voice v) d) := rfl

theorem voiceWrite_pitchL_guarded (v : Nat) (d : Byte) (s : State) :
    voiceWrite v 2 d s = ifConfigured s (putVoice s v ((pitchLFields (s.voice v) d).retune s.tables)) := rfl

theorem voiceWrite_pitchH_guarded (v : Nat) (d : Byte) (s : State) :
    voiceWrite v 3 d s = ifConfigured s (putVoice s v ((pitchHFields (s.voice v) d).retune s.tables)) := rfl

theorem voiceWrite_key (v : Nat) (d : Byte) (s : State) :
    voiceWrite v 4 d s =
      if d.getLsbD 7 then ifConfigured s (putVoice s v (keyedVoice s (s.voice v)))
      else putVoice s v (keyedOffVoice s.vd (s.voice v)) := rfl

theorem voiceWrite_tl (v : Nat) (d : Byte) (s : State) :
    voiceWrite v 5 d s = putVoice s v (tlWrite (s.voice v) d) := rfl

theorem voiceWrite_lfo (v : Nat) (d : Byte) (s : State) :
    voiceWrite v 6 d s = putVoice s v (lfoWrite (s.voice v) d) := rfl

theorem voiceWrite_am (v : Nat) (d : Byte) (s : State) :
    voiceWrite v 7 d s = putVoice s v (amWrite (s.voice v) d) := rfl

theorem voiceWrite_reserved {sub : Byte} (h : 8 ≤ sub.toNat) (v : Nat) (d : Byte) (s : State) :
    voiceWrite v sub d s = s.returns .void := by
  have hne : ∀ k : Byte, k.toNat < 8 → sub ≠ k := by rintro k hk rfl; omega
  simp [voiceWrite, hne]

theorem seqWrite_reserved {sub : Byte} (h : 2 ≤ sub.toNat) (d : Byte) (s : State) : seqWrite sub d s = s := by
  have hne : ∀ k : Byte, k.toNat < 2 → sub ≠ k := by rintro k hk rfl; omega
  simp [seqWrite, hne]

/-! ## Writes without effect (R220, R221, R233, R235, R331) -/

/-- A write that reaches no voice is dropped (R221). -/
theorem writeRegister_dropped {s : State} {sel : Byte} (hlive : s.g.fatal = false)
    (hnone : voiceOf s.vd sel = none) (sub d : Byte) : writeRegister sel sub d s = s.returns .void := by
  rw [writeRegister, unlessFatal_live hlive, hnone]

theorem writeRegister_reserved {s : State} (hlive : s.g.fatal = false) (hb : isBlock s.vd = false)
    {sub : Byte} (h : 8 ≤ sub.toNat) (sel d : Byte) : writeRegister sel sub d s = s.returns .void := by
  cases hv : voiceOf s.vd sel with
  | none => exact writeRegister_dropped hlive hv sub d
  | some v => rw [writeRegister_reaches ⟨hlive, hb, hv⟩, voiceWrite_reserved h]

theorem writeRegister_block_reserved {s : State} (hlive : s.g.fatal = false) (hb : isBlock s.vd = true)
    {sub : Byte} (h : 2 ≤ sub.toNat) (sel d : Byte) : writeRegister sel sub d s = s.returns .void := by
  cases hv : voiceOf s.vd sel with
  | none => exact writeRegister_dropped hlive hv sub d
  | some v => simp only [writeRegister, unlessFatal_live hlive, hv, hb, if_true, seqWrite_reserved h]

theorem writeGlobalRegister_reserved {s : State} (hlive : s.g.fatal = false) {reg : Byte}
    (h : 2 ≤ reg.toNat) (d : Byte) : writeGlobalRegister reg d s = s.returns .void := by
  have hne : ∀ k : Byte, k.toNat < 2 → reg ≠ k := by rintro k hk rfl; omega
  simp [writeGlobalRegister, unlessFatal_live hlive, hne]

/-- Settles O9: the reserved addresses of the three maps. -/
theorem reservedAddressesNoEffect : Obligations.ReservedAddressesNoEffect := by
  intro s sel sub d hlive
  exact ⟨fun hb h => writeRegister_reserved hlive hb h sel d,
    fun hb h => writeRegister_block_reserved hlive hb h sel d,
    fun h => writeGlobalRegister_reserved hlive h d⟩

/-- Settles O10: each of these rows is a write of one register (log 6). -/
theorem droppedWritesChangeNothing : Obligations.DroppedWritesChangeNothing := by
  intro s sel sub d b1 b4 b4' b6 b7 hlive hnone
  have hdropped := writeRegister_dropped hlive hnone
  simp only [List.forall_mem_cons]
  exact ⟨hdropped sub d, hdropped 0 (panByte b4), hdropped 1 d, hdropped 2 (pitchLByte b6 b1),
    hdropped 3 (pitchHByte b4 b4'), hdropped 4 0x80, hdropped 4 0x00, hdropped 5 (tlByte b7 b1),
    hdropped 6 d, hdropped 7 d, List.forall_mem_nil _⟩

/-! ## Registers that store (R225, R226, R231, R232) -/

/-- Settles O18: each row writes its register, PAN by the byte that carries its code. -/
theorem plainVoiceRegisterWrites : Obligations.PlainVoiceRegisterWrites := by
  intro s sel d p v hreach
  have hwrite := writeRegister_reaches hreach
  refine ⟨?pan, hwrite 0 d, hwrite 1 d, hwrite 6 d, hwrite 7 d⟩
  case pan =>
    rw [completes, exec_pan, hwrite, voiceWrite_pan, panWrite, panByte_code]
    rfl

theorem tlByte_getLsbD_zero (l : BitVec 7) (b : BitVec 1) : (tlByte l b).getLsbD 0 = b.getLsbD 0 := by
  rw [tlByte, BitVec.getLsbD_append, if_pos Nat.one_pos]

/-- TL with its level and its LD bit taken apart (R231). -/
theorem tl_completes {s : State} {sel : Byte} {v : Nat} (hreach : reaches s sel v) (l : BitVec 7)
    (b : BitVec 1) :
    completes (.tl sel l b) s (s.setVoice v { s.voice v with
      tlTgt := l, tlCur := if b.getLsbD 0 then l.toNat * 2 ^ 16 else (s.voice v).tlCur }) := by
  rw [completes, exec_tl, writeRegister_reaches hreach, voiceWrite_tl, tlWrite, tlByte_level,
    tlByte_getLsbD_zero]
  rfl

/-- Settles O20: the two values of LD. -/
theorem tlWriteSetsLevel : Obligations.TlWriteSetsLevel := by
  intro s sel v l hreach
  exact ⟨tl_completes hreach l 0, tl_completes hreach l 1⟩

/-! ## Global registers (R235-R237) -/

theorem writeGlobalRegister_enable {s : State} (hlive : s.g.fatal = false) (d : Byte) :
    writeGlobalRegister 0 d s = State.returns { s with g := { s.g with enable := d.getLsbD 0 } } .void :=
  unlessFatal_live hlive

theorem writeGlobalRegister_bank {s : State} (hlive : s.g.fatal = false) (d : Byte) :
    writeGlobalRegister 1 d s = State.returns { s with g := { s.g with bank := d } } .void :=
  unlessFatal_live hlive

theorem bitByte_getLsbD_zero : ∀ b : BitVec 1, (bitByte b).getLsbD 0 = (b == 1) := by decide

/-- Settles O22: both spellings write registers 0 and 1. -/
theorem globalWritesSetGlobals : Obligations.GlobalWritesSetGlobals := by
  intro s hlive
  refine ⟨fun en => ?enable, writeGlobalRegister_bank hlive, writeGlobalRegister_enable hlive,
    writeGlobalRegister_bank hlive⟩
  case enable =>
    rw [completes, exec_enable, writeGlobalRegister_enable hlive, bitByte_getLsbD_zero]
    rfl

/-! ## Key-on (R238, R239) -/

theorem keyOn_reaches {s : State} {sel : Byte} {v : Nat} (hreach : reaches s sel v)
    (hconf : s.g.configured = true) :
    completes (.keyOn sel) s (s.setVoice v (keyedVoice s (s.voice v))) := by
  change writeRegister sel 4 0x80 s = _
  rw [writeRegister_reaches hreach, voiceWrite_key, if_pos (by decide), ifConfigured_true hconf]
  rfl

theorem keyedVoice_rejected {s : State} {V : Voice}
    (h : playableCodec s.vd (metadataOf s V.sample.toNat).codec = none) : keyedVoice s V = rejectKeyOn V := by
  simp only [keyedVoice, h]

theorem keyedVoice_ramp {s : State} {V : Voice} {c : Codec}
    (h : playableCodec s.vd (metadataOf s V.sample.toNat).codec = some c) (henv : s.vd.env ≠ .adsrRamp) :
    keyedVoice s V = startPlayback s (metadataOf s V.sample.toNat) c V := by
  simp only [keyedVoice, h, if_neg henv]

theorem keyedVoice_adsr {s : State} {V : Voice} {c : Codec}
    (h : playableCodec s.vd (metadataOf s V.sample.toNat).codec = some c) (henv : s.vd.env = .adsrRamp) :
    keyedVoice s V = startEnvelope (metadataOf s V.sample.toNat)
      (startPlayback s (metadataOf s V.sample.toNat) c V) := by
  simp only [keyedVoice, h, if_pos henv]

/-- Settles O23: a playable record starts playback, on an ADSR descriptor the envelope on top of it. -/
theorem keyOnStartsPlayback : Obligations.KeyOnStartsPlayback := by
  intro s sel v c hreach hconf V m hplayable started
  have hkey := keyOn_reaches hreach hconf
  refine ⟨fun henv => ?ramp, fun henv => ?adsr⟩
  case ramp => rwa [keyedVoice_ramp hplayable henv] at hkey
  case adsr => rwa [keyedVoice_adsr hplayable henv] at hkey

/-- Settles O25: without a playable codec the key-on is rejected. -/
theorem keyOnRejectsCodec : Obligations.KeyOnRejectsCodec := by
  intro s sel v hreach hconf hnone
  have hkey := keyOn_reaches hreach hconf
  rwa [keyedVoice_rejected hnone] at hkey

/-! ## Key-off (R241) -/

theorem keyOff_reaches {s : State} {sel : Byte} {v : Nat} (hreach : reaches s sel v) :
    completes (.keyOff sel) s (s.setVoice v (keyedOffVoice s.vd (s.voice v))) := by
  change writeRegister sel 4 0x00 s = _
  rw [writeRegister_reaches hreach, voiceWrite_key, if_neg (by decide)]
  rfl

theorem keyedOffVoice_inactive {V : Voice} (h : V.active = false) (vd : Variant) :
    keyedOffVoice vd V = { V with keyed := false } := by
  rw [keyedOffVoice, h, if_neg Bool.false_ne_true]

theorem keyedOffVoice_released {vd : Variant} {V : Voice} (h : V.active = true) (henv : vd.env = .adsrRamp)
    (hrate : degenerate vd V.eRR = false) :
    keyedOffVoice vd V = { V with keyed := false, stage := .release } := by
  rw [keyedOffVoice, if_pos h, if_pos ⟨henv, hrate⟩]

theorem keyedOffVoice_halted {vd : Variant} {V : Voice} (h : V.active = true)
    (hno : vd.env ≠ .adsrRamp ∨ degenerate vd V.eRR = true) :
    keyedOffVoice vd V = Voice.deactivate { V with keyed := false } := by
  have hnot : ¬(vd.env = .adsrRamp ∧ degenerate vd V.eRR = false) := by
    rw [not_and_or, Bool.not_eq_false]
    exact hno
  rw [keyedOffVoice, if_pos h, if_neg hnot]

/-- Settles O26: the three cases of a key-off. -/
theorem keyOffReleasesOrHalts : Obligations.KeyOffReleasesOrHalts := by
  intro s sel v hreach
  have hkey := keyOff_reaches hreach
  refine ⟨fun hinactive => ?inactive, fun hactive henv hrate => ?released, fun hactive hno => ?halted⟩
  case inactive => rwa [keyedOffVoice_inactive hinactive] at hkey
  case released => rwa [keyedOffVoice_released hactive henv hrate] at hkey
  case halted => rwa [keyedOffVoice_halted hactive hno] at hkey

end Sys2Proof.Machine
end

section
/-!
PROOFS. What a tick's work does not read: the global registers and the LFO and AM bytes (41_register_decoder.md R232,
R236; 45_mixer_tick.md R384). Each operation of the voices and of the sequencer commutes with a change of them.
-/
namespace Sys2Proof.Machine

/-- The voice with its LFO and AM bytes changed by `p`. -/
def Voice.mapLfo (p : Byte → Byte) (V : Voice) : Voice := { V with lfo := p V.lfo, am := p V.am }

/-- The state with its globals changed by `F` and every LFO and AM byte by `p`. -/
def State.mapUnread (F : Globals → Globals) (p : Byte → Byte) (s : State) : State :=
  { s with g := F s.g, voices := s.voices.map (Voice.mapLfo p) }

@[simp] theorem mapLfo_codec (p : Byte → Byte) (V : Voice) : (V.mapLfo p).codec = V.codec := rfl

@[simp] theorem mapLfo_stage (p : Byte → Byte) (V : Voice) : (V.mapLfo p).stage = V.stage := rfl

@[simp] theorem mapUnread_vd (F : Globals → Globals) (p : Byte → Byte) (s : State) :
    (s.mapUnread F p).vd = s.vd := rfl

@[simp] theorem mapUnread_seq (F : Globals → Globals) (p : Byte → Byte) (s : State) :
    (s.mapUnread F p).seq = s.seq := rfl

/-- A choice between two voices that agree but for LFO and AM. -/
theorem mapLfo_ite (p : Byte → Byte) (c : Prop) [Decidable c] (V W : Voice) :
    (if c then V else W).mapLfo p = if c then V.mapLfo p else W.mapLfo p :=
  apply_ite (Voice.mapLfo p) c V W

theorem mapUnread_ite (F : Globals → Globals) (p : Byte → Byte) (c : Prop) [Decidable c] (s t : State) :
    (if c then s else t).mapUnread F p = if c then s.mapUnread F p else t.mapUnread F p :=
  apply_ite (State.mapUnread F p) c s t

/-! ## The tick of a voice (R261-R312, R381) -/

section
variable (F : Globals → Globals) (p : Byte → Byte) (s : State) (V : Voice)

theorem decodeUnit_mapLfo :
    decodeUnit (s.mapUnread F p) (V.mapLfo p) = (decodeUnit s V).mapLfo p := by
  unfold decodeUnit
  rw [mapLfo_codec]
  cases V.codec <;> rfl

theorem takeSnapshot_mapLfo (vd : Variant) :
    takeSnapshot vd (V.mapLfo p) = (takeSnapshot vd V).mapLfo p := by
  unfold takeSnapshot
  rw [mapLfo_ite]
  rfl

theorem wrap_mapLfo (vd : Variant) : (V.mapLfo p).wrap vd = (V.wrap vd).mapLfo p := by
  unfold Voice.wrap restoreSnapshot
  simp only [mapLfo_codec]
  cases dialectOf vd V.codec with
  | none => rfl
  | some d =>
    simp only [mapLfo_ite]
    rfl

theorem fetchUnit_mapLfo : fetchUnit (s.mapUnread F p) (V.mapLfo p) = (fetchUnit s V).mapLfo p := by
  have hwraps : (V.mapLfo p).wraps = V.wraps := rfl
  have hhalt : (V.mapLfo p).deactivate = V.deactivate.mapLfo p := rfl
  simp only [fetchUnit, mapUnread_vd, hwraps, hhalt, wrap_mapLfo, takeSnapshot_mapLfo, decodeUnit_mapLfo, mapLfo_ite]
  rfl

theorem fetchUnits_mapLfo (n : Nat) :
    fetchUnits (s.mapUnread F p) n (V.mapLfo p) = (fetchUnits s n V).mapLfo p := by
  induction n generalizing V with
  | zero => rfl
  | succ n ih =>
    simp only [fetchUnits, fetchUnit_mapLfo, ih, mapLfo_ite]
    rfl

theorem advanceVoice_mapLfo :
    advanceVoice (s.mapUnread F p) (V.mapLfo p) = (advanceVoice s V).mapLfo p :=
  fetchUnits_mapLfo F p s { V with phase := (V.phase + V.step) % 4096 } ((V.phase + V.step) / 4096)

theorem ramp_mapLfo (vd : Variant) : ramp vd (V.mapLfo p) = (ramp vd V).mapLfo p := by
  rw [ramp_spec, ramp_spec]
  rfl

theorem decay1Step_mapLfo : decay1Step (s.mapUnread F p) (V.mapLfo p) = (decay1Step s V).mapLfo p := by
  simp only [decay1Step, mapLfo_ite]
  rfl

theorem decay2Step_mapLfo : decay2Step (s.mapUnread F p) (V.mapLfo p) = (decay2Step s V).mapLfo p := by
  simp only [decay2Step, mapLfo_ite]
  rfl

theorem releaseStep_mapLfo : releaseStep (s.mapUnread F p) (V.mapLfo p) = (releaseStep s V).mapLfo p := by
  simp only [releaseStep, mapLfo_ite]
  rfl

theorem envelope_mapLfo : envelope (s.mapUnread F p) (V.mapLfo p) = (envelope s V).mapLfo p := by
  unfold envelope
  rw [mapLfo_stage]
  cases V.stage with
  | attack => rfl
  | decay1 => exact decay1Step_mapLfo F p s V
  | decay2 => exact decay2Step_mapLfo F p s V
  | release => exact releaseStep_mapLfo F p s V
  | idle => rfl

theorem shape_mapLfo : shape (s.mapUnread F p) (V.mapLfo p) = (shape s V).mapLfo p := by
  unfold shape
  rw [mapUnread_vd]
  cases s.vd.env with
  | ramp => exact ramp_mapLfo p V s.vd
  | adsrRamp => exact (congrArg _ (ramp_mapLfo p V s.vd)).trans (envelope_mapLfo F p s _)
  | none => rfl

theorem voiceOutput_mapLfo (vd : Variant) (x : Int) :
    voiceOutput vd (V.mapLfo p) x = (voiceOutput vd V x).mapLfo p := by
  simp only [voiceOutput, mapLfo_ite]
  rfl

theorem voiceTick_mapLfo : voiceTick (s.mapUnread F p) (V.mapLfo p) = (voiceTick s V).mapLfo p := by
  simp only [voiceTick, mapUnread_vd, advanceVoice_mapLfo, shape_mapLfo, voiceOutput_mapLfo, mapLfo_ite]
  rfl

theorem tickVoices_mapUnread : tickVoices (s.mapUnread F p) = (tickVoices s).mapUnread F p := by
  have hvoice : ∀ V : Voice, (if (V.mapLfo p).active then voiceTick (s.mapUnread F p) (V.mapLfo p)
      else V.mapLfo p) = (if V.active then voiceTick s V else V).mapLfo p := fun V => by
    rw [voiceTick_mapLfo, mapLfo_ite]
    rfl
  simp only [tickVoices, State.mapUnread, List.map_map]
  congr 1
  exact List.map_congr_left fun V _ => hvoice V

end

/-! ## The sequencer (R331-R358)

A byte of 0 stays 0, so that the power-on voice that stands for an absent one is changed to itself. -/

section
variable (F : Globals → Globals) {p : Byte → Byte} (hp : p 0 = 0) (s : State)

theorem mapUnread_setVoice (v : Nat) (V : Voice) :
    (s.setVoice v V).mapUnread F p = (s.mapUnread F p).setVoice v (V.mapLfo p) := by
  simp only [State.setVoice, State.mapUnread, List.map_set]

theorem mapUnread_setV0 (V : Voice) :
    (s.setV0 V).mapUnread F p = (s.mapUnread F p).setV0 (V.mapLfo p) :=
  mapUnread_setVoice F s 0 V

include hp

theorem voice_mapUnread (v : Nat) : (s.mapUnread F p).voice v = (s.voice v).mapLfo p := by
  have hpowerOn : Voice.powerOn.mapLfo p = Voice.powerOn := by
    simp only [Voice.mapLfo, Voice.powerOn, hp]
  unfold State.voice State.mapUnread
  simp only
  conv_lhs => rw [← hpowerOn]
  exact List.getD_map ..

theorem v0_mapUnread : (s.mapUnread F p).v0 = s.v0.mapLfo p := voice_mapUnread F hp s 0

theorem seqStart_mapUnread : seqStart (s.mapUnread F p) = (seqStart s).mapUnread F p := by
  unfold seqStart
  rw [v0_mapUnread F hp, mapUnread_setV0]
  rfl

theorem seqStop_mapUnread : seqStop (s.mapUnread F p) = (seqStop s).mapUnread F p := by
  unfold seqStop
  rw [v0_mapUnread F hp, mapUnread_setV0]
  rfl

theorem seqWrite_mapUnread (sub d : Byte) :
    seqWrite sub d (s.mapUnread F p) = (seqWrite sub d s).mapUnread F p := by
  simp only [seqWrite, seqStart_mapUnread F hp, seqStop_mapUnread F hp, mapUnread_ite]
  rfl

theorem seqNibble_mapUnread (x : BitVec 4) : seqNibble x (s.mapUnread F p) = (seqNibble x s).mapUnread F p := by
  unfold seqNibble
  rw [v0_mapUnread F hp, mapUnread_setV0]
  rfl

theorem repeatError_mapUnread : repeatError (s.mapUnread F p) = (repeatError s).mapUnread F p := by
  unfold repeatError
  rw [v0_mapUnread F hp, mapUnread_setV0]
  rfl

theorem pointerError_mapUnread : pointerError (s.mapUnread F p) = (pointerError s).mapUnread F p := by
  unfold pointerError
  rw [v0_mapUnread F hp, mapUnread_setV0]
  rfl

theorem headerAction_mapUnread (addr : Nat) (h : Header) :
    headerAction addr h (s.mapUnread F p) = (headerAction addr h s).mapUnread F p := by
  cases h with
  | stop | silence a | fixed a | counted a => rfl
  | loopBack a =>
    simp only [headerAction, hdrRepeat, repeatError_mapUnread F hp, mapUnread_ite]
    rfl

theorem readHeader_mapUnread (h : Header) :
    readHeader h (s.mapUnread F p) = (readHeader h s).mapUnread F p :=
  headerAction_mapUnread F hp (rdNext s) s.seq.cursor h

theorem addr2Act_mapUnread : addr2Act (s.mapUnread F p) = (addr2Act s).mapUnread F p := by
  have herror : pointerError (rdNext (s.mapUnread F p)) = (pointerError (rdNext s)).mapUnread F p :=
    pointerError_mapUnread F hp (rdNext s)
  simp only [addr2Act, herror, mapUnread_ite]
  rfl

theorem nibbleMSNAct_mapUnread : nibbleMSNAct (s.mapUnread F p) = (nibbleMSNAct s).mapUnread F p := by
  have hnibble := seqNibble_mapUnread F hp
    { rdNext s with seq := { (rdNext s).seq with latch := rdByte s } } ((rdByte s).extractLsb' 4 4)
  exact congrArg (fun t => req (if (countNibble t).seq.nibLeft = 0 then .blockHeader else .nibbleLSN)
    ((countNibble t).seq.period - 1) (countNibble t)) hnibble

theorem nibbleLSNAct_mapUnread : nibbleLSNAct (s.mapUnread F p) = (nibbleLSNAct s).mapUnread F p := by
  have hnibble := seqNibble_mapUnread F hp s (s.seq.latch.extractLsb' 0 4)
  exact congrArg (fun t => goto (if (countNibble t).seq.nibLeft = 0 then .blockHeader else .nibbleMSN)
    ((countNibble t).seq.period - 1) (countNibble t)) hnibble

theorem seqAct_mapUnread : seqAct (s.mapUnread F p) = (seqAct s).mapUnread F p := by
  unfold seqAct
  rw [mapUnread_seq]
  cases s.seq.st with
  | idle | start | addr1 | dummy1 | dummy2 | nibbleCount | dropDRQ => rfl
  | addr2 => exact addr2Act_mapUnread F hp s
  | blockHeader => exact readHeader_mapUnread F hp s (decodeHeader (rdByte s))
  | nibbleMSN => exact nibbleMSNAct_mapUnread F hp s
  | nibbleLSN => exact nibbleLSNAct_mapUnread F hp s

theorem seqAdvance_mapUnread : seqAdvance (s.mapUnread F p) = (seqAdvance s).mapUnread F p := by
  simp only [seqAdvance, seqAct_mapUnread F hp, mapUnread_ite]
  rfl

theorem seqPublish_mapUnread : seqPublish (s.mapUnread F p) = (seqPublish s).mapUnread F p := by
  have hv0 := v0_mapUnread F hp s
  have hout : seqOutput (s.mapUnread F p) = seqOutput s := seqOutput_congr rfl rfl (by rw [hv0]; rfl)
  unfold seqPublish
  rw [hv0, hout, mapUnread_setV0]
  rfl

theorem seqTick_mapUnread : seqTick (s.mapUnread F p) = (seqTick s).mapUnread F p := by
  unfold seqTick
  rw [seqAdvance_mapUnread F hp, seqPublish_mapUnread F hp]

end

/-! ## The tick as a whole (R380) -/

/-- What a tick does before it mixes (R380). -/
def tickWork (s : State) : State := if isBlock s.vd then seqTick s else tickVoices s

theorem ticked_eq (s : State) : ticked s = mix (tickWork s) := rfl

/-- A tick's work reads neither the globals nor the LFO and AM bytes. -/
theorem tickWork_mapUnread (F : Globals → Globals) {p : Byte → Byte} (hp : p 0 = 0) (s : State) :
    tickWork (s.mapUnread F p) = (tickWork s).mapUnread F p := by
  simp only [tickWork, seqTick_mapUnread F hp, tickVoices_mapUnread, mapUnread_ite]
  rfl

end Sys2Proof.Machine
end

section
/-! PROOFS. The master enable (41_register_decoder.md R236; 45_mixer_tick.md R384). -/
namespace Sys2Proof.Machine

/-- The globals with the master enable off. -/
def Globals.disabled (g : Globals) : Globals := { g with enable := false }

/-- The state with the master enable off. -/
def State.disabled (s : State) : State := { s with g := s.g.disabled }

theorem disabled_eq_mapUnread (s : State) : s.disabled = s.mapUnread Globals.disabled id :=
  congrArg (fun voices => { s.disabled with voices := voices }) (List.map_id s.voices).symm

theorem tickWork_disabled (s : State) : tickWork s.disabled = (tickWork s).disabled := by
  rw [disabled_eq_mapUnread, disabled_eq_mapUnread, tickWork_mapUnread _ rfl]

/-- With the master enable off the mixer makes the frame zero and nothing else different (R384). -/
theorem mix_disabled (s : State) :
    mix s.disabled = { mix s with g := { (mix s).g with enable := false, frameL := 0, frameR := 0 } } := by
  simp [mix, State.disabled, Globals.disabled]

/-- A TICK completes on a live, configured core (R504, R505). -/
theorem tick_next {s t : State} :
    exec .tick s = .next t ↔
      s.g.fatal = false ∧ s.g.configured = true ∧ t = { ticked s with result := .void } := by
  change execTick s = .next t ↔ _
  rw [execTick, unlessFatal_next, ifConfigured_next, returns_next]

/-- Settles O49: the work before the mixer is the same, and the mixer mutes the frame. -/
theorem masterEnableOnlyMutes : Obligations.MasterEnableOnlyMutes := by
  intro s t _ h
  obtain ⟨hlive, hconf, rfl⟩ := tick_next.mp h
  refine tick_next.mpr ⟨hlive, hconf, ?_⟩
  have hmuted : ticked s.disabled
      = { ticked s with g := { (ticked s).g with enable := false, frameL := 0, frameR := 0 } } := by
    rw [ticked_eq, tickWork_disabled, mix_disabled, ticked_eq]
  exact congrArg (fun u : State => { u with result := .void }) hmuted.symm

end Sys2Proof.Machine
end

section
/-!
PROOFS. The LFO and AM bytes (41_register_decoder.md R232): every instruction has the same outcome with them and
without them, but for the bytes themselves.
-/
namespace Sys2Proof.Machine

/-! ## Outcomes that differ only in the bytes -/

/-- The outcome without the LFO and AM bytes of its state. -/
def eraseLfo : Out → Out
  | .next t => .next t.withoutLfo
  | .fault f => .fault f
  | .refused r => .refused r

/-- The two outcomes differ at most in LFO and AM bytes. -/
def sameButLfo (o o' : Out) : Prop := eraseLfo o = eraseLfo o'

theorem eraseLfo_eq_next {o : Out} {u : State} : eraseLfo o = .next u ↔ ∃ t, o = .next t ∧ t.withoutLfo = u := by
  cases o <;> simp [eraseLfo]

theorem eraseLfo_eq_fault {o : Out} {f : Fault} : eraseLfo o = .fault f ↔ o = .fault f := by
  cases o <;> simp [eraseLfo]

theorem eraseLfo_eq_refused {o : Out} {r : Refusal} : eraseLfo o = .refused r ↔ o = .refused r := by
  cases o <;> simp [eraseLfo]

@[simp] theorem withoutLfo_vd (s : State) : s.withoutLfo.vd = s.vd := rfl

@[simp] theorem withoutLfo_g (s : State) : s.withoutLfo.g = s.g := rfl

@[simp] theorem withoutLfo_withoutLfo (s : State) : s.withoutLfo.withoutLfo = s.withoutLfo := by
  simp only [State.withoutLfo, List.map_map]
  rfl

/-- What is erased already differs from its source only in the bytes. -/
theorem withoutLfo_of_eq {t u : State} (h : t = u.withoutLfo) : t.withoutLfo = u.withoutLfo := by
  rw [h, withoutLfo_withoutLfo]

theorem returns_sameButLfo {t u : State} (h : t.withoutLfo = u.withoutLfo) (r : Result) :
    sameButLfo (t.returns r) (u.returns r) :=
  congrArg (fun w : State => (Host.Outcome.next { w with result := r } : Out)) h

theorem unlessFatal_sameButLfo {s : State} {k k' : Out} (h : sameButLfo k k') :
    sameButLfo (unlessFatal s.withoutLfo k) (unlessFatal s k') := by
  unfold unlessFatal
  rw [withoutLfo_g]
  split
  · rfl
  · exact h

theorem ifConfigured_sameButLfo {s : State} {k k' : Out} (h : sameButLfo k k') :
    sameButLfo (ifConfigured s.withoutLfo k) (ifConfigured s k') := by
  unfold ifConfigured
  rw [withoutLfo_g]
  split
  · exact h
  · rfl

/-! ## Register writes -/

theorem voice_withoutLfo (s : State) (v : Nat) : s.withoutLfo.voice v = (s.voice v).withoutLfo :=
  voice_mapUnread id (p := fun _ => 0) rfl s v

theorem withoutLfo_setVoice (s : State) (v : Nat) (V : Voice) :
    (s.setVoice v V).withoutLfo = s.withoutLfo.setVoice v V.withoutLfo :=
  mapUnread_setVoice id (p := fun _ => 0) s v V

theorem putVoice_sameButLfo {W W' : Voice} (s : State) (v : Nat) (h : W.withoutLfo = W'.withoutLfo) :
    sameButLfo (putVoice s.withoutLfo v W) (putVoice s v W') := by
  apply returns_sameButLfo
  rw [withoutLfo_setVoice, withoutLfo_setVoice, withoutLfo_withoutLfo, h]

theorem keyedVoice_withoutLfo (s : State) (V : Voice) :
    keyedVoice s.withoutLfo V.withoutLfo = (keyedVoice s V).withoutLfo := by
  have hrecord : metadataOf s.withoutLfo V.withoutLfo.sample.toNat = metadataOf s V.sample.toNat := rfl
  simp only [keyedVoice, hrecord, withoutLfo_vd]
  cases playableCodec s.vd (metadataOf s V.sample.toNat).codec with
  | none => rfl
  | some c =>
    by_cases henv : s.vd.env = .adsrRamp
    · simp only [if_pos henv]
      rfl
    · simp only [if_neg henv]
      rfl

theorem keyedOffVoice_withoutLfo (vd : Variant) (V : Voice) :
    keyedOffVoice vd V.withoutLfo = (keyedOffVoice vd V).withoutLfo := by
  rw [show Voice.withoutLfo = Voice.mapLfo (fun _ => 0) from rfl]
  simp only [keyedOffVoice, mapLfo_ite]
  rfl

/-- A write of any register, the LFO and AM registers too, reads no LFO or AM byte. -/
theorem voiceWrite_sameButLfo (v : Nat) (sub d : Byte) (s : State) :
    sameButLfo (voiceWrite v sub d s.withoutLfo) (voiceWrite v sub d s) := by
  have hV := voice_withoutLfo s v
  rcases subAddress_cases sub with rfl | rfl | rfl | rfl | rfl | rfl | rfl | rfl | h
  · rw [voiceWrite_pan, voiceWrite_pan, hV]
    exact putVoice_sameButLfo s v (by rfl)
  · rw [voiceWrite_smpl, voiceWrite_smpl, hV]
    exact putVoice_sameButLfo s v (by rfl)
  · rw [voiceWrite_pitchL_guarded, voiceWrite_pitchL_guarded, hV]
    exact ifConfigured_sameButLfo (putVoice_sameButLfo s v (by rfl))
  · rw [voiceWrite_pitchH_guarded, voiceWrite_pitchH_guarded, hV]
    exact ifConfigured_sameButLfo (putVoice_sameButLfo s v (by rfl))
  · rw [voiceWrite_key, voiceWrite_key, hV]
    split
    · rw [keyedVoice_withoutLfo]
      exact ifConfigured_sameButLfo (putVoice_sameButLfo s v (by rfl))
    · rw [keyedOffVoice_withoutLfo]
      exact putVoice_sameButLfo s v (by rfl)
  · rw [voiceWrite_tl, voiceWrite_tl, hV]
    exact putVoice_sameButLfo s v (by rfl)
  · rw [voiceWrite_lfo, voiceWrite_lfo, hV]
    exact putVoice_sameButLfo s v (by rfl)
  · rw [voiceWrite_am, voiceWrite_am, hV]
    exact putVoice_sameButLfo s v (by rfl)
  · rw [voiceWrite_reserved h, voiceWrite_reserved h]
    exact returns_sameButLfo (withoutLfo_withoutLfo s) .void

theorem writeRegister_sameButLfo (sel sub d : Byte) (s : State) :
    sameButLfo (writeRegister sel sub d s.withoutLfo) (writeRegister sel sub d s) := by
  unfold writeRegister
  apply unlessFatal_sameButLfo
  rw [withoutLfo_vd]
  cases voiceOf s.vd sel with
  | none => exact returns_sameButLfo (withoutLfo_withoutLfo s) .void
  | some v =>
    simp only
    split
    · exact returns_sameButLfo (withoutLfo_of_eq (seqWrite_mapUnread id (p := fun _ => 0) rfl s sub d)) .void
    · exact voiceWrite_sameButLfo v sub d s

theorem writeGlobalRegister_sameButLfo (reg d : Byte) (s : State) :
    sameButLfo (writeGlobalRegister reg d s.withoutLfo) (writeGlobalRegister reg d s) := by
  unfold writeGlobalRegister
  apply unlessFatal_sameButLfo
  split
  · exact returns_sameButLfo (withoutLfo_of_eq (by rfl)) .void
  · split
    · exact returns_sameButLfo (withoutLfo_of_eq (by rfl)) .void
    · exact returns_sameButLfo (withoutLfo_withoutLfo s) .void

/-! ## The other host commands -/

theorem mixSum_withoutLfo {out : Voice → Int} (h : ∀ V : Voice, out V.withoutLfo = out V)
    (voices : List Voice) : mixSum (voices.map Voice.withoutLfo) out = mixSum voices out := by
  have hactive : ((fun V : Voice => V.active) ∘ Voice.withoutLfo) = fun V => V.active := rfl
  have hout : ((fun V => clamp16 (out V)) ∘ Voice.withoutLfo) = fun V => clamp16 (out V) :=
    funext fun V => congrArg clamp16 (h V)
  rw [mixSum, List.filter_map, List.map_map, hactive, hout, mixSum]

theorem mix_withoutLfo (s : State) : mix s.withoutLfo = (mix s).withoutLfo := by
  have hleft := mixSum_withoutLfo (out := fun V => V.outL) (fun _ => rfl) s.voices
  have hright := mixSum_withoutLfo (out := fun V => V.outR) (fun _ => rfl) s.voices
  simp only [mix, State.withoutLfo, hleft, hright]

theorem ticked_withoutLfo (s : State) : ticked s.withoutLfo = (ticked s).withoutLfo := by
  rw [ticked_eq, ticked_eq, ← mix_withoutLfo]
  exact congrArg mix (tickWork_mapUnread id (p := fun _ => 0) rfl s)

theorem execTick_sameButLfo (s : State) : sameButLfo (execTick s.withoutLfo) (execTick s) :=
  unlessFatal_sameButLfo (ifConfigured_sameButLfo
    (returns_sameButLfo (withoutLfo_of_eq (ticked_withoutLfo s)) .void))

theorem execConfigure_sameButLfo (clock : U32) (s : State) :
    sameButLfo (execConfigure clock s.withoutLfo) (execConfigure clock s) := by
  unfold execConfigure
  apply unlessFatal_sameButLfo
  rw [withoutLfo_vd]
  split
  · exact returns_sameButLfo (withoutLfo_of_eq (by rfl)) _
  · exact returns_sameButLfo (withoutLfo_of_eq (by rfl)) _

theorem execLoadRom_sameButLfo (total offset length : U32) (data : List Byte) (s : State) :
    sameButLfo (execLoadRom total offset length data s.withoutLfo) (execLoadRom total offset length data s) :=
  unlessFatal_sameButLfo (returns_sameButLfo (withoutLfo_of_eq (by rfl)) .void)

/-- RESET overwrites every voice (R405). -/
theorem execReset_sameButLfo (s : State) : sameButLfo (execReset s.withoutLfo) (execReset s) :=
  unlessFatal_sameButLfo (returns_sameButLfo (congrArg State.withoutLfo (a₂ := resetCore s) rfl) .void)

theorem read_sameButLfo (r : Result) (s : State) :
    sameButLfo (unlessFatal s.withoutLfo (s.withoutLfo.returns r)) (unlessFatal s (s.returns r)) :=
  unlessFatal_sameButLfo (returns_sameButLfo (withoutLfo_withoutLfo s) r)

theorem statusOf_withoutLfo (sel : Byte) (s : State) : statusOf s.withoutLfo sel = statusOf s sel := by
  simp only [statusOf, withoutLfo_vd, voice_withoutLfo]
  rfl

theorem execReadStatus_sameButLfo (sel : Byte) (s : State) :
    sameButLfo (execReadStatus sel s.withoutLfo) (execReadStatus sel s) := by
  unfold execReadStatus
  rw [statusOf_withoutLfo]
  exact read_sameButLfo _ s

/-! ## Block headers, and all instructions -/

theorem runHeader_sameButLfo (h : Header) (s : State) :
    sameButLfo (runHeader h s.withoutLfo) (runHeader h s) := by
  unfold runHeader
  rw [withoutLfo_vd]
  split
  · exact congrArg Host.Outcome.next (withoutLfo_of_eq (readHeader_mapUnread id (p := fun _ => 0) rfl s h))
  · rfl

/-- Every instruction has the same outcome with the LFO and AM bytes and without them (R232). -/
theorem exec_sameButLfo (i : Instr) (s : State) : sameButLfo (exec i s.withoutLfo) (exec i s) := by
  cases i with
  | write sel sub d => exact writeRegister_sameButLfo sel sub d s
  | writeGlobal reg d => exact writeGlobalRegister_sameButLfo reg d s
  | configure clock => exact execConfigure_sameButLfo clock s
  | loadRom total offset length data => exact execLoadRom_sameButLfo total offset length data s
  | tick => exact execTick_sameButLfo s
  | readFrame => exact read_sameButLfo _ s
  | reset => exact execReset_sameButLfo s
  | readStatus sel => exact execReadStatus_sameButLfo sel s
  | pan | smpl | pitchL | pitchH | keyOn | keyOff | tl | lfo | am | seqIndex | seqStart | seqStop =>
    exact writeRegister_sameButLfo _ _ _ s
  | enable | bank => exact writeGlobalRegister_sameButLfo _ _ s
  | hdrEnd | hdrSilence | hdrFixed | hdrCounted | hdrRepeat => exact runHeader_sameButLfo _ s

/-- Settles O21: the three kinds of outcome, each the same up to the bytes. -/
theorem lfoAmHaveNoEffect : Obligations.LfoAmHaveNoEffect := by
  intro s i
  have hsame : eraseLfo (exec i s.withoutLfo) = eraseLfo (exec i s) := exec_sameButLfo i s
  refine ⟨fun t ht => ?next, fun f hf => ?fault, fun r hr => ?refused⟩
  case next =>
    rw [ht] at hsame
    exact eraseLfo_eq_next.mp hsame
  case fault =>
    rw [hf] at hsame
    exact eraseLfo_eq_fault.mp hsame
  case refused =>
    rw [hr] at hsame
    exact eraseLfo_eq_refused.mp hsame

end Sys2Proof.Machine
end

section
/-! PROOFS. The voice sample (42_decode_engine.md R285). -/
namespace Sys2Proof.Machine

/-- A fraction of a difference lies between 0 and the difference. -/
theorem fraction_between (d : Int) {f : Nat} (hf : f < 4096) :
    min 0 d ≤ d * f / 4096 ∧ d * f / 4096 ≤ max 0 d := by
  have h0 : (0 : Int) ≤ f := Int.natCast_nonneg f
  have h1 : (f : Int) ≤ 4096 := by omega
  rcases le_total 0 d with hd | hd
  · have hlo : 0 ≤ d * f := mul_nonneg hd h0
    have hhi : d * f ≤ d * 4096 := mul_le_mul_of_nonneg_left h1 hd
    omega
  · have hlo : d * 4096 ≤ d * f := mul_le_mul_of_nonpos_left h1 hd
    have hhi : d * f ≤ 0 := mul_nonpos_of_nonpos_of_nonneg hd h0
    omega

theorem voiceSample_whole {V : Voice} (h : V.step % 4096 = 0) : voiceSample V = V.cur :=
  if_pos h

theorem voiceSample_interpolated {V : Voice} (h : V.step % 4096 ≠ 0) :
    voiceSample V = V.prev + (V.cur - V.prev) * V.phase / 4096 :=
  if_neg h

theorem voiceSample_between {V : Voice} (hf : V.phase < 4096) :
    min V.prev V.cur ≤ voiceSample V ∧ voiceSample V ≤ max V.prev V.cur := by
  by_cases h : V.step % 4096 = 0
  · rw [voiceSample_whole h]
    exact ⟨min_le_right .., le_max_right ..⟩
  · have hbetween := fraction_between (V.cur - V.prev) hf
    rw [voiceSample_interpolated h]
    omega

/-- Settles O33: the two cases of the formula, each between the two samples. -/
theorem interpolationStaysBetween : Obligations.InterpolationStaysBetween := by
  intro V hf
  exact ⟨voiceSample_whole, voiceSample_interpolated, voiceSample_between hf⟩

end Sys2Proof.Machine
end

section
/-! PROOFS. A fetch, with its snapshot (42_decode_engine.md R264, R265, R281). -/
namespace Sys2Proof.Machine

/-- A voice wraps at its end when it loops, is still keyed and has a unit in its loop (R264, R265). -/
theorem wraps_iff (V : Voice) :
    V.wraps = true ↔ V.loopEn = true ∧ V.keyed = true ∧ V.loopStart < V.endPos := by
  simp only [Voice.wraps, Bool.and_eq_true, decide_eq_true_eq, and_assoc]

theorem wraps_eq_false {V : Voice} (h : ¬ (V.loopEn = true ∧ V.keyed = true ∧ V.loopStart < V.endPos)) :
    V.wraps = false :=
  Bool.eq_false_iff.mpr (mt (wraps_iff V).mp h)

/-! ## The three cases of a fetch -/

theorem fetchUnit_before_end {s : State} {V : Voice} (h : V.pos < V.endPos) :
    fetchUnit s V = decodeUnit s (takeSnapshot s.vd V) :=
  if_neg (Nat.not_le.mpr h)

theorem fetchUnit_wraps {s : State} {V : Voice} (h : V.endPos ≤ V.pos) (hw : V.wraps = true) :
    fetchUnit s V = decodeUnit s (takeSnapshot s.vd (V.wrap s.vd)) :=
  (if_pos h).trans (if_pos hw)

theorem fetchUnit_halts {s : State} {V : Voice} (h : V.endPos ≤ V.pos) (hw : V.wraps = false) :
    fetchUnit s V = V.deactivate :=
  (if_pos h).trans (if_neg (Bool.eq_false_iff.mp hw))

/-! ## The snapshot -/

/-- Whether the next decode is the first of the loop-start unit of a looping ADPCM voice (R281). -/
def Voice.firstAtLoopStart (vd : Variant) (V : Voice) : Prop :=
  dialectOf vd V.codec ≠ none ∧ V.loopEn = true ∧ V.pos = V.loopStart ∧ V.snapValid = false

theorem takeSnapshot_first {vd : Variant} {V : Voice} (h : V.firstAtLoopStart vd) :
    takeSnapshot vd V = { V with snapAcc := V.acc, snapIdx := V.sidx, snapValid := true } := by
  obtain ⟨hd, hloop, hpos, hvalid⟩ := h
  refine if_pos ?_
  simp [Option.isSome_iff_ne_none.mpr hd, hloop, hpos, hvalid]

theorem takeSnapshot_not_first {vd : Variant} {V : Voice} (h : ¬ V.firstAtLoopStart vd) :
    takeSnapshot vd V = V := by
  refine if_neg fun hc => h ?_
  simp only [Bool.and_eq_true, Bool.not_eq_true', beq_iff_eq, Option.isSome_iff_ne_none] at hc
  obtain ⟨⟨⟨hd, hloop⟩, hpos⟩, hvalid⟩ := hc
  exact ⟨hd, hloop, hpos, hvalid⟩

theorem not_firstAtLoopStart_of_linear {vd : Variant} {V : Voice} (hd : dialectOf vd V.codec = none) :
    ¬ V.firstAtLoopStart vd :=
  fun ⟨hadpcm, _⟩ => hadpcm hd

theorem not_firstAtLoopStart_of_valid {vd : Variant} {V : Voice} (hv : V.snapValid = true) :
    ¬ V.firstAtLoopStart vd :=
  fun ⟨_, _, _, hinvalid⟩ => Bool.false_ne_true (hinvalid.symm.trans hv)

/-! ## The wrap -/

theorem wrap_linear {vd : Variant} {V : Voice} (hd : dialectOf vd V.codec = none) :
    V.wrap vd = { V with pos := V.loopStart } := by
  simp only [Voice.wrap, restoreSnapshot, hd]

/-- A wrap restores a valid snapshot in a dialect with LOOP_RESTORE (R281). -/
theorem wrap_restores {vd : Variant} {V : Voice} {d : Dialect} (hd : dialectOf vd V.codec = some d)
    (hr : d.loopRestore = true) (hv : V.snapValid = true) :
    V.wrap vd = { V with pos := V.loopStart, acc := V.snapAcc, sidx := V.snapIdx } := by
  simp [Voice.wrap, restoreSnapshot, hd, hr, hv]

theorem wrap_carries_over {vd : Variant} {V : Voice} {d : Dialect} (hd : dialectOf vd V.codec = some d)
    (h : d.loopRestore = false ∨ V.snapValid = false) : V.wrap vd = { V with pos := V.loopStart } := by
  rcases h with h | h <;> simp [Voice.wrap, restoreSnapshot, hd, h]

/-- A fetch that wraps to a voice with no snapshot to take decodes that voice (R264, R281). -/
theorem fetchUnit_of_wrap_eq {s : State} {V W : Voice} (h : V.endPos ≤ V.pos) (hw : V.wraps = true)
    (hW : V.wrap s.vd = W) (hnot : ¬ W.firstAtLoopStart s.vd) : fetchUnit s V = decodeUnit s W := by
  rw [fetchUnit_wraps h hw, hW, takeSnapshot_not_first hnot]

/-- Settles O30: the three cases of a fetch; at a wrap by what is restored and whether a snapshot is taken. -/
theorem fetchAtEndWrapsOrHalts : Obligations.FetchAtEndWrapsOrHalts := by
  intro s V loops snapshot first
  refine ⟨fun hpos => ?before, fun hend hno => ?halt, fun hend hloops hd => ?linear,
    fun d hend hloops hd => ⟨fun hv hr => ?restored, fun hv hr => ?carried, fun hv => ?taken⟩⟩
  case before =>
    rw [fetchUnit_before_end hpos]
    by_cases hfirst : first
    · rw [if_pos hfirst, takeSnapshot_first hfirst]
    · rw [if_neg hfirst, takeSnapshot_not_first hfirst]
  case halt => exact fetchUnit_halts hend (wraps_eq_false hno)
  case linear =>
    exact fetchUnit_of_wrap_eq hend ((wraps_iff V).mpr hloops) (wrap_linear hd)
      (not_firstAtLoopStart_of_linear hd)
  case restored =>
    exact fetchUnit_of_wrap_eq hend ((wraps_iff V).mpr hloops) (wrap_restores hd hr hv)
      (not_firstAtLoopStart_of_valid hv)
  case carried =>
    exact fetchUnit_of_wrap_eq hend ((wraps_iff V).mpr hloops) (wrap_carries_over hd (.inl hr))
      (not_firstAtLoopStart_of_valid hv)
  case taken =>
    have hadpcm : dialectOf s.vd V.codec ≠ none := by simp [hd]
    have ⟨hloopEn, _⟩ := hloops
    have hfirst : Voice.firstAtLoopStart s.vd { V with pos := V.loopStart } := ⟨hadpcm, hloopEn, rfl, hv⟩
    rw [fetchUnit_wraps hend ((wraps_iff V).mpr hloops), wrap_carries_over hd (.inr hv),
      takeSnapshot_first hfirst]

end Sys2Proof.Machine
end

section
/-! PROOFS. The fetches of a tick (42_decode_engine.md R261, R262, R264, R265). -/
namespace Sys2Proof.Machine

theorem fetchUnits_succ {s : State} {V : Voice} (h : (fetchUnit s V).active = true) (n : Nat) :
    fetchUnits s (n + 1) V = fetchUnits s n (fetchUnit s V) :=
  if_pos h

theorem fetchUnits_succ_ended {s : State} {V : Voice} (h : (fetchUnit s V).active = false) (n : Nat) :
    fetchUnits s (n + 1) V = fetchUnit s V :=
  if_neg (Bool.eq_false_iff.mp h)

/-- One of a tick's fetches, skipped once the voice has ended (R261). -/
def fetchIfActive (s : State) (V : Voice) : Voice := if V.active then fetchUnit s V else V

theorem iterate_fetchIfActive_ended {s : State} {V : Voice} (h : V.active = false) (n : Nat) :
    (fetchIfActive s)^[n] V = V := by
  have hfixed : fetchIfActive s V = V := if_neg (Bool.eq_false_iff.mp h)
  exact Function.iterate_fixed hfixed n

/-- A voice still active is fetched as often as the count says, but not after its end (R261). -/
theorem fetchUnits_eq_iterate {s : State} {V : Voice} (h : V.active = true) (n : Nat) :
    fetchUnits s n V = (fetchIfActive s)^[n] V := by
  induction n generalizing V with
  | zero => rfl
  | succ n ih =>
    have hfetch : fetchIfActive s V = fetchUnit s V := if_pos h
    rw [Function.iterate_succ_apply, hfetch]
    cases hnext : (fetchUnit s V).active with
    | true => rw [fetchUnits_succ hnext, ih hnext]
    | false => rw [fetchUnits_succ_ended hnext, iterate_fetchIfActive_ended hnext]

theorem fetchUnits_phase (s : State) (n : Nat) (V : Voice) : (fetchUnits s n V).phase = V.phase :=
  fetchUnits_induct (P := fun W => W.phase = V.phase) (fun W h => (fetchUnit_phase s W).trans h) n rfl

@[simp] theorem fetchUnit_wraps_eq (s : State) (V : Voice) : (fetchUnit s V).wraps = V.wraps := by
  rcases fetchUnit_shell s V with h | h <;> rw [h] <;> rfl

@[simp] theorem decodeUnit_active (s : State) (V : Voice) : (decodeUnit s V).active = V.active := by
  rw [decodeUnit_spec]

@[simp] theorem takeSnapshot_active (vd : Variant) (V : Voice) : (takeSnapshot vd V).active = V.active := by
  rw [takeSnapshot_shell vd V]

@[simp] theorem wrap_active (vd : Variant) (V : Voice) : (V.wrap vd).active = V.active := by
  rw [wrap_shell vd V]

/-- The cursor after a fetch of `V` at `p` that decodes a unit (R264, R265). -/
def nextPos (V : Voice) (p : Nat) : Nat := if V.endPos ≤ p then V.loopStart + 1 else p + 1

/-- A fetch of a looping voice, or before the end, moves the cursor and keeps the voice active (R264). -/
theorem fetchUnit_goes_on {s : State} {V : Voice} (h : V.wraps = true ∨ V.pos < V.endPos) :
    (fetchUnit s V).active = V.active ∧ (fetchUnit s V).pos = nextPos V V.pos := by
  by_cases hend : V.endPos ≤ V.pos
  · have hw : V.wraps = true := h.resolve_right (Nat.not_lt.mpr hend)
    rw [fetchUnit_wraps hend hw]
    simp [nextPos, hend]
  · rw [fetchUnit_before_end (Nat.not_le.mp hend)]
    simp [nextPos, hend]

theorem nextPos_fetchUnit (s : State) (V : Voice) : nextPos (fetchUnit s V) = nextPos V := by
  unfold nextPos
  rw [fetchUnit_endPos, fetchUnit_loopStart]

/-- A looping voice never ends of itself (R265). -/
theorem fetchUnits_looping {s : State} {V : Voice} (ha : V.active = true) (hw : V.wraps = true) (n : Nat) :
    (fetchUnits s n V).active = true ∧ (fetchUnits s n V).pos = (nextPos V)^[n] V.pos := by
  induction n generalizing V with
  | zero => exact ⟨ha, rfl⟩
  | succ n ih =>
    obtain ⟨hactive, hpos⟩ := fetchUnit_goes_on (s := s) (.inl hw)
    rw [fetchUnits_succ (hactive.trans ha), Function.iterate_succ_apply, ← hpos, ← nextPos_fetchUnit s V]
    exact ih (hactive.trans ha) ((fetchUnit_wraps_eq s V).trans hw)

/-- The first fetch at or beyond the end of a voice that does not loop halts it there (R264). -/
theorem fetchUnits_at_end {s : State} {V : Voice} (ha : V.active = true) (hw : V.wraps = false)
    (hend : V.endPos ≤ V.pos) (n : Nat) :
    ((fetchUnits s n V).active = true ↔ n = 0) ∧ (fetchUnits s n V).pos = V.pos := by
  cases n with
  | zero => exact ⟨iff_of_true ha rfl, rfl⟩
  | succ n =>
    have hhalt : fetchUnit s V = V.deactivate := fetchUnit_halts hend hw
    rw [fetchUnits_succ_ended (by rw [hhalt]; rfl), hhalt]
    exact ⟨iff_of_false Bool.false_ne_true (Nat.succ_ne_zero n), rfl⟩

/-- A voice that does not loop plays the units left up to its end (R264). -/
theorem fetchUnits_to_end {s : State} {V : Voice} (ha : V.active = true) (hw : V.wraps = false)
    (hle : V.pos ≤ V.endPos) (n : Nat) :
    ((fetchUnits s n V).active = true ↔ V.pos + n ≤ V.endPos)
      ∧ (fetchUnits s n V).pos = min (V.pos + n) V.endPos := by
  induction n generalizing V with
  | zero => exact ⟨iff_of_true ha hle, (min_eq_left hle).symm⟩
  | succ n ih =>
    by_cases hlt : V.pos < V.endPos
    · obtain ⟨hactive, hpos⟩ := fetchUnit_goes_on (s := s) (.inr hlt)
      rw [nextPos, if_neg (Nat.not_le.mpr hlt)] at hpos
      have ih := ih (hactive.trans ha) ((fetchUnit_wraps_eq s V).trans hw)
        (by rw [hpos, fetchUnit_endPos]; exact hlt)
      rw [hpos, fetchUnit_endPos, Nat.add_right_comm] at ih
      rw [fetchUnits_succ (hactive.trans ha)]
      exact ih
    · have hend : V.pos = V.endPos := by omega
      obtain ⟨hactive, hpos⟩ := fetchUnits_at_end ha hw hend.ge (n + 1) (s := s)
      rw [hactive, hpos]
      omega

/-- The voice with its step added to its phase, the whole units taken off (R261). -/
def Voice.accumulated (V : Voice) : Voice := { V with phase := (V.phase + V.step) % 4096 }

/-- Settles O29: a tick's advance is a run of fetches; each kind of voice by induction on their number. -/
theorem cursorMovesByUnits : Obligations.CursorMovesByUnits := by
  intro s V ha n loops W
  refine ⟨fetchUnits_eq_iterate (V := V.accumulated) ha n, fetchUnits_phase s n V.accumulated,
    fun hloops => ?looping, fun hno hle => ?toEnd, fun hno hlt => ?beyond⟩
  case looping => exact fetchUnits_looping (V := V.accumulated) ha ((wraps_iff V).mpr hloops) n
  case toEnd => exact fetchUnits_to_end (V := V.accumulated) ha (wraps_eq_false hno) hle n
  case beyond => exact fetchUnits_at_end (V := V.accumulated) ha (wraps_eq_false hno) hlt.le n

end Sys2Proof.Machine
end

section
/-!
PROOFS. Samples, voice outputs and frame (42_decode_engine.md R270-R279, R285; 43_envelope.md R312; 44_sequencer.md
R339; 45_mixer_tick.md R382, R388).
-/
namespace Sys2Proof.Machine

/-! ## Units -/

theorem clamp16_range (x : Int) : inS16 (clamp16 x) := by
  unfold inS16 clamp16 clamp
  omega

theorem pcm8Unit_range (s : State) (start p : Nat) : inS16 (pcm8Unit s start p) := by
  have hlo := (romRead s (start + p)).le_toInt
  have hhi := (romRead s (start + p)).toInt_lt
  unfold inS16 pcm8Unit
  omega

theorem pcm16Unit_range (s : State) (start p : Nat) : inS16 (pcm16Unit s start p) := by
  have hlo := (romRead16 s (start + 2 * p)).le_toInt
  have hhi := (romRead16 s (start + 2 * p)).toInt_lt
  unfold inS16 pcm16Unit
  omega

theorem pcm12Unit_range (s : State) (start p : Nat) : inS16 (pcm12Unit s start p) := by
  have hlo := (pcm12Bits s start p).le_toInt
  have hhi := (pcm12Bits s start p).toInt_lt
  unfold inS16 pcm12Unit
  omega

/-- A decoded unit lies on the 16-bit scale (R270-R279). -/
theorem decodeUnit_cur_range (s : State) (V : Voice) : inS16 (decodeUnit s V).cur := by
  unfold decodeUnit
  cases V.codec with
  | pcm8 => exact pcm8Unit_range ..
  | pcm16 => exact pcm16Unit_range ..
  | pcm12 => exact pcm12Unit_range ..
  | adpcmA | adpcmB | adpcmC => exact clamp16_range _

/-! ## The samples of a voice -/

/-- The two samples of a voice lie on the 16-bit scale. -/
def Voice.samplesSafe (V : Voice) : Prop := inS16 V.prev ∧ inS16 V.cur

theorem decodeUnit_samplesSafe (s : State) {V : Voice} (h : inS16 V.cur) :
    (decodeUnit s V).samplesSafe :=
  ⟨by rwa [decodeUnit_prev], decodeUnit_cur_range s V⟩

@[simp] theorem takeSnapshot_cur (vd : Variant) (V : Voice) : (takeSnapshot vd V).cur = V.cur := by
  rcases takeSnapshot_cases vd V with h | ⟨-, h⟩ <;> rw [h]

@[simp] theorem wrap_cur (vd : Variant) (V : Voice) : (V.wrap vd).cur = V.cur := by
  rcases wrap_cases vd V with h | ⟨-, h⟩ <;> rw [h]

theorem fetchUnit_samplesSafe {s : State} {V : Voice} (h : V.samplesSafe) :
    (fetchUnit s V).samplesSafe := by
  have ⟨_, hcur⟩ := h
  rcases fetchUnit_cases s V with ⟨-, -, e⟩ | ⟨-, -, e⟩ | ⟨-, e⟩ <;> rw [e]
  · exact decodeUnit_samplesSafe s (by simpa using hcur)
  · exact h
  · exact decodeUnit_samplesSafe s (by simpa using hcur)

theorem advanceVoice_samplesSafe {s : State} {V : Voice} (h : V.samplesSafe) :
    (advanceVoice s V).samplesSafe :=
  advanceVoice_induct (P := Voice.samplesSafe) (fun _ => fetchUnit_samplesSafe) h

theorem advanceVoice_phase_lt (s : State) (V : Voice) : (advanceVoice s V).phase < 4096 := by
  unfold advanceVoice
  rw [fetchUnits_phase]
  exact Nat.mod_lt _ (by decide)

theorem voiceSample_range {V : Voice} (hf : V.phase < 4096) (h : V.samplesSafe) :
    inS16 (voiceSample V) := by
  obtain ⟨hprev, hcur⟩ := h
  have hbetween := voiceSample_between hf
  omega

/-! ## The output of a voice -/

/-- The range of `OutputSafe` on one voice. -/
def Voice.outputSafe (V : Voice) : Prop :=
  V.phase < 4096 ∧ inS16 V.prev ∧ inS16 V.cur ∧ inS16 V.outL ∧ inS16 V.outR

theorem inS16_zero : inS16 0 := by decide

/-- A sample on the 16-bit scale gives outputs on it, gain and pan factors being at most 1 (R312, R388). -/
theorem voiceOutput_range {vd : Variant} (hwf : vd.wf = true) (hb : isBlock vd = false) (V : Voice) {x : Int}
    (hx : inS16 x) : inS16 (voiceOutput vd V x).outL ∧ inS16 (voiceOutput vd V x).outR := by
  have hgain := scale_range hx (gain_le hwf hb V)
  obtain ⟨hleft, hright⟩ := panVolOf_le hwf hb V
  unfold voiceOutput
  split
  · refine ⟨scale_range hgain hleft, ?_⟩
    simp only
    split
    · exact scale_range hgain hright
    · exact inS16_zero
  · exact ⟨inS16_zero, inS16_zero⟩

/-- An output of a voice with safe phase and samples is safe. -/
theorem voiceOutput_outputSafe {vd : Variant} (hwf : vd.wf = true) (hb : isBlock vd = false) {V : Voice} {x : Int}
    (hphase : V.phase < 4096) (hV : V.samplesSafe) (hx : inS16 x) : (voiceOutput vd V x).outputSafe := by
  obtain ⟨hprev, hcur⟩ := hV
  obtain ⟨hl, hr⟩ := voiceOutput_range hwf hb V hx
  rw [voiceOutput_spec]
  exact ⟨hphase, hprev, hcur, hl, hr⟩

/-- Ramp and envelope leave phase and samples alone (R300, R304). -/
theorem shape_waveform (s : State) (V : Voice) :
    (shape s V).phase = V.phase ∧ (shape s V).prev = V.prev ∧ (shape s V).cur = V.cur := by
  unfold shape
  split
  · rw [ramp_spec]
    exact ⟨rfl, rfl, rfl⟩
  · rcases envelope_spec s (ramp s.vd V) with e | e <;> rw [e, ramp_spec] <;> exact ⟨rfl, rfl, rfl⟩
  · exact ⟨rfl, rfl, rfl⟩

theorem voiceTick_outputSafe {s : State} (hwf : s.vd.wf = true) (hb : isBlock s.vd = false) {V : Voice}
    (h : V.samplesSafe) : (voiceTick s V).outputSafe := by
  have hphase := advanceVoice_phase_lt s V
  have hsamples := advanceVoice_samplesSafe (s := s) h
  rcases voiceTick_cases s V with ⟨-, e⟩ | ⟨-, e⟩ <;> rw [e]
  · exact voiceOutput_outputSafe hwf hb hphase hsamples inS16_zero
  · obtain ⟨hp, hprev, hcur⟩ := shape_waveform s (advanceVoice s V)
    refine voiceOutput_outputSafe hwf hb (hp ▸ hphase) ?_ (voiceSample_range hphase hsamples)
    unfold Voice.samplesSafe
    rwa [hprev, hcur]

/-! ## Effects on a voice -/

theorem keyedVoice_outputSafe {s : State} {V : Voice} (h : V.outputSafe) : (keyedVoice s V).outputSafe := by
  obtain ⟨hphase, hprev, hcur, hl, hr⟩ := h
  rcases keyedVoice_cases s V with e | ⟨m, c, -, -, -, e | e⟩ <;> rw [e]
  · exact ⟨hphase, hprev, hcur, inS16_zero, inS16_zero⟩
  · exact ⟨Nat.zero_lt_succ 4095, inS16_zero, inS16_zero, hl, hr⟩
  · exact ⟨Nat.zero_lt_succ 4095, inS16_zero, inS16_zero, hl, hr⟩

theorem keyedOffVoice_outputSafe {vd : Variant} {V : Voice} (h : V.outputSafe) :
    (keyedOffVoice vd V).outputSafe := by
  rcases keyedOffVoice_cases vd V with e | e | e <;> rw [e]
  · exact h
  · obtain ⟨hphase, hprev, hcur, -, -⟩ := h
    exact ⟨hphase, hprev, hcur, inS16_zero, inS16_zero⟩
  · exact h

theorem RegisterUpdate.outputSafe {s : State} {V W : Voice} (h : RegisterUpdate s V W)
    (hV : V.outputSafe) : W.outputSafe := by
  cases h with
  | keyOn => exact keyedVoice_outputSafe hV
  | keyOff => exact keyedOffVoice_outputSafe hV
  | pan | smpl | pitchL | pitchH | tl | lfo | am => exact hV

theorem powerOnVoice_outputSafe : Voice.powerOn.outputSafe := by
  unfold Voice.outputSafe
  decide

theorem VoiceEffect.outputSafe {s : State} {V W : Voice} (hwf : s.vd.wf = true) (h : VoiceEffect s V W)
    (hV : V.outputSafe) : W.outputSafe := by
  have ⟨hphase, hprev, hcur, _, hr⟩ := hV
  cases h with
  | same => exact hV
  | reset => exact powerOnVoice_outputSafe
  | register _ h => exact h.outputSafe hV
  | tick hb _ => exact voiceTick_outputSafe hwf hb ⟨hprev, hcur⟩
  | seqStart _ | seqStop _ => exact ⟨hphase, hprev, hcur, inS16_zero, hr⟩
  | seqTick _ hW run out hout _ =>
    rcases hW with rfl | rfl | ⟨x, rfl⟩ <;> exact ⟨hphase, hprev, hcur, hout, inS16_zero⟩

/-! ## The frame -/

/-- A sum of clamped outputs is bounded by their number (R382). -/
theorem mixSum_range (voices : List Voice) (out : Voice → Int) :
    -32768 * voices.length ≤ mixSum voices out ∧ mixSum voices out ≤ 32767 * voices.length := by
  induction voices with
  | nil => exact ⟨le_rfl, le_rfl⟩
  | cons V t ih =>
    have hV := clamp16_range (out V)
    unfold mixSum at *
    rw [List.filter_cons]
    split
    · rw [List.map_cons, List.sum_cons, List.length_cons]
      omega
    · rw [List.length_cons]
      omega

/-- Masking lowers a value by less than `2^k` (R383). -/
theorem maskLow_range (k : Nat) (x : Int) : x - 2 ^ k < maskLow k x ∧ maskLow k x ≤ x := by
  have hpos : (0 : Int) < 2 ^ k := by positivity
  have hlo := Int.emod_nonneg x hpos.ne'
  have hhi := Int.emod_lt_of_pos x hpos
  unfold maskLow
  omega

/-- Both sides of the frame fit their s32. -/
def frameSafe (s : State) : Prop := inS32 s.g.frameL ∧ inS32 s.g.frameR

theorem inS32_zero : inS32 0 := by decide

/-- One side of the frame of at most 28 voices, with at most 15 bits masked (R8, R15, R382, R383). -/
theorem maskedSum_range {voices : List Voice} {k : Nat} (hn : voices.length ≤ 28) (hk : k ≤ 15)
    (out : Voice → Int) : inS32 (maskLow k (mixSum voices out)) := by
  have hpow : (2 : Int) ^ k ≤ 2 ^ 15 := pow_le_pow_right₀ (by decide) hk
  have hsum := mixSum_range voices out
  have hmask := maskLow_range k (mixSum voices out)
  omega

theorem mix_frameSafe {s : State} (hwf : s.vd.wf = true) (hc : VoiceCount s) : frameSafe (mix s) := by
  have hn : s.voices.length ≤ 28 := hc ▸ (wf_nVoices hwf).2
  have hk := wf_outMaskBits hwf
  unfold frameSafe mix
  simp only
  constructor
  · split
    · exact maskedSum_range hn hk _
    · exact inS32_zero
  · split
    · exact maskedSum_range hn hk _
    · exact inS32_zero

theorem seqWrite_g (sub d : Byte) (s : State) : (seqWrite sub d s).g = s.g := by
  rw [seqWrite_sameShared sub d s]

/-- TICK mixes the frame anew, RESET clears it, and nothing else writes it (R32, R382, R405). -/
theorem HostEffect.frameSafe {s u : State} (hwf : s.vd.wf = true) (hc : VoiceCount s) (h : HostEffect s u)
    (hs : frameSafe s) : frameSafe u := by
  cases h with
  | tick =>
    have hvd : (tickWork s).vd = s.vd := HostEffect.tick.vd
    have hcount : VoiceCount (tickWork s) := HostEffect.tick.voiceCount hc
    rw [ticked_eq]
    exact mix_frameSafe (hvd ▸ hwf) hcount
  | reset => exact ⟨inS32_zero, inS32_zero⟩
  | blockWrite sub d _ =>
    unfold Machine.frameSafe
    rwa [seqWrite_g]
  | nothing | enable | bank | voice | configure | die | load => exact hs

/-! ## Steps -/

/-- The frame's invariant with what it rests on: a valid descriptor and its number of voices. -/
def mixSafe (s : State) : Prop := s.vd.wf = true ∧ VoiceCount s ∧ frameSafe s

theorem HostEffect.mixSafe {s u : State} (h : HostEffect s u) (hs : mixSafe s) : mixSafe u := by
  obtain ⟨hwf, hc, hframe⟩ := hs
  exact ⟨h.vd ▸ hwf, h.voiceCount hc, h.frameSafe hwf hc hframe⟩

/-- Settles O59: each voice by the effects a step can have on it, the frame by the mixer's bound. -/
theorem stepKeepsOutputs : Obligations.StepKeepsOutputs := by
  intro s t hwf hc ⟨hvoices, hframe⟩ h
  obtain ⟨-, -, hframe'⟩ := step_keeps (P := mixSafe) (fun _ _ _ hu => hu) (fun _ _ e => e.mixSafe) h
    ⟨hwf, hc, hframe⟩
  have hvoices' := step_keeps_voices (P := Voice.outputSafe) h powerOnVoice_outputSafe
    (fun rest _ _ e => VoiceEffect.outputSafe (s := s.consumed rest) hwf e) hvoices
  exact ⟨hvoices', hframe'⟩

end Sys2Proof.Machine
end

section
/-! PROOFS. The linear ramp (43_envelope.md R300, R301). -/
namespace Sys2Proof.Machine

theorem ramp_up {vd : Variant} {V : Voice} (h : V.tlCur ≤ tlTarget V) :
    ramp vd V = { V with tlCur := min (V.tlCur + vd.rampFall) (tlTarget V) } := by
  rw [ramp_spec, rampedLevel]
  split
  · rfl
  · rw [show V.tlCur = tlTarget V by omega, max_eq_right (Nat.sub_le ..), min_eq_right (Nat.le_add_right ..)]

theorem ramp_down {vd : Variant} {V : Voice} (h : tlTarget V ≤ V.tlCur) :
    ramp vd V = { V with tlCur := max (V.tlCur - vd.rampRise) (tlTarget V) } := by
  rw [ramp_spec, rampedLevel, if_neg h.not_gt]

theorem iterate_ramp_up {vd : Variant} {V : Voice} (h : V.tlCur ≤ tlTarget V) (n : Nat) :
    (ramp vd)^[n] V = { V with tlCur := min (V.tlCur + n * vd.rampFall) (tlTarget V) } := by
  induction n with
  | zero => simp [h]
  | succ n ih =>
    rw [Function.iterate_succ_apply', ih, ramp_up (min_le_right ..)]
    congr 1
    change min (min (V.tlCur + n * vd.rampFall) (tlTarget V) + vd.rampFall) (tlTarget V) = _
    rw [Nat.succ_mul]
    omega

theorem iterate_ramp_down {vd : Variant} {V : Voice} (h : tlTarget V ≤ V.tlCur) (n : Nat) :
    (ramp vd)^[n] V = { V with tlCur := max (V.tlCur - n * vd.rampRise) (tlTarget V) } := by
  induction n with
  | zero => simp [h]
  | succ n ih =>
    rw [Function.iterate_succ_apply', ih, ramp_down (le_max_right ..)]
    congr 1
    change max (max (V.tlCur - n * vd.rampRise) (tlTarget V) - vd.rampRise) (tlTarget V) = _
    rw [Nat.succ_mul]
    omega

/-- Settles O36: in either direction by induction on the number of ramps. -/
theorem rampReachesTarget : Obligations.RampReachesTarget :=
  fun _ _ n => ⟨fun h => iterate_ramp_up h n, fun h => iterate_ramp_down h n⟩

end Sys2Proof.Machine
end

section
/-! PROOFS. The ADSR envelope (43_envelope.md R302-R309): one equation for each stage, or for each side of its bound. -/
namespace Sys2Proof.Machine

/-! ## One step, by stage (R304-R308) -/

theorem envelope_attack {V : Voice} (h : V.stage = .attack) (s : State) : envelope s V = attackStep s V := by
  rw [envelope, h]

theorem envelope_decay1 {V : Voice} (h : V.stage = .decay1) (s : State) : envelope s V = decay1Step s V := by
  rw [envelope, h]

theorem envelope_decay2 {V : Voice} (h : V.stage = .decay2) (s : State) : envelope s V = decay2Step s V := by
  rw [envelope, h]

theorem envelope_release {V : Voice} (h : V.stage = .release) (s : State) : envelope s V = releaseStep s V := by
  rw [envelope, h]

theorem envelope_idle {V : Voice} (h : V.stage = .idle) (s : State) : envelope s V = V := by
  rw [envelope, h]

theorem le_attackLevel {V : Voice} (h : V.level ≤ levelMax) (s : State) : V.level ≤ attackLevel s V := by
  unfold attackLevel
  split
  · exact h
  · exact le_min (Nat.le_add_right ..) h

theorem decay1Step_above {s : State} {V : Voice} (h : V.dlt + rateOf s.tables.dec V.eD1 < V.level) :
    decay1Step s V = { V with level := V.level - rateOf s.tables.dec V.eD1 } := by
  rw [decay1Step, if_neg (by omega)]
  congr 1
  omega

theorem decay1Step_arrives {s : State} {V : Voice} (h : V.level ≤ V.dlt + rateOf s.tables.dec V.eD1) :
    decay1Step s V = { V with level := V.dlt, stage := .decay2 } :=
  if_pos (by omega)

/-- From above the threshold Decay1 moves the level towards it and not past it (R306). -/
theorem decay1Step_between {V : Voice} (h : V.dlt ≤ V.level) (s : State) :
    V.dlt ≤ (decay1Step s V).level ∧ (decay1Step s V).level ≤ V.level := by
  rcases Nat.lt_or_ge (V.dlt + rateOf s.tables.dec V.eD1) V.level with habove | harrives
  · rw [decay1Step_above habove]
    simp only
    omega
  · rw [decay1Step_arrives harrives]
    exact ⟨le_rfl, h⟩

theorem decay2Step_eq (s : State) (V : Voice) :
    decay2Step s V =
      { V with
        level := if degenerate s.vd V.eD2 then V.level else V.level - rateOf s.tables.dec V.eD2 } := by
  unfold decay2Step
  split <;> rfl

theorem releaseStep_above {s : State} {V : Voice} (h : rateOf s.tables.dec V.eRR < V.level) :
    releaseStep s V = { V with level := V.level - rateOf s.tables.dec V.eRR } := by
  rw [releaseStep, if_neg (by omega)]
  congr 1
  omega

theorem releaseStep_ends {s : State} {V : Voice} (h : V.level ≤ rateOf s.tables.dec V.eRR) :
    releaseStep s V = Voice.deactivate { V with level := 0 } :=
  if_pos (by omega)

/-- On either side of its end Release lowers the level by its decrement, to 0 at the least (R308). -/
theorem releaseStep_level (s : State) (V : Voice) :
    (releaseStep s V).level = V.level - rateOf s.tables.dec V.eRR := by
  rcases Nat.lt_or_ge (rateOf s.tables.dec V.eRR) V.level with habove | hends
  · rw [releaseStep_above habove]
  · rw [releaseStep_ends hends]
    exact (Nat.sub_eq_zero_of_le hends).symm

theorem releaseStep_eRR (s : State) (V : Voice) : (releaseStep s V).eRR = V.eRR := by
  unfold releaseStep
  simp only
  split <;> rfl

/-- Settles O37: stage by stage, Decay1 and Release on either side of the level they stop at. -/
theorem envelopeTransitions : Obligations.EnvelopeTransitions := by
  intro s V W instant atk dec
  refine ⟨fun hstage => ?attack, fun hstage => ?decay1, fun hstage => ?decay2, fun hstage => ?release,
    fun hstage => envelope_idle hstage s⟩
  case attack =>
    have hW : W = attackStep s V := envelope_attack hstage s
    refine ⟨?_, fun h => hW ▸ ⟨le_attackLevel h s, attackLevel_le s V⟩⟩
    simp only [hW, attackStep, attackLevel, degenerate_eq_true, hstage]
    rfl
  case decay1 =>
    have hW : W = decay1Step s V := envelope_decay1 hstage s
    exact ⟨fun h => hW.trans (decay1Step_arrives h), fun h => hW.trans (decay1Step_above h),
      fun h => hW ▸ decay1Step_between h s⟩
  case decay2 =>
    have hW : W = decay2Step s V := envelope_decay2 hstage s
    rw [hW, decay2Step_eq]
    simp only [degenerate_eq_true]
    refine ⟨rfl, ?_⟩
    split
    · exact le_rfl
    · exact Nat.sub_le ..
  case release =>
    have hW : W = releaseStep s V := envelope_release hstage s
    refine ⟨fun h => hW.trans (releaseStep_ends h), fun h => hW.trans (releaseStep_above h), ?_⟩
    rw [hW, releaseStep_level]
    exact Nat.sub_le ..

/-! ## A whole Release (R308, R309) -/

theorem iterate_releaseStep (s : State) (V : Voice) (n : Nat) :
    ((releaseStep s)^[n] V).eRR = V.eRR
      ∧ ((releaseStep s)^[n] V).level = V.level - n * rateOf s.tables.dec V.eRR := by
  induction n with
  | zero => simp
  | succ n ih =>
    obtain ⟨hcode, hlevel⟩ := ih
    rw [Function.iterate_succ_apply', releaseStep_eRR, releaseStep_level, hcode, hlevel, Nat.succ_mul]
    exact ⟨rfl, Nat.sub_sub ..⟩

/-- Settles O39: after `level / d` steps less than `d` of the level is left, and the next step ends the voice. -/
theorem releaseEndsInTime : Obligations.ReleaseEndsInTime := by
  intro s V hd
  obtain ⟨hcode, hlevel⟩ := iterate_releaseStep s V (V.level / rateOf s.tables.dec V.eRR)
  have hrest : V.level - V.level / rateOf s.tables.dec V.eRR * rateOf s.tables.dec V.eRR
      < rateOf s.tables.dec V.eRR := by
    rw [Nat.mul_comm, ← Nat.mod_eq_sub_mul_div]
    exact Nat.mod_lt _ hd
  rw [Function.iterate_succ_apply', releaseStep_ends (by rw [hcode, hlevel]; exact hrest.le)]
  exact ⟨rfl, rfl, rfl⟩

end Sys2Proof.Machine
end

section
/-! PROOFS. Gain, pan/volume and the output of a voice (43_envelope.md R310-R312; 45_mixer_tick.md R388). -/
namespace Sys2Proof.Machine

theorem gain_adsr {vd : Variant} (h : vd.env = .adsrRamp) (V : Voice) :
    gain vd V = vd.exp.getD (V.level / 2 ^ 16) 0 := by
  rw [gain, h]

theorem gain_ramp {vd : Variant} (h : vd.env = .ramp) (V : Voice) : gain vd V = 4096 := by
  rw [gain, h]

theorem asr_twelve (a : Int) : asr a 12 = a / 4096 := rfl

theorem voiceOutput_active {V : Voice} (h : V.active = true) (vd : Variant) (x : Int) :
    voiceOutput vd V x =
      { V with
        outL := x * gain vd V / 4096 * (panVolOf vd V).1 / 4096
        outR := if vd.stereo then x * gain vd V / 4096 * (panVolOf vd V).2 / 4096 else 0 } := by
  rw [voiceOutput, if_pos h]
  simp only [asr_twelve]

theorem voiceOutput_ended {V : Voice} (h : V.active = false) (vd : Variant) (x : Int) :
    voiceOutput vd V x = { V with outL := 0, outR := 0 } := by
  rw [voiceOutput, if_neg (by simp [h])]

/-- On the 16-bit scale the mixer's clamp is the identity (R388). -/
theorem clamp16_of_inS16 {x : Int} (h : inS16 x) : clamp16 x = x := by
  unfold clamp16 clamp
  omega

/-- Settles O40: an active and an inactive voice, and the bound of `voiceOutput_range`. -/
theorem voiceOutputNeedsNoClamp : Obligations.VoiceOutputNeedsNoClamp := by
  intro vd V x W
  refine ⟨fun g hactive hg => ?formula, fun hinactive => voiceOutput_ended hinactive vd x,
    fun hwf hb hx => ?range⟩
  case formula =>
    have hgain : gain vd V = g := by
      rcases hg with ⟨henv, rfl⟩ | ⟨henv, rfl⟩
      · exact gain_adsr henv V
      · exact gain_ramp henv V
    rw [← hgain]
    exact voiceOutput_active hactive vd x
  case range =>
    obtain ⟨hl, hr⟩ := voiceOutput_range hwf hb V hx
    exact ⟨hl, hr, clamp16_of_inS16 hl, clamp16_of_inS16 hr⟩

end Sys2Proof.Machine
end

section
/-! PROOFS. Inactive voices are Idle and silent (43_envelope.md R302, R304, R313; 44_sequencer.md R333). -/
namespace Sys2Proof.Machine

/-! ## The invariant on one voice -/

/-- The condition of `QuietSafe` on one voice. -/
def Voice.quietSafe (vd : Variant) (V : Voice) : Prop :=
  (V.active = false → V.outL = 0)
    ∧ (V.active = false ∨ isBlock vd = true → V.stage = .idle ∧ V.outR = 0)
    ∧ (V.active = true ∧ isBlock vd = false ∧ vd.env = .adsrRamp → V.stage ≠ .idle)
    ∧ (vd.env ≠ .adsrRamp → V.stage = .idle ∧ V.level = 0)

/-- An inactive voice puts out nothing (R312, R313). -/
def Voice.silentOnceEnded (V : Voice) : Prop := V.active = false → V.outL = 0 ∧ V.outR = 0

/-- Idle is the stage of the inactive voices and of no other (R302, R313). -/
def Voice.idleOnceEnded (V : Voice) : Prop := V.active = false ↔ V.stage = .idle

/-- The envelope of the voice has not moved since power-on (R36). -/
def Voice.envelopeAtRest (V : Voice) : Prop := V.stage = .idle ∧ V.level = 0

/-- Without BLOCK: an ended voice is silent; with ADSR the stage says whether the voice has ended, without it the
envelope is at rest. -/
theorem quietSafe_voice_iff {vd : Variant} (hb : isBlock vd = false) (V : Voice) :
    V.quietSafe vd ↔ V.silentOnceEnded ∧ (vd.env = .adsrRamp → V.idleOnceEnded)
      ∧ (vd.env ≠ .adsrRamp → V.envelopeAtRest) := by
  constructor
  · intro ⟨hleft, hidle, hplaying, hplain⟩
    refine ⟨fun h => ⟨hleft h, (hidle (.inl h)).2⟩, fun henv => ⟨fun h => (hidle (.inl h)).1, fun hstage => ?_⟩,
      hplain⟩
    exact Bool.eq_false_of_not_eq_true fun h => hplaying ⟨h, hb, henv⟩ hstage
  · intro ⟨hsilent, hadsr, hplain⟩
    refine ⟨fun h => (hsilent h).1, fun h => ?_, fun ⟨h, _, henv⟩ hstage => ?_, hplain⟩
    · have hended : V.active = false := h.resolve_right (by simp [hb])
      refine ⟨?_, (hsilent hended).2⟩
      by_cases henv : vd.env = .adsrRamp
      · exact (hadsr henv).mp hended
      · exact (hplain henv).1
    · rw [(hadsr henv).mpr hstage] at h
      cases h

/-- The BLOCK voice has no envelope and no right output, and no left one while the FSM stands (R333). -/
theorem quietSafe_block_iff {vd : Variant} (hb : isBlock vd = true) (V : Voice) :
    V.quietSafe vd ↔ (V.active = false → V.outL = 0) ∧ V.outR = 0 ∧ V.stage = .idle
      ∧ (vd.env ≠ .adsrRamp → V.level = 0) := by
  constructor
  · intro ⟨hleft, hidle, _, hplain⟩
    exact ⟨hleft, (hidle (.inr hb)).2, (hidle (.inr hb)).1, fun henv => (hplain henv).2⟩
  · intro ⟨hleft, hright, hstage, hlevel⟩
    exact ⟨hleft, fun _ => ⟨hstage, hright⟩, fun ⟨_, hvoices, _⟩ => by simp [hb] at hvoices,
      fun henv => ⟨hstage, hlevel henv⟩⟩

theorem powerOnVoice_quietSafe (vd : Variant) : Voice.powerOn.quietSafe vd :=
  ⟨fun _ => rfl, fun _ => ⟨rfl, rfl⟩, fun ⟨h, _, _⟩ => by simp [Voice.powerOn] at h, fun _ => ⟨rfl, rfl⟩⟩

/-! ## Register writes -/

/-- A voice that a key-on or key-off ends meets the invariant whatever it was before. -/
theorem deactivate_quietSafe {vd : Variant} {V : Voice} (hlevel : vd.env ≠ .adsrRamp → V.level = 0) :
    V.deactivate.quietSafe vd :=
  ⟨fun _ => rfl, fun _ => ⟨rfl, rfl⟩, fun ⟨h, _, _⟩ => by simp at h, fun henv => ⟨rfl, hlevel henv⟩⟩

/-- A key-on ends the voice or makes it play, on an ADSR descriptor in Attack (R238, R239). -/
theorem keyedVoice_quietSafe {s : State} (hb : isBlock s.vd = false) {V : Voice} (h : V.quietSafe s.vd) :
    (keyedVoice s V).quietSafe s.vd := by
  obtain ⟨-, -, hrest⟩ := (quietSafe_voice_iff hb V).mp h
  cases hc : playableCodec s.vd (metadataOf s V.sample.toNat).codec with
  | none =>
    rw [keyedVoice_rejected hc]
    exact deactivate_quietSafe (V := { V with err := 0, keyed := true }) fun henv => (hrest henv).2
  | some c =>
    rw [quietSafe_voice_iff hb]
    by_cases henv : s.vd.env = .adsrRamp
    · rw [keyedVoice_adsr hc henv]
      exact ⟨nofun, fun _ => ⟨nofun, nofun⟩, fun hno => absurd henv hno⟩
    · rw [keyedVoice_ramp hc henv]
      exact ⟨nofun, fun h => absurd h henv, hrest⟩

/-- A key-off ends an active voice or sends it, on an ADSR descriptor only, to Release (R241). -/
theorem keyedOffVoice_quietSafe {vd : Variant} (hb : isBlock vd = false) {V : Voice} (h : V.quietSafe vd) :
    (keyedOffVoice vd V).quietSafe vd := by
  obtain ⟨hsilent, -, hrest⟩ := (quietSafe_voice_iff hb V).mp h
  cases hactive : V.active with
  | false => rwa [keyedOffVoice_inactive hactive]
  | true =>
    by_cases hrelease : vd.env = .adsrRamp ∧ degenerate vd V.eRR = false
    · obtain ⟨henv, hrate⟩ := hrelease
      rw [keyedOffVoice_released hactive henv hrate, quietSafe_voice_iff hb]
      refine ⟨hsilent, fun _ => ⟨fun hended => ?_, nofun⟩, fun hno => absurd henv hno⟩
      exact absurd (hactive.symm.trans hended) nofun
    · rw [not_and_or, Bool.not_eq_false] at hrelease
      rw [keyedOffVoice_halted hactive hrelease]
      exact deactivate_quietSafe (V := { V with keyed := false }) fun henv => (hrest henv).2

theorem RegisterUpdate.quietSafe {s : State} (hb : isBlock s.vd = false) {V W : Voice}
    (h : RegisterUpdate s V W) (hV : V.quietSafe s.vd) : W.quietSafe s.vd := by
  cases h with
  | keyOn => exact keyedVoice_quietSafe hb hV
  | keyOff => exact keyedOffVoice_quietSafe hb hV
  | pan | smpl | pitchL | pitchH | tl | lfo | am => exact hV

/-! ## The tick of a voice -/

theorem deactivate_idleOnceEnded (V : Voice) : V.deactivate.idleOnceEnded :=
  ⟨fun _ => rfl, fun _ => rfl⟩

theorem fetchUnit_idleOnceEnded {s : State} {V : Voice} (h : V.idleOnceEnded) :
    (fetchUnit s V).idleOnceEnded := by
  rcases fetchUnit_shell s V with e | e <;> rw [e]
  · exact deactivate_idleOnceEnded V
  · exact h

/-- An envelope step goes to Idle only by ending the voice (R302, R308). -/
theorem envelope_idleOnceEnded {s : State} {V : Voice} (h : V.idleOnceEnded) :
    (envelope s V).idleOnceEnded := by
  by_cases hstage : V.stage = .idle
  · rwa [envelope_idle hstage]
  · rcases envelope_spec s V with e | e
    · have hactive : (envelope s V).active = V.active := by rw [e]
      have hplaying : V.active ≠ false := fun hended => hstage (h.mp hended)
      rcases envelope_stage (s := s) hstage with hnot | ⟨hended, -⟩
      · exact ⟨fun hended => absurd (hactive.symm.trans hended) hplaying, fun hidle => absurd hidle hnot⟩
      · exact absurd (hactive.symm.trans hended) hplaying
    · rw [e]
      exact deactivate_idleOnceEnded _

theorem voiceTick_idleOnceEnded {s : State} {V : Voice} (h : V.idleOnceEnded) :
    (voiceTick s V).idleOnceEnded :=
  voiceTick_induct (P := Voice.idleOnceEnded) (fun _ _ h => h) (fun _ => fetchUnit_idleOnceEnded)
    (fun V h => by rw [ramp_spec]; exact h) (fun _ => envelope_idleOnceEnded) (fun _ _ _ h => h) h

/-- A voice in Idle has no envelope to step, so a tick leaves its envelope where it is (R304). -/
theorem voiceTick_envelopeAtRest {s : State} {V : Voice} (h : V.envelopeAtRest) :
    (voiceTick s V).envelopeAtRest :=
  voiceTick_induct (P := Voice.envelopeAtRest) (fun _ _ h => h)
    (fun V h => by
      rcases fetchUnit_shell s V with e | e <;> rw [e]
      · exact ⟨rfl, h.2⟩
      · exact h)
    (fun V h => by rw [ramp_spec]; exact h)
    (fun V h => by rwa [envelope_idle h.1]) (fun _ _ _ h => h) h

theorem voiceOutput_silentOnceEnded (vd : Variant) (V : Voice) (x : Int) :
    (voiceOutput vd V x).silentOnceEnded := by
  intro h
  rw [voiceOutput_spec] at h
  exact voiceOutput_inactive h

/-- A tick ends by putting the voice out, zeros if the voice has ended in it (R312, R381). -/
theorem voiceTick_silentOnceEnded (s : State) (V : Voice) : (voiceTick s V).silentOnceEnded := by
  rcases voiceTick_cases s V with ⟨-, e⟩ | ⟨-, e⟩ <;> rw [e]
  · exact voiceOutput_silentOnceEnded s.vd _ _
  · exact voiceOutput_silentOnceEnded s.vd _ _

theorem voiceTick_quietSafe {s : State} (hb : isBlock s.vd = false) {V : Voice} (h : V.quietSafe s.vd) :
    (voiceTick s V).quietSafe s.vd := by
  obtain ⟨-, hidle, hrest⟩ := (quietSafe_voice_iff hb V).mp h
  exact (quietSafe_voice_iff hb _).mpr ⟨voiceTick_silentOnceEnded s V,
    fun henv => voiceTick_idleOnceEnded (hidle henv), fun henv => voiceTick_envelopeAtRest (hrest henv)⟩

/-! ## Steps -/

theorem VoiceEffect.quietSafe {s : State} {V W : Voice} (h : VoiceEffect s V W) (hV : V.quietSafe s.vd) :
    W.quietSafe s.vd := by
  cases h with
  | same => exact hV
  | reset => exact powerOnVoice_quietSafe s.vd
  | register hb h => exact h.quietSafe hb hV
  | tick hb _ => exact voiceTick_quietSafe hb hV
  | seqStart hb | seqStop hb =>
    obtain ⟨-, hright, hstage, hlevel⟩ := (quietSafe_block_iff hb V).mp hV
    exact (quietSafe_block_iff hb _).mpr ⟨fun _ => rfl, hright, hstage, hlevel⟩
  | seqTick hb hW run out _ hout =>
    obtain ⟨-, -, hstage, hlevel⟩ := (quietSafe_block_iff hb V).mp hV
    rw [quietSafe_block_iff hb]
    rcases hW with rfl | rfl | ⟨x, rfl⟩ <;> exact ⟨hout, rfl, hstage, hlevel⟩

/-- Settles O58: by the effects a step can have on a voice. -/
theorem stepKeepsInactiveSilent : Obligations.StepKeepsInactiveSilent := by
  intro s t hs h
  have hvoices := step_keeps_voices (P := Voice.quietSafe s.vd) h (powerOnVoice_quietSafe s.vd)
    (fun rest _ _ e => VoiceEffect.quietSafe (s := s.consumed rest) e) hs
  unfold QuietSafe
  rw [step_keeps_vd h]
  exact hvoices

end Sys2Proof.Machine
end

section
/-! PROOFS. A tick in Release (43_envelope.md R308, R309; 45_mixer_tick.md R380, R381). -/
namespace Sys2Proof.Machine

/-- TICK ticks each active voice of a descriptor without BLOCK (R380). -/
theorem ticked_voice {s : State} {v : Nat} (hb : isBlock s.vd = false) (hv : v < s.voices.length)
    (h : (s.voice v).active = true) : (ticked s).voice v = voiceTick s (s.voice v) := by
  have hvoices : (ticked s).voices = s.voices.map fun V => if V.active then voiceTick s V else V := by
    simp [ticked_eq, tickWork, hb, mix, tickVoices]
  have hV : s.voices[v] = s.voice v := (List.getD_eq_getElem _ _ hv).symm
  rw [State.voice, hvoices, List.getD_eq_getElem _ _ (by simpa using hv), List.getElem_map, hV, if_pos h]

theorem releaseStep_progress {s : State} {V : Voice} (hd : 1 ≤ rateOf s.tables.dec V.eRR) :
    (releaseStep s V).active = false
      ∨ (releaseStep s V).stage = V.stage ∧ (releaseStep s V).level < V.level := by
  rcases Nat.lt_or_ge (rateOf s.tables.dec V.eRR) V.level with habove | hends
  · right
    rw [releaseStep_above habove]
    exact ⟨rfl, Nat.sub_lt (hd.trans habove.le) hd⟩
  · left
    rw [releaseStep_ends hends]
    rfl

/-- On an ADSR descriptor the amplitude stage of a voice in Release is a ramp and a release step (R304, R381). -/
theorem shape_release {s : State} {V : Voice} (henv : s.vd.env = .adsrRamp) (hstage : V.stage = .release) :
    shape s V = releaseStep s (ramp s.vd V) := by
  rw [shape, henv]
  exact envelope_release (by rw [ramp_spec]; exact hstage) s

theorem shape_release_progress {s : State} {V : Voice} (henv : s.vd.env = .adsrRamp)
    (hstage : V.stage = .release) (hd : 1 ≤ rateOf s.tables.dec V.eRR) :
    (shape s V).active = false ∨ (shape s V).stage = .release ∧ (shape s V).level < V.level := by
  have hprogress := releaseStep_progress (s := s) (V := ramp s.vd V) (by rw [ramp_spec]; exact hd)
  rw [← shape_release henv hstage, ramp_spec, hstage] at hprogress
  exact hprogress

/-- The decode step of a voice it leaves active does not touch the envelope (R261, R381). -/
theorem advanceVoice_envelope {s : State} {V : Voice} (h : (advanceVoice s V).active = true) :
    (advanceVoice s V).stage = V.stage ∧ (advanceVoice s V).level = V.level
      ∧ (advanceVoice s V).eRR = V.eRR := by
  rw [advanceVoice_shell h]
  exact ⟨rfl, rfl, rfl⟩

theorem voiceTick_release_progress {s : State} {V : Voice} (henv : s.vd.env = .adsrRamp)
    (hstage : V.stage = .release) (hd : 1 ≤ rateOf s.tables.dec V.eRR) :
    (voiceTick s V).active = false ∨ (voiceTick s V).stage = .release ∧ (voiceTick s V).level < V.level := by
  rcases voiceTick_cases s V with ⟨hended, e⟩ | ⟨hactive, e⟩ <;> rw [e, voiceOutput_spec]
  · exact .inl hended
  · obtain ⟨hstage', hlevel, hcode⟩ := advanceVoice_envelope hactive
    rw [← hlevel]
    exact shape_release_progress henv (hstage'.trans hstage) (hcode ▸ hd)

/-- Settles O38: the tick of a voice in Release lowers its level or ends it. -/
theorem releaseStrictlyDecreases : Obligations.ReleaseStrictlyDecreases := by
  intro s t v hb henv hv hactive hstage hd h
  obtain ⟨-, -, rfl⟩ := tick_next.mp h
  change ((ticked s).voice v).active = false
    ∨ ((ticked s).voice v).stage = .release ∧ ((ticked s).voice v).level < (s.voice v).level
  rw [ticked_voice hb hv hactive]
  exact voiceTick_release_progress henv hstage hd

end Sys2Proof.Machine
end

section
/-! PROOFS. The registers of the BLOCK voice (44_sequencer.md R331, R332). -/
namespace Sys2Proof.Machine

theorem writeRegister_block {s : State} {sel : Byte} {v : Nat} (hlive : s.g.fatal = false)
    (hb : isBlock s.vd = true) (hv : voiceOf s.vd sel = some v) (sub d : Byte) :
    writeRegister sel sub d s = (seqWrite sub d s).returns .void := by
  simp only [writeRegister, unlessFatal_live hlive, hv, hb, if_true]

/-- Settles O41: each row writes its register of the BLOCK voice, which selector 0 reaches. -/
theorem seqRegisterWrites : Obligations.SeqRegisterWrites := by
  intro s hlive hb hvoices
  have hwrite := writeRegister_block hlive hb (voiceOf_zero hvoices)
  exact ⟨fun d => hwrite 0 d, hwrite 1 0x01, hwrite 1 0x00⟩

end Sys2Proof.Machine
end

section
/-! PROOFS. Block headers as instructions (44_sequencer.md R346, R350-R355; log 7). -/
namespace Sys2Proof.Machine

theorem runHeader_block {s : State} (hb : isBlock s.vd = true) (h : Header) :
    runHeader h s = .next (readHeader h s) := if_pos hb

/-- Settles O42: each of the four headers writes the sequencer alone. -/
theorem headerEffects : Obligations.HeaderEffects := by
  intro s a hb
  have hrun := runHeader_block hb
  exact ⟨hrun .stop, hrun (.silence a), hrun (.fixed a), hrun (.counted a)⟩

/-! ## The repeat marker (R354) -/

/-- The loop-backs a marker has left when it is read: one more than its argument at its first encounter. -/
def loopBacksLeft (addr : Nat) (a : BitVec 6) (q : Seq) : Nat :=
  if q.repActive = false ∨ q.repAddr ≠ addr then a.toNat + 1 else q.repCount

/-- A reading of a marker loops back and counts, or with none left gives up its loop (R354). -/
theorem marker_eq (addr : Nat) (a : BitVec 6) (q : Seq) :
    loopOrAdvance (enterRepeat addr a q) =
      if 0 < loopBacksLeft addr a q then
        { q with
          repActive := true, repAddr := addr, repCount := loopBacksLeft addr a q - 1, cursor := q.lbAddr }
      else { q with repActive := false, repAddr := addr, repCount := 0, lbValid := false } := by
  unfold loopOrAdvance enterRepeat loopBacksLeft
  by_cases hfirst : q.repActive = false ∨ q.repAddr ≠ addr
  · simp [hfirst]
  · simp only [if_neg hfirst]
    rw [not_or, Bool.not_eq_false, not_not] at hfirst
    obtain ⟨hactive, rfl⟩ := hfirst
    split
    · rw [← hactive]
    · rw [← Nat.eq_zero_of_not_pos ‹_›]

/-- With a block before it, REPEAT passes its byte, does the marker's reading and raises DRQ (R354). -/
theorem readHeader_looping {s : State} (h : s.seq.lbValid = true) (a : BitVec 6) :
    readHeader (.loopBack a) s = req .blockHeader 0
      { s with seq := loopOrAdvance (enterRepeat s.seq.cursor a (rdNext s).seq) } := if_pos h

theorem readHeader_unpreceded {s : State} (h : s.seq.lbValid = false) (a : BitVec 6) :
    readHeader (.loopBack a) s = repeatError (rdNext s) := if_neg (by simp [h])

theorem exec_hdrRepeat {s : State} (hb : isBlock s.vd = true) (a : BitVec 6) :
    exec (.hdrRepeat a) s = .next (readHeader (.loopBack a) s) := runHeader_block hb (.loopBack a)

/-- Settles O43: by whether a block precedes the marker, and whether a loop-back is left. -/
theorem repeatHeaderEffect : Obligations.RepeatHeaderEffect := by
  intro s a hb
  rw [exec_hdrRepeat hb]
  refine ⟨fun hnone => ?unpreceded, fun hvalid => ?looping⟩
  case unpreceded =>
    rw [readHeader_unpreceded hnone]
    rfl
  case looping =>
    intro first count drop
    have hleft : loopBacksLeft s.seq.cursor a (rdNext s).seq = count := rfl
    rw [readHeader_looping hvalid, marker_eq, hleft]
    split <;> rfl

end Sys2Proof.Machine
end

section
/-!
PROOFS. The tick of a BLOCK voice (44_sequencer.md R333, R336-R339, R346, R356-R358; 45_mixer_tick.md
R382-R384).
-/
namespace Sys2Proof.Machine

/-! ## The action of a state (R333) -/

theorem seqAct_start {s : State} (h : s.seq.st = .start) : seqAct s = startAct s := by rw [seqAct, h]

theorem seqAct_dummy1 {s : State} (h : s.seq.st = .dummy1) : seqAct s = goto .dummy2 s.vd.latDummy s := by
  rw [seqAct, h]

theorem seqAct_dummy2 {s : State} (h : s.seq.st = .dummy2) :
    seqAct s = goto .blockHeader s.vd.latHdr s := by rw [seqAct, h]

theorem seqAct_blockHeader {s : State} (h : s.seq.st = .blockHeader) :
    seqAct s = readHeader (decodeHeader (romRead s s.seq.cursor)) s := by
  rw [seqAct, h]
  rfl

theorem seqAct_nibbleCount {s : State} (h : s.seq.st = .nibbleCount) : seqAct s = nibbleCountAct s := by
  rw [seqAct, h]

theorem seqAct_nibbleMSN {s : State} (h : s.seq.st = .nibbleMSN) : seqAct s = nibbleMSNAct s := by
  rw [seqAct, h]

theorem seqAct_nibbleLSN {s : State} (h : s.seq.st = .nibbleLSN) : seqAct s = nibbleLSNAct s := by
  rw [seqAct, h]

theorem seqAct_dropDRQ {s : State} (h : s.seq.st = .dropDRQ) : seqAct s = dropDRQ s := by rw [seqAct, h]

/-- A block header's meaning is what the BlockHeader state does for it (log 7). -/
theorem exec_ofHeader (h : Header) (s : State) : exec (Instr.ofHeader h) s = runHeader h s := by
  cases h <;> rfl

/-- Settles O6: the BlockHeader state's action is the header's meaning. -/
theorem tickRunsDecodedHeader : Obligations.TickRunsDecodedHeader := by
  intro s hlive hconf hb hst hcd
  have htick := tick_seqAct hlive hconf hb hcd (by rw [hst]; decide)
  rw [seqAct_blockHeader hst] at htick
  exact ⟨_, (exec_ofHeader _ s).trans (runHeader_block hb _), htick⟩

/-- Settles O47: the actions of the four states. -/
theorem nibbleRunStates : Obligations.NibbleRunStates := by
  intro s hlive hconf hb hcd byte left V
  have htick := tick_seqAct hlive hconf hb hcd
  refine ⟨fun hst => ?count, fun hst => ?msn, fun hst => ?lsn, fun hst => ?drop⟩
  case count =>
    have h := htick (by rw [hst]; decide)
    rwa [seqAct_nibbleCount hst] at h
  case msn =>
    have h := htick (by rw [hst]; decide)
    rwa [seqAct_nibbleMSN hst] at h
  case lsn =>
    have h := htick (by rw [hst]; decide)
    rwa [seqAct_nibbleLSN hst] at h
  case drop =>
    have h := htick (by rw [hst]; decide)
    rwa [seqAct_dropDRQ hst] at h

/-! ## The whole tick (R333, R339, R382-R384) -/

/-- On a configured BLOCK core TICK ticks the FSM and mixes (R380). -/
theorem tick_block {s : State} (hlive : s.g.fatal = false) (hconf : s.g.configured = true)
    (hb : isBlock s.vd = true) : completes .tick s (mix (seqTick s)) :=
  tick_next.mpr ⟨hlive, hconf, by rw [ticked_eq, tickWork, if_pos hb]⟩

theorem seqRunning_eq (q : Seq) : seqRunning q = decide (q.st ≠ .idle) := by
  cases h : q.st <;> simp [seqRunning, h]

theorem seqOutput_eq (s : State) :
    seqOutput s =
      if seqRunning s.seq = true ∧ s.seq.silent = false then
        min (max ((s.voice 0).acc * 2 ^ (seqDialect s.vd).norm) (-32768)) 32767
      else 0 := by
  simp only [seqOutput, Bool.and_eq_true, Bool.not_eq_true']
  rfl

/-- With one voice, silent when inactive and on the 16-bit scale, the mixed sum is its output (R382). -/
theorem mixSum_single {V : Voice} {out : Voice → Int} (hquiet : V.active = false → out V = 0)
    (hrange : inS16 (out V)) : mixSum [V] out = out V := by
  unfold mixSum
  cases hactive : V.active with
  | false => simp [hactive, hquiet hactive]
  | true => simp [hactive, clamp16_of_inS16 hrange]

theorem maskLow_zero (k : Nat) : maskLow k 0 = 0 := by simp [maskLow]

/-- The BLOCK voice as the end of a tick leaves it (R333). -/
def publishedVoice (s : State) : Voice :=
  { s.voice 0 with
    active := seqRunning s.seq, keyed := seqRunning s.seq, outL := seqOutput s, outR := 0 }

/-- With the published voice alone, the left side of the frame is its output, masked (R382-R384). -/
theorem mix_published {s u : State} (h : s.voices = [publishedVoice u]) :
    mix s = { s with g := { s.g with
      frameL := if s.g.enable then maskLow s.vd.outMaskBits (seqOutput u) else 0, frameR := 0 } } := by
  have hleft : mixSum s.voices (fun V => V.outL) = seqOutput u := by
    rw [h]
    exact mixSum_single (V := publishedVoice u) seqOutput_idle (seqOutput_range u)
  have hright : mixSum s.voices (fun V => V.outR) = 0 := by
    rw [h]
    exact mixSum_single (V := publishedVoice u) (fun _ => rfl) inS16_zero
  rw [mix, hleft, hright, maskLow_zero, ite_self]

/-- Settles O45: the FSM and its one voice change, then that voice is mixed. -/
theorem blockTickAdvancesAndPublishes : Obligations.BlockTickAdvancesAndPublishes := by
  intro s V hlive hconf hb hvoices u run out
  obtain ⟨W, -, hu⟩ : ∃ W, SeqVoice s W ∧ s.seqOnly u W := seqAdvance_cases s
  rw [State.seqOnly, hvoices, List.set_cons_zero] at hu
  have hpublish : seqPublish u = { s with seq := u.seq, voices := [publishedVoice u] } := by
    have hone : (u.voices.set 0 (publishedVoice u)) = [publishedVoice u] := by rw [hu]; rfl
    change { u with voices := u.voices.set 0 (publishedVoice u) } = _
    rw [hone]
    generalize publishedVoice u = P
    rw [hu]
  have hrun : seqRunning u.seq = run := seqRunning_eq u.seq
  have hout : seqOutput u = out := by
    have hvd : u.vd = s.vd := by rw [hu]
    rw [seqOutput_eq, hrun, hvd]
  have htick : completes .tick s (mix (seqPublish u)) := tick_block hlive hconf hb
  rw [hpublish, mix_published rfl] at htick
  rw [publishedVoice, hrun, hout] at htick
  exact htick

end Sys2Proof.Machine
end

section
/-! PROOFS. Runs of ticks, followed in the FSM's registers (44_sequencer.md R333-R346, R360). -/
namespace Sys2Proof.Machine

theorem ticks_succ {s t : State} (h : exec .tick s = .next t) (n : Nat) : ticks (n + 1) s = ticks n t := by
  simp only [ticks, h]

theorem ticks_snoc {n : Nat} {s t u : State} (h : ticks n s = .next t) (hu : exec .tick t = .next u) :
    ticks (n + 1) s = .next u := by
  induction n generalizing s with
  | zero => cases h; exact ticks_succ hu 0
  | succ n ih =>
    cases htick : exec .tick s with
    | next r => rw [ticks_succ htick] at h ⊢; exact ih h
    | fault f => simp [ticks, htick] at h
    | refused r => simp [ticks, htick] at h

/-! ## What the FSM reads (R333) -/

/-- The FSM's action on its registers reads nothing else but the descriptor and the image. -/
theorem seqAct_seq_congr {s t : State} (hvd : t.vd = s.vd) (hrom : t.rom = s.rom) (hseq : t.seq = s.seq) :
    (seqAct t).seq = (seqAct s).seq := by
  obtain ⟨vd, g, rom, tables, voices, seq, input, result⟩ := s
  obtain ⟨vd', g', rom', tables', voices', seq', input', result'⟩ := t
  subst hvd hrom hseq
  unfold seqAct
  cases seq'.st with
  | addr2 => simp only [addr2Act, apply_ite State.seq]; rfl
  | blockHeader =>
    change (readHeader (decodeHeader (rom'.read vd'.fill seq'.cursor)) _).seq
      = (readHeader (decodeHeader (rom'.read vd'.fill seq'.cursor)) _).seq
    cases decodeHeader (rom'.read vd'.fill seq'.cursor) with
    | loopBack a => simp only [readHeader, headerAction, hdrRepeat, apply_ite State.seq]; rfl
    | stop | silence a | fixed a | counted a => rfl
  | idle | start | addr1 | dummy1 | dummy2 | nibbleCount | nibbleMSN | nibbleLSN | dropDRQ => rfl

theorem seqAdvance_seq_congr {s t : State} (hvd : t.vd = s.vd) (hrom : t.rom = s.rom)
    (hseq : t.seq = s.seq) : (seqAdvance t).seq = (seqAdvance s).seq := by
  simp only [seqAdvance, apply_ite State.seq, seqAct_seq_congr hvd hrom hseq, hseq]

/-! ## Runs (R333) -/

/-- A core with BLOCK on which TICK does not fault (R504, R505). -/
def State.liveBlock (s : State) : Prop :=
  s.g.fatal = false ∧ s.g.configured = true ∧ isBlock s.vd = true

/-- After `n` ticks from `s` the FSM's registers are `q`; the descriptor and the image are those of `s`. -/
def State.streamsTo (s : State) (n : Nat) (q : Seq) : Prop :=
  ∃ t, ticks n s = .next t ∧ t.liveBlock ∧ t.vd = s.vd ∧ t.rom = s.rom ∧ t.seq = q

theorem streamsTo_zero {s : State} (h : s.liveBlock) : s.streamsTo 0 s.seq := ⟨s, rfl, h, rfl, rfl, rfl⟩

namespace State.streamsTo
variable {s : State} {n : Nat} {q : Seq}

theorem tick (h : s.streamsTo n q) : s.streamsTo (n + 1) (seqAdvance { s with seq := q }).seq := by
  obtain ⟨t, hticks, ⟨hlive, hconf, hb⟩, hvd, hrom, rfl⟩ := h
  obtain ⟨W, hframe⟩ := seqTick_frame t
  have hvd' : (seqTick t).vd = t.vd := by rw [hframe]
  have hg : (seqTick t).g = t.g := by rw [hframe]
  have hrom' : (seqTick t).rom = t.rom := by rw [hframe]
  refine ⟨_, ticks_snoc hticks (tick_block hlive hconf hb), ⟨?_, ?_, ?_⟩, hvd'.trans hvd, hrom'.trans hrom,
    seqAdvance_seq_congr hvd hrom rfl⟩
  · exact (congrArg Globals.fatal hg).trans hlive
  · exact (congrArg Globals.configured hg).trans hconf
  · exact (congrArg isBlock hvd').trans hb

/-- A running state counts its countdown down to 0, a tick for each (R333). -/
theorem countDown (h : s.streamsTo n q) (hst : q.st ≠ .idle) :
    s.streamsTo (n + q.cd) { q with cd := 0 } := by
  induction hcd : q.cd generalizing n q with
  | zero =>
    have hq : { q with cd := 0 } = q := by rw [← hcd]
    rwa [hq]
  | succ c ih =>
    have htick := h.tick
    rw [seqAdvance, if_neg hst, if_pos (by simp [hcd])] at htick
    have hrest := ih htick hst (by simp [hcd])
    rwa [Nat.add_right_comm] at hrest

/-- The action of a running state follows its countdown (R333). -/
theorem act (h : s.streamsTo n q) (hst : q.st ≠ .idle) :
    s.streamsTo (n + q.cd + 1) (seqAct { s with seq := { q with cd := 0 } }).seq := by
  have htick := (h.countDown hst).tick
  rwa [seqAdvance, if_neg hst, if_neg (Nat.lt_irrefl 0)] at htick

/-! ## The states of a start (R336, R340-R345) -/

theorem start (h : s.streamsTo n q) (hst : q.st = .start) :
    s.streamsTo (n + q.cd + 1)
      { q with
        st := .addr1, cd := s.vd.latAddr, cursor := s.vd.seqTableBase + 2 * q.idxReg.toNat } := by
  have hact := h.act (by rw [hst]; decide)
  rwa [seqAct_start hst] at hact

theorem addr1 (h : s.streamsTo n q) (hst : q.st = .addr1) :
    s.streamsTo (n + q.cd + 1)
      { q with
        cursor := q.cursor + 1, ptrHi := romRead s q.cursor, drq := true, ret := .addr2
        retCd := s.vd.latAddr, st := .dropDRQ, cd := s.vd.latDrop } := by
  have hact := h.act (by rw [hst]; decide)
  rwa [seqAct_addr1 hst] at hact

theorem addr2 (h : s.streamsTo n q) (hst : q.st = .addr2) {a : Nat}
    (ha : a = (q.ptrHi.toNat * 256 + (romRead s q.cursor).toNat) * s.vd.seqPtrScale) (hin : a < s.rom.len) :
    s.streamsTo (n + q.cd + 1)
      { q with
        cursor := a, drq := true, ret := .dummy1, retCd := s.vd.latDummy, st := .dropDRQ
        cd := s.vd.latDrop } := by
  have hact := h.act (by rw [hst]; decide)
  have hptr : pointerAddr { s with seq := { q with cd := 0 } } = a := (pointerAddr_eq _).trans ha.symm
  rwa [seqAct_addr2 hst, addr2Act, hptr, if_neg (Nat.not_le.mpr hin)] at hact

theorem dummy1 (h : s.streamsTo n q) (hst : q.st = .dummy1) :
    s.streamsTo (n + q.cd + 1) { q with st := .dummy2, cd := s.vd.latDummy } := by
  have hact := h.act (by rw [hst]; decide)
  rwa [seqAct_dummy1 hst] at hact

theorem dummy2 (h : s.streamsTo n q) (hst : q.st = .dummy2) :
    s.streamsTo (n + q.cd + 1) { q with st := .blockHeader, cd := s.vd.latHdr } := by
  have hact := h.act (by rw [hst]; decide)
  rwa [seqAct_dummy2 hst] at hact

theorem dropDRQ (h : s.streamsTo n q) (hst : q.st = .dropDRQ) :
    s.streamsTo (n + q.cd + 1) { q with drq := false, st := q.ret, cd := q.retCd } := by
  have hact := h.act (by rw [hst]; decide)
  rwa [seqAct_dropDRQ hst] at hact

end State.streamsTo

/-- Settles O48: the seven actions from Start to Dummy2, each after its countdown, then the last countdown. -/
theorem firstHeaderTick : Obligations.FirstHeaderTick := by
  intro s hlive hconf hb hst hcd e a hin
  have haddr2 := (((streamsTo_zero ⟨hlive, hconf, hb⟩).start hst).addr1 rfl).dropDRQ rfl
  have hheader := ((((haddr2.addr2 rfl rfl hin).dropDRQ rfl).dummy1 rfl).dummy2 rfl).countDown nofun
  obtain ⟨t, hticks, -, -, -, hseq⟩ := hheader
  refine ⟨t, ?_, ?_⟩
  · rw [← hticks]
    congr 1
    simp only [hcd]
    omega
  · rw [hseq]
    exact ⟨rfl, rfl, rfl, rfl⟩

end Sys2Proof.Machine
end

section
/-! PROOFS. Repeat loops (44_sequencer.md R333, R351, R354). -/
namespace Sys2Proof.Machine

/-! ## Readings of a marker -/

/-- The two sequencer states have the same loop and stand at the same byte of the stream. -/
def sameStream (q r : Seq) : Prop := sameLoop q r ∧ r.cursor = q.cursor

theorem sameLoop_trans {p q r : Seq} (hpq : sameLoop p q) (hqr : sameLoop q r) : sameLoop p r := by
  obtain ⟨hvalid, hblock, hactive, haddr, hcount⟩ := hpq
  obtain ⟨hvalid', hblock', hactive', haddr', hcount'⟩ := hqr
  exact ⟨hvalid'.trans hvalid, hblock'.trans hblock, hactive'.trans hactive, haddr'.trans haddr,
    hcount'.trans hcount⟩

/-- What a marker does to the loop and the cursor depends on them alone (R354). -/
theorem marker_sameStream {q r : Seq} (h : sameStream q r) (addr : Nat) (a : BitVec 6) :
    sameStream (loopOrAdvance (enterRepeat addr a q)) (loopOrAdvance (enterRepeat addr a r)) := by
  obtain ⟨⟨hvalid, hblock, hactive, haddr, hcount⟩, hcursor⟩ := h
  have hleft : loopBacksLeft addr a r = loopBacksLeft addr a q := by
    unfold loopBacksLeft
    rw [hactive, haddr, hcount]
  rw [marker_eq, marker_eq, hleft]
  split
  · exact ⟨⟨hvalid, hblock, rfl, rfl, rfl⟩, hblock⟩
  · exact ⟨⟨rfl, hblock, rfl, rfl, rfl⟩, hcursor⟩

theorem marker_first {addr : Nat} {q : Seq} (h : q.repActive = false) (a : BitVec 6) :
    loopOrAdvance (enterRepeat addr a q) =
      { q with repActive := true, repAddr := addr, repCount := a.toNat, cursor := q.lbAddr } := by
  have hleft : loopBacksLeft addr a q = a.toNat + 1 := if_pos (.inl h)
  rw [marker_eq, hleft, if_pos (Nat.succ_pos _), Nat.add_sub_cancel]

/-- At a later reading the loop-backs left are the ones counted. -/
theorem loopBacksLeft_again {addr : Nat} {q : Seq} (hactive : q.repActive = true) (haddr : q.repAddr = addr)
    (a : BitVec 6) : loopBacksLeft addr a q = q.repCount := if_neg (by simp [hactive, haddr])

theorem marker_again {addr : Nat} {q : Seq} (hactive : q.repActive = true) (haddr : q.repAddr = addr)
    (hcount : 0 < q.repCount) (a : BitVec 6) :
    loopOrAdvance (enterRepeat addr a q) = { q with repCount := q.repCount - 1, cursor := q.lbAddr } := by
  rw [marker_eq, loopBacksLeft_again hactive haddr, if_pos hcount, ← hactive, ← haddr]

theorem marker_last {addr : Nat} {q : Seq} (hactive : q.repActive = true) (haddr : q.repAddr = addr)
    (hcount : q.repCount = 0) (a : BitVec 6) :
    loopOrAdvance (enterRepeat addr a q) = { q with repActive := false, lbValid := false } := by
  rw [marker_eq, loopBacksLeft_again hactive haddr, if_neg (Nat.not_lt.mpr hcount.le), ← haddr, ← hcount]

/-- The FSM's registers with the block read again and the cursor past the marker's byte. -/
def atMarker (block addr : Nat) (q : Seq) : Seq :=
  { q with lbValid := true, lbAddr := block, cursor := addr + 1 }

section
variable (block addr : Nat) (a : BitVec 6)

theorem readMarker_eq (q : Seq) :
    readMarker block addr a q = loopOrAdvance (enterRepeat addr a (atMarker block addr q)) := rfl

theorem readMarker_first {q : Seq} (h : q.repActive = false) :
    readMarker block addr a q =
      { q with
        lbValid := true, lbAddr := block, cursor := block, repActive := true, repAddr := addr
        repCount := a.toNat } :=
  (readMarker_eq block addr a q).trans (marker_first (q := atMarker block addr q) h a)

theorem readMarker_again {q : Seq} (hactive : q.repActive = true) (haddr : q.repAddr = addr)
    (hcount : 0 < q.repCount) :
    readMarker block addr a q =
      { q with lbValid := true, lbAddr := block, cursor := block, repCount := q.repCount - 1 } :=
  (readMarker_eq block addr a q).trans (marker_again (q := atMarker block addr q) hactive haddr hcount a)

theorem readMarker_last {q : Seq} (hactive : q.repActive = true) (haddr : q.repAddr = addr)
    (hcount : q.repCount = 0) :
    readMarker block addr a q =
      { q with lbValid := false, lbAddr := block, cursor := addr + 1, repActive := false } :=
  (readMarker_eq block addr a q).trans (marker_last (q := atMarker block addr q) hactive haddr hcount a)

/-- The first `a + 1` readings of a marker loop back (R354). -/
theorem iterate_readMarker {q : Seq} (h : q.repActive = false) {k : Nat} (hk : k ≤ a.toNat) :
    (readMarker block addr a)^[k + 1] q =
      { q with
        lbValid := true, lbAddr := block, cursor := block, repActive := true, repAddr := addr
        repCount := a.toNat - k } := by
  induction k with
  | zero => exact readMarker_first block addr a h
  | succ k ih =>
    rw [Function.iterate_succ_apply', ih (Nat.le_of_succ_le hk)]
    exact readMarker_again block addr a rfl rfl (Nat.sub_pos_of_lt hk)

/-- The next reading advances past the marker (R354). -/
theorem iterate_readMarker_last {q : Seq} (h : q.repActive = false) :
    (readMarker block addr a)^[a.toNat + 2] q =
      { q with
        lbValid := false, lbAddr := block, cursor := addr + 1, repActive := false, repAddr := addr
        repCount := 0 } := by
  rw [Function.iterate_succ_apply', iterate_readMarker block addr a h le_rfl, Nat.sub_self]
  exact readMarker_last block addr a rfl rfl rfl

/-- Before each of the first `a + 2` readings the FSM stands at the block. -/
theorem iterate_readMarker_cursor {q : Seq} (h : q.repActive = false) (hcursor : q.cursor = block) {k : Nat}
    (hk : k ≤ a.toNat + 1) : ((readMarker block addr a)^[k] q).cursor = block := by
  cases k with
  | zero => exact hcursor
  | succ k => rw [iterate_readMarker block addr a h (Nat.le_of_succ_le_succ hk)]

end

/-! ## Readings as executed headers -/

/-- A block's header sets the loop-back point, and leaves the loop in progress alone (R351-R353). -/
theorem exec_blockHeader_sameLoop {s : State} (hb : isBlock s.vd = true) {block : Nat}
    (hcursor : s.seq.cursor = block) (b : BitVec 6) :
    ∀ header ∈ [Instr.hdrSilence b, .hdrFixed b, .hdrCounted b],
      ∃ u, exec header s = .next u ∧ sameLoop { s.seq with lbValid := true, lbAddr := block } u.seq := by
  subst hcursor
  have hrun := runHeader_block hb
  simp only [List.forall_mem_cons]
  exact ⟨⟨_, hrun (.silence b), ⟨rfl, rfl, rfl, rfl, rfl⟩⟩, ⟨_, hrun (.fixed b), ⟨rfl, rfl, rfl, rfl, rfl⟩⟩,
    ⟨_, hrun (.counted b), ⟨rfl, rfl, rfl, rfl, rfl⟩⟩, List.forall_mem_nil _⟩

/-- REPEAT with the loop-back point at a block is a reading of the marker. -/
theorem exec_hdrRepeat_readMarker {r : State} (hb : isBlock r.vd = true) {q : Seq} {block : Nat}
    (h : sameLoop { q with lbValid := true, lbAddr := block } r.seq) (a : BitVec 6) :
    ∃ t, exec (.hdrRepeat a) r = .next t ∧ sameStream (readMarker block r.seq.cursor a q) t.seq := by
  rw [exec_hdrRepeat hb, readHeader_looping h.1]
  exact ⟨_, rfl, marker_sameStream (q := atMarker block r.seq.cursor q) (r := (rdNext r).seq) ⟨h, rfl⟩
    r.seq.cursor a⟩

/-! ## Readings in ticks -/

namespace State.streamsTo
variable {s : State} {n : Nat} {q : Seq}

theorem silence (h : s.streamsTo n q) (hst : q.st = .blockHeader) {b : BitVec 6}
    (hheader : decodeHeader (romRead s q.cursor) = .silence b) :
    s.streamsTo (n + q.cd + 1)
      { q with
        cursor := q.cursor + 1, lbValid := true, lbAddr := q.cursor, silent := true, drq := true
        ret := .blockHeader, retCd := (b.toNat + 1) * s.vd.seqSilenceUnit - 1, st := .dropDRQ
        cd := s.vd.latDrop } := by
  have hact := h.act (by rw [hst]; decide)
  have hread : decodeHeader (romRead { s with seq := { q with cd := 0 } } q.cursor) = .silence b := hheader
  rwa [seqAct_blockHeader hst, hread] at hact

theorem loopBack (h : s.streamsTo n q) (hst : q.st = .blockHeader) (hvalid : q.lbValid = true) {a : BitVec 6}
    (hheader : decodeHeader (romRead s q.cursor) = .loopBack a) :
    s.streamsTo (n + q.cd + 1)
      { loopOrAdvance (enterRepeat q.cursor a { q with cd := 0, cursor := q.cursor + 1 }) with
        drq := true, ret := .blockHeader, retCd := 0, st := .dropDRQ, cd := s.vd.latDrop } := by
  have hact := h.act (by rw [hst]; decide)
  have hread : decodeHeader (romRead { s with seq := { q with cd := 0 } } q.cursor) = .loopBack a := hheader
  rwa [seqAct_blockHeader hst, hread, readHeader_looping hvalid] at hact

end State.streamsTo

/-- The ticks of one reading of a block of silence and of its marker. -/
def silenceRound (s : State) (b : BitVec 6) : Nat :=
  2 * s.vd.latDrop + (b.toNat + 1) * s.vd.seqSilenceUnit + 3

/-- After `n` ticks the FSM is about to read a header, with the loop and the cursor of `q`. -/
def State.readsHeader (s : State) (n : Nat) (q : Seq) : Prop :=
  ∃ r, s.streamsTo n r ∧ r.st = .blockHeader ∧ r.cd = 0 ∧ sameStream q r

theorem State.readsHeader.silence {s : State} {n : Nat} {q : Seq} (h : s.readsHeader n q) {b : BitVec 6}
    (hheader : decodeHeader (romRead s q.cursor) = .silence b) (hunit : 0 < s.vd.seqSilenceUnit) :
    s.readsHeader (n + s.vd.latDrop + (b.toNat + 1) * s.vd.seqSilenceUnit + 1)
      { q with lbValid := true, lbAddr := q.cursor, cursor := q.cursor + 1 } := by
  obtain ⟨r, hr, hst, hcd, ⟨-, -, hactive, haddr, hcount⟩, hcursor⟩ := h
  have hread := ((hr.silence hst (by rwa [hcursor])).dropDRQ rfl).countDown nofun
  have hpos : 0 < (b.toNat + 1) * s.vd.seqSilenceUnit := Nat.mul_pos (Nat.succ_pos _) hunit
  have hticks : n + r.cd + 1 + s.vd.latDrop + 1 + ((b.toNat + 1) * s.vd.seqSilenceUnit - 1)
      = n + s.vd.latDrop + (b.toNat + 1) * s.vd.seqSilenceUnit + 1 := by omega
  rw [hticks] at hread
  exact ⟨_, hread, rfl, rfl, ⟨rfl, hcursor, hactive, haddr, hcount⟩, congrArg Nat.succ hcursor⟩

theorem State.readsHeader.loopBack {s : State} {n : Nat} {q : Seq} (h : s.readsHeader n q)
    (hvalid : q.lbValid = true) {a : BitVec 6} (hheader : decodeHeader (romRead s q.cursor) = .loopBack a) :
    s.readsHeader (n + s.vd.latDrop + 2)
      (loopOrAdvance (enterRepeat q.cursor a { q with cursor := q.cursor + 1 })) := by
  obtain ⟨r, hr, hst, hcd, hloop, hcursor⟩ := h
  have hread := (hr.loopBack hst (hloop.1.trans hvalid) (by rwa [hcursor])).dropDRQ rfl
  have hticks : n + r.cd + 1 + s.vd.latDrop + 1 = n + s.vd.latDrop + 2 := by omega
  rw [hticks, hcursor] at hread
  have hmarker := marker_sameStream (q := { q with cursor := q.cursor + 1 })
    (r := { r with cd := 0, cursor := q.cursor + 1 }) ⟨hloop, rfl⟩ q.cursor a
  exact ⟨_, hread, rfl, rfl, hmarker⟩

section
variable {s : State} {a b : BitVec 6} {block : Nat}

/-- In ticks, too, the block and its marker are one reading (R333, R351, R354). -/
theorem readsHeader_round (hunit : 0 < s.vd.seqSilenceUnit)
    (hsilence : decodeHeader (romRead s block) = .silence b)
    (hmarker : decodeHeader (romRead s (block + 1)) = .loopBack a) {n : Nat} {q : Seq}
    (h : s.readsHeader n q) (hcursor : q.cursor = block) :
    s.readsHeader (n + silenceRound s b) (readMarker block (block + 1) a q) := by
  subst hcursor
  have hround := (h.silence hsilence hunit).loopBack rfl hmarker
  have hticks : n + s.vd.latDrop + (b.toNat + 1) * s.vd.seqSilenceUnit + 1 + s.vd.latDrop + 2
      = n + silenceRound s b := by
    unfold silenceRound
    omega
  rwa [hticks] at hround

/-- `k` rounds are `k` readings, as long as each finds the FSM at the block. -/
theorem readsHeader_rounds (hlive : s.liveBlock) (hunit : 0 < s.vd.seqSilenceUnit)
    (hst : s.seq.st = .blockHeader) (hcd : s.seq.cd = 0) (hinactive : s.seq.repActive = false)
    (hsilence : decodeHeader (romRead s s.seq.cursor) = .silence b)
    (hmarker : decodeHeader (romRead s (s.seq.cursor + 1)) = .loopBack a) {k : Nat} (hk : k ≤ a.toNat + 2) :
    s.readsHeader (k * silenceRound s b) ((readMarker s.seq.cursor (s.seq.cursor + 1) a)^[k] s.seq) := by
  induction k with
  | zero =>
    rw [Nat.zero_mul]
    exact ⟨s.seq, streamsTo_zero hlive, hst, hcd, ⟨rfl, rfl, rfl, rfl, rfl⟩, rfl⟩
  | succ k ih =>
    rw [Nat.succ_mul, Function.iterate_succ_apply']
    exact readsHeader_round hunit hsilence hmarker (ih (Nat.le_of_succ_le hk))
      (iterate_readMarker_cursor _ _ a hinactive rfl (Nat.le_of_succ_le_succ hk))

end

/-- Settles O44: the marker as a function of the loop, reached by executed headers and by ticks. -/
theorem markerLoopsCountPlusOneTimes : Obligations.MarkerLoopsCountPlusOneTimes := by
  refine ⟨?headers, ?readings, ?inTicks⟩
  case headers =>
    intro s block addr a b hb header hheader
    obtain ⟨u, hu, hset⟩ := exec_blockHeader_sameLoop
      (s := { s with seq := { s.seq with cursor := block } }) hb rfl b header hheader
    refine ⟨u, hu, ?_⟩
    rintro r hvd hloop rfl
    exact exec_hdrRepeat_readMarker (hvd ▸ hb) (sameLoop_trans hset hloop) a
  case readings =>
    intro block addr a q hinactive
    refine ⟨fun k hk => ?_, ?_⟩
    · intro r
      have hr : r = _ := iterate_readMarker block addr a hinactive hk
      rw [hr]
      exact ⟨rfl, rfl, rfl⟩
    · intro r
      have hr : r = _ := iterate_readMarker_last block addr a hinactive
      rw [hr]
      exact ⟨rfl, rfl, rfl⟩
  case inTicks =>
    intro s a b hlive hconf hb hunit hst hcd hinactive hsilence hmarker round
    have hrounds := @readsHeader_rounds s a b ⟨hlive, hconf, hb⟩ hunit hst hcd hinactive hsilence hmarker
    refine ⟨fun k hk => ?_, ?_⟩
    · have hreads := hrounds (k := k + 1) (by omega)
      rw [iterate_readMarker _ _ a hinactive hk] at hreads
      obtain ⟨_, ⟨t, hticks, -, -, -, rfl⟩, hst', hcd', ⟨-, -, -, -, hcount⟩, hcursor⟩ := hreads
      exact ⟨t, hticks, hst', hcd', hcursor, hcount⟩
    · have hreads := hrounds (k := a.toNat + 2) le_rfl
      rw [iterate_readMarker_last _ _ a hinactive] at hreads
      obtain ⟨_, ⟨t, hticks, -, -, -, rfl⟩, hst', hcd', ⟨hvalid, -, hactive, -, -⟩, hcursor⟩ := hreads
      exact ⟨t, hticks, hst', hcd', hcursor, hactive, hvalid⟩

end Sys2Proof.Machine
end

section
/-!
PROOFS. What a voice's tick reads of the state: descriptor, image and tables (45_mixer_tick.md R381, R387). Each
operation of a tick gives the same on two states that agree in these.
-/
namespace Sys2Proof.Machine

/-- The two states have the same descriptor, image and tables. -/
def State.sameSources (s t : State) : Prop := t.vd = s.vd ∧ t.rom = s.rom ∧ t.tables = s.tables

namespace State.sameSources
variable {s t : State} (h : s.sameSources t)
include h

theorem vd_eq : t.vd = s.vd := h.1

theorem rom_eq : t.rom = s.rom := h.2.1

theorem tables_eq : t.tables = s.tables := h.2.2

/-! ## Waveform decoding (R261-R281) -/

theorem romRead_eq : romRead t = romRead s := by
  funext a
  rw [romRead, romRead, h.vd_eq, h.rom_eq]

theorem pcm16Unit_eq (start p : Nat) : pcm16Unit t start p = pcm16Unit s start p := by
  simp only [pcm16Unit, romRead16, h.romRead_eq]

theorem pcm12Unit_eq (start p : Nat) : pcm12Unit t start p = pcm12Unit s start p := by
  simp only [pcm12Unit, pcm12Bits, h.romRead_eq]

theorem adpcmUnit_eq (d : Dialect) (V : Voice) : adpcmUnit t d V = adpcmUnit s d V := by
  simp only [adpcmUnit, adpcmNibble, h.romRead_eq]

theorem decodeUnit_eq (V : Voice) : decodeUnit t V = decodeUnit s V := by
  unfold decodeUnit
  cases V.codec with
  | pcm8 => simp only [pcm8Unit, h.romRead_eq]
  | pcm16 => simp only [h.pcm16Unit_eq]
  | pcm12 => simp only [h.pcm12Unit_eq]
  | adpcmA | adpcmB | adpcmC => simp only [h.adpcmUnit_eq, h.vd_eq]

theorem fetchUnit_eq (V : Voice) : fetchUnit t V = fetchUnit s V := by
  simp only [fetchUnit, h.decodeUnit_eq, h.vd_eq]

theorem fetchUnits_eq (n : Nat) (V : Voice) : fetchUnits t n V = fetchUnits s n V := by
  induction n generalizing V with
  | zero => rfl
  | succ n ih => simp only [fetchUnits, h.fetchUnit_eq, ih]

theorem advanceVoice_eq (V : Voice) : advanceVoice t V = advanceVoice s V := h.fetchUnits_eq _ _

/-! ## The amplitude stages (R300-R308) -/

theorem attackLevel_eq (V : Voice) : attackLevel t V = attackLevel s V := by
  rw [attackLevel, attackLevel, h.vd_eq, h.tables_eq]

theorem attackStep_eq (V : Voice) : attackStep t V = attackStep s V := by
  rw [attackStep, attackStep, h.attackLevel_eq, h.vd_eq]

theorem envelope_eq (V : Voice) : envelope t V = envelope s V := by
  unfold envelope
  cases V.stage with
  | attack => exact h.attackStep_eq V
  | decay1 => simp only [decay1Step, h.tables_eq]
  | decay2 => simp only [decay2Step, h.vd_eq, h.tables_eq]
  | release => simp only [releaseStep, h.tables_eq]
  | idle => rfl

theorem shape_eq (V : Voice) : shape t V = shape s V := by
  simp only [shape, h.envelope_eq, h.vd_eq]

/-! ## The tick (R381) -/

theorem voiceTick_eq (V : Voice) : voiceTick t V = voiceTick s V := by
  simp only [voiceTick, h.advanceVoice_eq, h.shape_eq, h.vd_eq]

end State.sameSources

/-- Settles O35: neither the advance nor the amplitude stages of a voice read more than its sources. -/
theorem voiceTickReadsOnlyItsVoice : Obligations.VoiceTickReadsOnlyItsVoice := by
  intro s t V hvd hrom htables
  have hsources : s.sameSources t := ⟨hvd, hrom, htables⟩
  exact hsources.voiceTick_eq V

end Sys2Proof.Machine
end

section
/-! PROOFS. The tick of a non-BLOCK core (45_mixer_tick.md R380-R385). -/
namespace Sys2Proof.Machine

/-- On a configured non-BLOCK core TICK ticks the voices and mixes (R380). -/
theorem tick_nonBlock {s : State} (hlive : s.g.fatal = false) (hconf : s.g.configured = true)
    (hb : isBlock s.vd = false) : completes .tick s (mix (tickVoices s)) :=
  tick_next.mpr ⟨hlive, hconf, by rw [ticked_eq, tickWork, hb, if_neg Bool.false_ne_true]⟩

/-! ## The voices (R381) -/

theorem shape_ramp {s : State} (V : Voice) (henv : s.vd.env = .ramp) : shape s V = ramp s.vd V := by
  rw [shape, henv]

theorem shape_adsrRamp {s : State} (V : Voice) (henv : s.vd.env = .adsrRamp) :
    shape s V = envelope s (ramp s.vd V) := by
  rw [shape, henv]

/-- A voice that ended in its advance is put out as silence. -/
theorem voiceTick_of_ended {s : State} {V : Voice} (h : (advanceVoice s V).active = false) :
    voiceTick s V = { advanceVoice s V with outL := 0, outR := 0 } := by
  have houtput : voiceOutput s.vd (advanceVoice s V) 0 = { advanceVoice s V with outL := 0, outR := 0 } :=
    if_neg (ne_true_of_eq_false h)
  rw [voiceTick, if_neg (ne_true_of_eq_false h), houtput]

/-- A voice that goes on is put out after its amplitude stages, with the sample of its advance. -/
theorem voiceTick_of_active {s : State} {V : Voice} (h : (advanceVoice s V).active = true) :
    voiceTick s V = voiceOutput s.vd (shape s (advanceVoice s V)) (voiceSample (advanceVoice s V)) := by
  rw [voiceTick, if_pos h]

/-- Settles O34: the voices are ticked and then mixed; each goes through the stages its descriptor has. -/
theorem tickAdvancesVoicesAndMixes : Obligations.TickAdvancesVoicesAndMixes := by
  refine ⟨?frame, fun s V => ⟨voiceTick_of_ended, fun hactive henv => ?ramp, fun hactive henv => ?adsr⟩⟩
  case frame =>
    intro s hlive hconf hb
    exact tick_nonBlock hlive hconf hb
  case ramp => rw [voiceTick_of_active hactive, shape_ramp _ henv]
  case adsr => rw [voiceTick_of_active hactive, shape_adsrRamp _ henv]

end Sys2Proof.Machine
end

section
/-! PROOFS. RESET (46_host_misc.md R405, R406). -/
namespace Sys2Proof.Machine

/-- On a live instance RESET goes through and returns nothing (R405). -/
theorem reset_live {s : State} (hlive : s.g.fatal = false) :
    exec .reset s = .next { resetCore s with result := .void } :=
  unlessFatal_live hlive

/-- RESET writes no `fatal` (R405), so a live instance stays live. -/
theorem resetCore_fatal (s : State) : (resetCore s).g.fatal = s.g.fatal := rfl

/-- What RESET writes depends on the descriptor alone, which it keeps, so a second RESET has nothing to change
(R406); a descriptor without BLOCK keeps its sequencer both times. -/
theorem resetCore_resetCore (s : State) (r : Result) :
    resetCore { resetCore s with result := r } = { resetCore s with result := r } := by
  have hglobals : s.g.afterReset.afterReset = s.g.afterReset := rfl
  cases hb : isBlock s.vd with
  | true => simp only [resetCore, hb, if_true, hglobals]
  | false => simp only [resetCore, hb, if_neg Bool.false_ne_true, hglobals]

/-- Settles O52: RESET keeps the instance live, so it goes through again, and finds its own values. -/
theorem resetClearsAndIsIdempotent : Obligations.ResetClearsAndIsIdempotent := by
  intro s hlive
  refine ⟨{ resetCore s with result := .void }, reset_live hlive, ?again, rfl⟩
  case again =>
    have hlive' : (resetCore s).g.fatal = false := (resetCore_fatal s).trans hlive
    rw [reset_live (s := { resetCore s with result := .void }) hlive', resetCore_resetCore]

end Sys2Proof.Machine
end

section
/-! PROOFS. Which host operations fault (60_exceptions.md R504, R505): what the two guards leave an operation. -/
namespace Sys2Proof.Machine

/-- What an operation past the Fatal guard answers: without CONFIGURE the fault Unconfigured if it needs the tables,
else a next state (R505). -/
def State.answersLive (s : State) (needs : Bool) (o : Out) : Prop :=
  if s.g.configured = false ∧ needs = true then o = .fault .unconfigured else ∃ t : State, o = .next t

/-- What a host operation answers: on a dead instance the fault Fatal, before any other check (R504, R507). -/
def State.answers (s : State) (needs : Bool) (o : Out) : Prop :=
  if s.g.fatal = true then o = .fault .fatal else s.answersLive needs o

/-! ## The guards -/

/-- The outcome R504 and R505 ask for is what the Fatal guard makes of the one past it. -/
theorem answers_unlessFatal {s : State} {needs : Bool} {k : Out} (h : s.answersLive needs k) :
    s.answers needs (unlessFatal s k) := by
  cases hfatal : s.g.fatal with
  | true => rw [State.answers, if_pos hfatal, unlessFatal_dead hfatal]
  | false => rwa [State.answers, if_neg (ne_true_of_eq_false hfatal), unlessFatal_live hfatal]

/-- An operation that needs no table and completes answers a next state, configured or not. -/
theorem answersLive_returns (s u : State) (r : Result) : s.answersLive false (u.returns r) := by
  rw [State.answersLive, if_neg fun h => Bool.false_ne_true h.2]
  exact ⟨_, rfl⟩

/-- An operation behind the Unconfigured guard needs the tables. -/
theorem answersLive_ifConfigured (s u : State) (r : Result) :
    s.answersLive true (ifConfigured s (u.returns r)) := by
  cases hconf : s.g.configured with
  | true =>
    rw [State.answersLive, if_neg fun h => ne_true_of_eq_false h.1 hconf, ifConfigured_true hconf]
    exact ⟨_, rfl⟩
  | false => rw [State.answersLive, if_pos ⟨hconf, rfl⟩, ifConfigured_false hconf]

/-! ## Register writes -/

/-- The voice registers whose write is behind the Unconfigured guard: PITCHL, PITCHH and KEY with its bit 7 set
(R227, R228, R238). -/
def writeNeedsTables (sub d : Byte) : Bool := sub == 2 || sub == 3 || (sub == 4 && d.getLsbD 7)

theorem needsTables_write (s : State) (sel sub d : Byte) :
    needsTables s (.write sel sub d) = (reachesVoice s sel && writeNeedsTables sub d) := rfl

theorem writeNeedsTables_reserved {sub : Byte} (h : 8 ≤ sub.toNat) (d : Byte) :
    writeNeedsTables sub d = false := by
  have hne : ∀ k : Byte, k.toNat < 8 → sub ≠ k := by rintro k hk rfl; omega
  simp [writeNeedsTables, hne]

/-- Register by register, the guard stands where the register needs the tables. -/
theorem voiceWrite_answersLive (v : Nat) (sub d : Byte) (s : State) :
    s.answersLive (writeNeedsTables sub d) (voiceWrite v sub d s) := by
  rcases subAddress_cases sub with rfl | rfl | rfl | rfl | rfl | rfl | rfl | rfl | h
  · exact answersLive_returns ..
  · exact answersLive_returns ..
  · exact answersLive_ifConfigured ..
  · exact answersLive_ifConfigured ..
  · have hneeds : writeNeedsTables 4 d = d.getLsbD 7 := rfl
    rw [hneeds, voiceWrite_key]
    cases d.getLsbD 7 with
    | true => exact answersLive_ifConfigured ..
    | false => exact answersLive_returns ..
  · exact answersLive_returns ..
  · exact answersLive_returns ..
  · exact answersLive_returns ..
  · rw [writeNeedsTables_reserved h, voiceWrite_reserved h]
    exact answersLive_returns ..

/-- A dropped write and a write of the BLOCK voice need no table (R221); any other is one of a voice register. -/
theorem writeRegister_answers (sel sub d : Byte) (s : State) :
    s.answers (needsTables s (.write sel sub d)) (writeRegister sel sub d s) := by
  rw [needsTables_write]
  apply answers_unlessFatal
  cases hv : voiceOf s.vd sel with
  | none =>
    have hdropped : reachesVoice s sel = false := by simp [reachesVoice, hv]
    rw [hdropped]
    exact answersLive_returns ..
  | some v =>
    cases hb : isBlock s.vd with
    | true =>
      have hblock : reachesVoice s sel = false := by simp [reachesVoice, hb]
      rw [hblock]
      exact answersLive_returns ..
    | false =>
      have hreach : reachesVoice s sel = true := by simp [reachesVoice, hb, hv]
      rw [hreach]
      exact voiceWrite_answersLive v sub d s

/-- A row that is a write of a register without the guard needs no table. -/
theorem writeRegister_answers_unguarded {sub d : Byte} (h : writeNeedsTables sub d = false) (sel : Byte)
    (s : State) : s.answers false (writeRegister sel sub d s) := by
  have hwrite := writeRegister_answers sel sub d s
  rwa [needsTables_write, h, Bool.and_false] at hwrite

/-- A row that is a write of a register behind the guard needs the tables if its selector reaches a voice. -/
theorem writeRegister_answers_guarded {sub d : Byte} (h : writeNeedsTables sub d = true) (sel : Byte)
    (s : State) : s.answers (reachesVoice s sel) (writeRegister sel sub d s) := by
  have hwrite := writeRegister_answers sel sub d s
  rwa [needsTables_write, h, Bool.and_true] at hwrite

theorem writeGlobalRegister_answers (reg d : Byte) (s : State) :
    s.answers false (writeGlobalRegister reg d s) := by
  apply answers_unlessFatal
  split
  · exact answersLive_returns ..
  · split <;> exact answersLive_returns ..

/-! ## The other host commands, and all of them -/

/-- A host command with the Fatal guard alone, which then returns (R504). -/
theorem unlessFatal_returns_answers (s u : State) (r : Result) :
    s.answers false (unlessFatal s (u.returns r)) :=
  answers_unlessFatal (answersLive_returns s u r)

/-- A rejected rate is no fault: the error is the result (R201, R502). -/
theorem execConfigure_answers (clock : U32) (s : State) : s.answers false (execConfigure clock s) := by
  apply answers_unlessFatal
  split <;> exact answersLive_returns ..

/-- Settles O12: a register row by the write it is, and each other operation by the guards it stands behind. -/
theorem hostOperationOutcome : Obligations.HostOperationOutcome := by
  intro s i hi
  change s.answers (needsTables s i) (exec i s)
  cases i with
  | write sel sub d => exact writeRegister_answers sel sub d s
  | writeGlobal reg d => exact writeGlobalRegister_answers reg d s
  | configure clock => exact execConfigure_answers clock s
  | tick => exact answers_unlessFatal (answersLive_ifConfigured ..)
  | loadRom | readFrame | reset | readStatus => exact unlessFatal_returns_answers ..
  | pitchL | pitchH | keyOn => exact writeRegister_answers_guarded (by rfl) _ s
  | pan | smpl | keyOff | tl | lfo | am | seqIndex | seqStart | seqStop =>
    exact writeRegister_answers_unguarded (by rfl) _ s
  | enable | bank => exact writeGlobalRegister_answers _ _ s
  | hdrEnd | hdrSilence | hdrFixed | hdrCounted | hdrRepeat => cases hi

end Sys2Proof.Machine
end
